-- ==== Sys2Proof/Word.lean ====
section
/-!
DEFINITION. The unsigned words of the block (spec/00_scope.md R13). All quantities are unsigned; the
block has no signed arithmetic.
-/

namespace Sys2Proof

/-- `u8` of R13. -/
abbrev Byte := BitVec 8

/-- `u32` of R13. -/
abbrev U32 := BitVec 32

/-- `u12` of R13: a position of the dictionary window, so that adding wraps modulo 4096. -/
abbrev Pos := BitVec 12

/-- `u4`: the length code of a back-reference token (R28, R96). -/
abbrev LenCode := BitVec 4

/-- `u16`: a back-reference token after big-endian assembly (R65, R96). -/
abbrev Token := BitVec 16

end Sys2Proof
end

