-- ==== Sys2Proof/Machine/Constants.lean ====
section
/-!
DEFINITION. The fixed parameters of the block (spec/00_scope.md R6 to R12, spec/30_encoding.md R93).
-/

namespace Sys2Proof.Machine

/-- `MAX_DICT_SIZE`: the number of positions of the dictionary window (R6). -/
abbrev maxDictSize : Nat := 4096

/-- `INIT_DICT_SIZE`: the number of seeded positions, and the write offset after `DictInit` (R7). -/
abbrev initDictSize : Nat := 207

/-- `FILL`: the space character (R8). PRESUMED byte value 0x20, the spec's own general knowledge (notes/assumptions/6.md). -/
abbrev fill : Byte := 0x20

/-- The size of the container header (R11). -/
abbrev headerSize : Nat := 16

/-- `HDR_TAIL`: what `comp_size` exceeds the payload length by (R11, R145). -/
abbrev hdrTail : Nat := 12

/-- The number of tokens a control byte governs (R11). -/
abbrev groupSize : Nat := 8

/-- `MIN_MATCH`: the least length of a back-reference (R11). -/
abbrev minMatch : Nat := 2

/-- `MAX_MATCH`: the greatest length of a back-reference (R11). -/
abbrev maxMatch : Nat := 17

/-- `MAX_IN`: the longest input `COMPRESS` is defined for (R12). -/
abbrev maxIn : Nat := 2 ^ 31 - 1

/-- `TAG_LZFU`, the `le32` of the bytes 4C 5A 46 75 (R93). PRESUMED byte values (notes/assumptions/6.md). -/
abbrev tagLzfu : U32 := 0x75465A4C

/-- `TAG_MELA`, the `le32` of the bytes 4D 45 4C 41 (R93). PRESUMED byte values (notes/assumptions/6.md). -/
abbrev tagMela : U32 := 0x414C454D

end Sys2Proof.Machine
end

