-- ==== Sys2Proof/Syntax.lean ====
section
/-!
DEFINITION. The instructions: one constructor for each of the 22 rows of spec/opcode_table.json, in the
table's order. Operands are what the element's encoding carries (spec/30_encoding.md R91 to R97), or,
for an internal operation, the operands its rule names that are not registers.
-/

namespace Sys2Proof

inductive Instr where
  /-- `HDR.LZFU` (R154): a container header with the compressed tag; operands `comp_size`, `raw_size`, `crc` (R92). -/
  | hdrLzfu (compSize rawSize crc : U32)
  /-- `HDR.MELA` (R153): a container header with the stored tag. -/
  | hdrMela (compSize rawSize crc : U32)
  /-- `CTL` (R155): a control byte (R94). -/
  | ctl (b : Byte)
  /-- `LIT` (R156): a literal token (R95). -/
  | lit (b : Byte)
  /-- `REF` (R157): a back-reference token, `offset` and `length_code` (R96). -/
  | ref (off : Pos) (lc : LenCode)
  /-- `END` (R158): a back-reference token whose offset equals `WO` when decoded (R101). -/
  | endMark (off : Pos) (lc : LenCode)
  /-- `DECOMPRESS` (R150); the operand is `CMD` bit 1, which it ignores (R97). -/
  | decompress (compressed : Bool)
  /-- `COMPRESS`, compressed mode (R180). -/
  | compress
  /-- `COMPRESS.S`, stored-uncompressed mode (R181). -/
  | compressS
  /-- `CKSUM` (R120) of a byte sequence. -/
  | cksum (bytes : List Byte)
  /-- `CKCHK` (R121). -/
  | ckchk
  /-- `CKGEN` (R122). -/
  | ckgen
  /-- `DINIT`, `DictInit()` (R133). -/
  | dinit
  /-- `DREAD`, `DictRead(o)` (R134): `o` is a natural number of any size. -/
  | dread (o : Nat)
  /-- `DAPPEND`, `DictAppend(b)` (R135). -/
  | dappend (b : Byte)
  /-- `HPARSE` (R140). -/
  | hparse
  /-- `HBUILD` (R142) with the tag `t`, held as the `le32` of its 4 bytes (R64). -/
  | hbuild (t : U32)
  /-- `MATCH` (R186); `match` is a word of Lean. -/
  | matchOp
  /-- `EMITREF` (R188). -/
  | emitref
  /-- `EMITLIT` (R189). -/
  | emitlit
  /-- `FLUSH` (R190). -/
  | flush
  /-- `EMITEND` (R192). -/
  | emitend
deriving DecidableEq, Repr

end Sys2Proof
end

