-- ==== Sys2Proof/WellFormed.lean ====
section
/-!
DEFINITION. Which instructions are well formed. Operand widths are in the types; what is left is the
one check that depends on the write offset (spec/30_encoding.md R101: the same 16 bits are `END`
exactly when their offset equals `WO`) and the tag of `HBUILD` (spec/42_header_codec.md R142).
-/

namespace Sys2Proof

open Machine

/-- Well-formed with the write offset `wo`. -/
def Instr.wellFormed (wo : Pos) : Instr → Bool
  | .ref off _ => off != wo
  | .endMark off _ => off == wo
  | .hbuild t => t == tagLzfu || t == tagMela
  | .hdrLzfu _ _ _ => true
  | .hdrMela _ _ _ => true
  | .ctl _ => true
  | .lit _ => true
  | .decompress _ => true
  | .compress => true
  | .compressS => true
  | .cksum _ => true
  | .ckchk => true
  | .ckgen => true
  | .dinit => true
  | .dread _ => true
  | .dappend _ => true
  | .hparse => true
  | .matchOp => true
  | .emitref => true
  | .emitlit => true
  | .flush => true
  | .emitend => true

end Sys2Proof
end

