-- ==== Sys2Proof/Decode.lean ====
section
/-!
DEFINITION. Decoding and encoding (spec/30_encoding.md, spec/20_memory.md R63 to R66). An element does not
say its own kind: its position does (R103), so the decoder is told the position as a `Slot`, and for
format R also the write offset, which tells `REF` from `END` (R101). Total on any bytes; what is not
an element is rejected by name.
-/

namespace Sys2Proof

open Machine

/-! ### Byte order -/

/-- The little-endian value of four bytes, lowest address first (R14, R63). -/
def le32 (b0 b1 b2 b3 : Byte) : U32 := b3 ++ b2 ++ b1 ++ b0

/-- The big-endian value of two bytes, lowest address first (R14, R65). -/
def be16 (b0 b1 : Byte) : Token := b0 ++ b1

/-- `bytes_le32` of R14. -/
def bytesLe32 (v : U32) : List Byte :=
  [v.extractLsb' 0 8, v.extractLsb' 8 8, v.extractLsb' 16 8, v.extractLsb' 24 8]

/-- `bytes_be16` of R14. -/
def bytesBe16 (t : Token) : List Byte := [t.extractLsb' 8 8, t.extractLsb' 0 8]

/-! ### Token fields (R96, R99, R100) -/

/-- `offset` = `(TOK >> 4) & 0xFFF` (R99). -/
def tokOff (t : Token) : Pos := t.extractLsb' 4 12

/-- `length_code` = `TOK & 0xF` (R99). -/
def tokLc (t : Token) : LenCode := t.extractLsb' 0 4

/-- The token of an offset and a length code: `(o << 4) | lc` (R100). -/
def mkToken (off : Pos) (lc : LenCode) : Token := off ++ lc

/-! ### Decoding -/

/-- Why bytes are no element. -/
inductive Reject where
  /-- Fewer bytes than the element's format has (R140, R159). -/
  | tooFewBytes
  /-- A `CMD` byte with one of bits 7:2 set (R32, R104, U1). -/
  | reservedCommandBits
  /-- A `comp_type` that is neither tag (R104). -/
  | unknownTag
deriving DecidableEq, Repr

/-- The positions an encoded element can stand in: a host write of `CMD`, the start of a container, a
control byte's place, and a token's place with control bit 0 or 1 (R90, R98, R103). -/
inductive Slot where
  | command | header | control | literal | reference
deriving DecidableEq, Repr

/-- An element of the token stream (R98). -/
inductive Element where
  | ctl (b : Byte)
  | lit (b : Byte)
  | ref (off : Pos) (lc : LenCode)
  | endMark (off : Pos) (lc : LenCode)
deriving DecidableEq, Repr

/-- The element as an instruction. -/
def Element.instr : Element → Instr
  | .ctl b => .ctl b
  | .lit b => .lit b
  | .ref off lc => .ref off lc
  | .endMark off lc => .endMark off lc

/-- Which path a header's tag selects (R92). -/
inductive TagKind where
  | lzfu | mela
deriving DecidableEq, Repr

/-- The header's only opcode field: the tag, compared whole (R92, R93). -/
def decodeTag (t : U32) : Option TagKind :=
  if t = tagLzfu then some .lzfu else if t = tagMela then some .mela else none

/-- Format CMD (R97): bits 7:2 are reserved, bit 1 is `COMPRESSED`, bit 0 is `OP`. -/
def decodeCmd (b : Byte) : Except Reject Instr :=
  if b.extractLsb' 2 6 ≠ 0 then .error .reservedCommandBits
  else if b.getLsbD 0 then (if b.getLsbD 1 then .ok .compress else .ok .compressS)
  else .ok (.decompress (b.getLsbD 1))

/-- Format R (R96), with the write offset: `END` exactly when the offset equals it (R101). -/
def decodeToken (wo : Pos) (t : Token) : Element :=
  if tokOff t = wo then .endMark (tokOff t) (tokLc t) else .ref (tokOff t) (tokLc t)

/-- The element of the token stream at the head of `bytes`, in a control byte's place, a literal's or a
reference's (R103), and the bytes after it; none when its bytes are not all there (R159), and none for a
slot that is not of the stream. -/
def decodeStream (slot : Slot) (wo : Pos) (bytes : List Byte) : Option (Element × List Byte) :=
  match slot, bytes with
  | .control, b :: rest => some (.ctl b, rest)
  | .literal, b :: rest => some (.lit b, rest)
  | .reference, b0 :: b1 :: rest => some (decodeToken wo (be16 b0 b1), rest)
  | _, _ => none

/-- Format H (R91): sixteen bytes, the tag in bytes 8 to 11. -/
def decodeHeader (bytes : List Byte) : Except Reject (Instr × List Byte) :=
  match bytes with
  | c0 :: c1 :: c2 :: c3 :: r0 :: r1 :: r2 :: r3 :: t0 :: t1 :: t2 :: t3 :: k0 :: k1 :: k2 :: k3 :: rest =>
    match decodeTag (le32 t0 t1 t2 t3) with
    | some .lzfu => .ok (.hdrLzfu (le32 c0 c1 c2 c3) (le32 r0 r1 r2 r3) (le32 k0 k1 k2 k3), rest)
    | some .mela => .ok (.hdrMela (le32 c0 c1 c2 c3) (le32 r0 r1 r2 r3) (le32 k0 k1 k2 k3), rest)
    | none => .error .unknownTag
  | _ => .error .tooFewBytes

/-- The decoder: the instruction at the head of `bytes` in the given position, and the bytes after it. -/
def decode (slot : Slot) (wo : Pos) (bytes : List Byte) : Except Reject (Instr × List Byte) :=
  match slot with
  | .command =>
    match bytes with
    | b :: rest => (decodeCmd b).map fun i => (i, rest)
    | [] => .error .tooFewBytes
  | .header => decodeHeader bytes
  | .control | .literal | .reference =>
    match decodeStream slot wo bytes with
    | some (e, rest) => .ok (e.instr, rest)
    | none => .error .tooFewBytes

/-! ### Encoding -/

/-- The position an instruction is encoded for; none for an internal operation, which has no encoding
(spec/30_encoding.md section 4). -/
def slotOf : Instr → Option Slot
  | .decompress _ | .compress | .compressS => some .command
  | .hdrLzfu _ _ _ | .hdrMela _ _ _ => some .header
  | .ctl _ => some .control
  | .lit _ => some .literal
  | .ref _ _ | .endMark _ _ => some .reference
  | .cksum _ | .ckchk | .ckgen | .dinit | .dread _ | .dappend _ | .hparse | .hbuild _ | .matchOp
  | .emitref | .emitlit | .flush | .emitend => none

/-- The container header of a tag and three fields (R91). -/
def encodeHeader (compSize rawSize tag crc : U32) : List Byte :=
  bytesLe32 compSize ++ bytesLe32 rawSize ++ bytesLe32 tag ++ bytesLe32 crc

/-- The bytes of an instruction; none (the empty list) for an internal operation. -/
def encode : Instr → List Byte
  | .decompress compressed => [if compressed then 0x02 else 0x00]
  | .compress => [0x03]
  | .compressS => [0x01]
  | .hdrLzfu compSize rawSize crc => encodeHeader compSize rawSize tagLzfu crc
  | .hdrMela compSize rawSize crc => encodeHeader compSize rawSize tagMela crc
  | .ctl b => [b]
  | .lit b => [b]
  | .ref off lc => bytesBe16 (mkToken off lc)
  | .endMark off lc => bytesBe16 (mkToken off lc)
  | .cksum _ | .ckchk | .ckgen | .dinit | .dread _ | .dappend _ | .hparse | .hbuild _ | .matchOp
  | .emitref | .emitlit | .flush | .emitend => []

/-! ### Words of the opcode table (notes/assumptions/18.md) -/

/-- `n` bytes of `w`, lowest bits first. -/
def bytesOfNat : Nat → Nat → List Byte
  | 0, _ => []
  | n + 1, w => BitVec.ofNat 8 w :: bytesOfNat n (w / 256)

/-- The position a table word of `nbits` bits is read in: an 8-bit word as a host write of `CMD`, the only
8-bit format with fixed bits; a 16-bit word as a back-reference token; 16 bytes as a header. -/
def tableSlot (nbits : Nat) : Option Slot :=
  match nbits with
  | 8 => some .command
  | 16 => some .reference
  | 128 => some .header
  | _ => none

/-- A table word laid out as the hardware stores it: a token most significant byte first (R65), the bytes
of a header in container order (R108). -/
def tableBytes (nbits w : Nat) : List Byte :=
  if nbits = 16 then bytesBe16 (BitVec.ofNat 16 w) else bytesOfNat (nbits / 8) w

/-- What the decoder reads from a word of the opcode table; a token is read with the write offset as
`DictInit` leaves it, 207. -/
def decodeTableWord (nbits w : Nat) : Option Instr :=
  match tableSlot nbits with
  | none => none
  | some slot =>
    match decode slot (BitVec.ofNat 12 initDictSize) (tableBytes nbits w) with
    | .ok (i, _) => some i
    | .error _ => none

end Sys2Proof
end

