-- ==== Sys2Proof/Config.lean ====
section
/-!
DEFINITION. The two OPEN parameters of the spec (spec/00_scope.md R9, R10): the seed text `INIT_DICT`
and the checksum function `CKSUM`. Both are constants with no body, so no proof can see a value of
either (notes/assumptions/3.md), nor of the free values (notes/assumptions/12.md, 24.md). Operations that use them take a `Params`, so that the same
operations can also be run under the reference values of Machine/Reference.lean.
-/

namespace Sys2Proof

/-- The open parameters, as an argument of the model (R9: "The model takes `INIT_DICT : Vector u8 207`
as an argument"; R120: "the model takes the function as an argument"). -/
structure Params where
  /-- `INIT_DICT`, the 207 seed bytes (R9). -/
  initDict : Vector Byte 207
  /-- `CKSUM`, a total pure function from a byte sequence to a `u32` (R10, R120). -/
  cksum : List Byte → U32

/-- `INIT_DICT` of this machine: OPEN, no body (R9, D9). -/
opaque Config.initDict : Vector Byte 207

/-- `CKSUM` of this machine: OPEN, no body (R10, D8). -/
opaque Config.cksum : List Byte → U32

/-- A free value for each occasion on which an instruction runs and the spec does not state one value of it: `L − 2` of `EMITREF`
(notes/assumptions/12.md), `COMP_SIZE` of `HBUILD` (notes/assumptions/24.md). No body (DESIGN CHOICE). -/
opaque Config.freeValue : Nat → U32

/-- The open parameters of this machine. -/
def Config.params : Params := ⟨Config.initDict, Config.cksum⟩

end Sys2Proof
end

