-- ==== Sys2Proof/Machine/State.lean ====
section
/-!
DEFINITION. The state of the engine as plain data (spec/10_state.md), the reasons a step can stop, and
the state after power-on.
-/

namespace Sys2Proof.Machine

/-- The three terminal errors (spec/60_exceptions.md R220). They are not `Fault`s: raising one is a next state (R227). -/
inductive Exc where
  | truncatedInput | unsupportedFormat | corruptData
deriving DecidableEq, Repr

/-- `STATUS.STATE` (R34). -/
inductive EngineState where
  | idle | busy | done | error
deriving DecidableEq, Repr

/-- `STATUS` by its fields (R34); Machine/Flags.lean gives the 8-bit word. `err` is none when `ERR` = 0. -/
structure Status where
  state : EngineState
  err : Option Exc
  endSeen : Bool
  short : Bool
deriving DecidableEq, Repr

/-- The four header registers (R31). `compType` holds the tag's bytes as their `le32` (R64). -/
structure Header where
  compSize : U32
  rawSize : U32
  compType : U32
  crc : U32
deriving DecidableEq, Repr

/-- A byte memory: cells at rising addresses, none equal to what an unlisted address reads as
(`Memory.wf`, Machine/Ops.lean). -/
abbrev Memory := List Host.Cell

/-- The dictionary window: `DICT` (R23) and `WO` (R24). "a single owned buffer object" (R130). -/
structure Window where
  mem : Memory
  wo : Pos
deriving DecidableEq, Repr

/-- The decoder's working registers `IP`, `PEND`, `CTRL`, `BITC`, `TOK`, `OFF`, `LC`, `STEP` (R25, R26, R28). -/
structure DecRegs where
  ip : U32
  pend : U32
  ctrl : Byte
  bitc : BitVec 4
  tok : Token
  off : Pos
  lc : LenCode
  step : BitVec 5
deriving DecidableEq, Repr

/-- The encoder's working registers `CUR`, `ECTRL`, `EBIT`, `TOKBUF`, `TOKLEN`, `PAYLOAD`, `W0`, `DI`, `M`, `L`, `MOFF` (R27, R29). -/
structure EncRegs where
  cur : U32
  ectrl : Byte
  ebit : BitVec 4
  tokbuf : List Byte
  toklen : BitVec 5
  payload : List Byte
  w0 : Pos
  di : BitVec 13
  m : BitVec 5
  l : BitVec 5
  moff : BitVec 13
deriving DecidableEq, Repr

/-- The model's own: what the next step does (notes/assumptions/2.md). -/
inductive Activity where
  /-- No command runs and none was written: the engine changes nothing (R257). -/
  | idle
  /-- The host has written `CMD` and the engine has not yet run the command. -/
  | command
  /-- A `DECOMPRESS` is about to read its container header. -/
  | header
  /-- A `DECOMPRESS` is in its token stream, between two elements. -/
  | stream
deriving DecidableEq, Repr

structure State where
  /-- `STATUS` (R34). -/
  status : Status
  /-- `CMD` (R32). -/
  cmd : Byte
  /-- `IN_LEN` (R33). -/
  inLen : U32
  /-- `IN` (R37). -/
  input : Memory
  /-- `OUT_LEN` (R35), a natural number (D20). -/
  outLen : Nat
  /-- `OUT` (R37). -/
  output : Memory
  /-- `COMP_SIZE`, `RAW_SIZE`, `COMP_TYPE`, `CRC` (R31). -/
  hdr : Header
  /-- The model's own: whether the header registers describe a container (U5, U6; notes/assumptions/17.md). -/
  hdrDefined : Bool
  /-- `DICT` and `WO` (R23, R24). -/
  win : Window
  /-- The decoder's working registers. -/
  dec : DecRegs
  /-- The encoder's working registers. -/
  enc : EncRegs
  /-- The model's own: the answer of the operation `CKSUM` executed by itself (notes/assumptions/7.md). -/
  sumOut : U32
  /-- The model's own: the answer of the operation `DREAD` executed by itself (notes/assumptions/7.md). -/
  byteOut : Byte
  /-- The model's own: how many free values have been used, the argument of the next (notes/assumptions/12.md, 24.md). -/
  freeIndex : Nat
  /-- The model's own: what the next step does (notes/assumptions/2.md). -/
  activity : Activity
deriving DecidableEq, Repr

/-- The ways the machine stops because an access or a slot the spec says does not exist is asked for. -/
inductive Fault where
  /-- Raised by `MATCH`, `EMITLIT`, `CKCHK`, `HDR.LZFU`, `HDR.MELA` and a step of the token stream when it would
  read `IN` at or beyond `IN_LEN`: "a model should give it no step" (R60). Safe (notes/assumptions/8.md). -/
  | inputOutOfRange
  /-- Raised by `EMITREF`, `EMITLIT` and `EMITEND` when the group already holds 8 tokens (R29, R191).
  Safe (notes/assumptions/9.md). -/
  | groupFull
deriving DecidableEq, Repr

/-- What the machine or a host move is refused for. -/
inductive Refusal where
  /-- An instruction with no meaning yet; raised by `exec`'s arms alone, by none of them now. Safe. -/
  | notModelled (mnemonic : String)
  /-- Raised by `COMPRESS` and `COMPRESS.S` with `IN_LEN` > `MAX_IN`: "the launch has no meaning" (U2, R12; notes/assumptions/10.md),
  and by a host load longer than `IN_LEN` can say (R12; DESIGN CHOICE, notes/assumptions/17.md). Safe. -/
  | inputTooLong
  /-- Raised by the step that starts a command, and by the host's write of `CMD`, on a command byte with one of
  bits 7:2 set (U1, R32). Safe (notes/assumptions/11.md). -/
  | reservedCommand
  /-- Raised by every host move but a read of `STATUS` while a command runs or waits (U4, R256). Safe (notes/assumptions/17.md). -/
  | hostDuringCommand
  /-- Raised by a host read before any command has completed, at or beyond `OUT_LEN`, or of header registers that describe
  nothing: "Never a value" (U5, U6). Safe (notes/assumptions/17.md). -/
  | readUndefined
deriving DecidableEq, Repr

/-- Right after power-on (R39): `STATUS` = 0, no memory written. Every other register is unspecified there; the
values are the model's (DESIGN CHOICE, unsafe, notes/assumptions/5.md): zero, but `WO`, `IP`, `PEND` and `BITC` at what R251
gives them at the start of the compressed path with an empty payload. -/
def State.reset : State where
  status := ⟨.idle, none, false, false⟩
  cmd := 0
  inLen := 0
  input := []
  outLen := 0
  output := []
  hdr := ⟨0, 0, 0, 0⟩
  hdrDefined := false
  win := ⟨[], 207⟩
  dec := ⟨16, 16, 0, 8, 0, 0, 0, 0⟩
  enc := ⟨0, 0, 0, [], 0, [], 0, 0, 0, 0, 0⟩
  sumOut := 0
  byteOut := 0
  freeIndex := 0
  activity := .idle

end Sys2Proof.Machine
end

