-- ==== Sys2Proof/Machine/Ops.lean ====
section
/-!
DEFINITION. The operations every meaning is written with: byte memories, the dictionary window, the
output, and the start, the successful end and the erroneous end of a command.
-/

namespace Sys2Proof.Machine

/-! ### Byte memories -/

/-- What an address that no cell lists reads as. DESIGN CHOICE, unsafe (notes/assumptions/4.md). -/
def Memory.unlisted : Byte := fill

/-- The byte at an address. -/
def Memory.read : Memory → Nat → Byte
  | [], _ => Memory.unlisted
  | (k, v) :: rest, a => if k = a then v else Memory.read rest a

/-- Put a cell at its place in the rising order. -/
def Memory.insert (a : Nat) (b : Byte) : Memory → Memory
  | [] => [(a, b)]
  | (k, v) :: rest => if a < k then (a, b) :: (k, v) :: rest else (k, v) :: Memory.insert a b rest

/-- Take the cells of an address out. -/
def Memory.erase (a : Nat) : Memory → Memory
  | [] => []
  | (k, v) :: rest => if k = a then Memory.erase a rest else (k, v) :: Memory.erase a rest

/-- Write one byte. A byte equal to what an unlisted address reads as is not listed. -/
def Memory.write (m : Memory) (a : Nat) (b : Byte) : Memory :=
  if b = Memory.unlisted then Memory.erase a m else Memory.insert a b (Memory.erase a m)

/-- Write bytes at rising addresses. -/
def Memory.writeBytes : Memory → Nat → List Byte → Memory
  | m, _, [] => m
  | m, a, b :: bs => Memory.writeBytes (Memory.write m a b) (a + 1) bs

/-- `n` bytes at rising addresses, `MemRead` of R15: "exactly the sequence of its single-byte reads in ascending
index order" (R69). -/
def Memory.readBytes (m : Memory) : Nat → Nat → List Byte
  | _, 0 => []
  | a, n + 1 => Memory.read m a :: Memory.readBytes m (a + 1) n

/-- The canonical form: addresses strictly rising, no cell equal to what an unlisted address reads as. -/
def Memory.wf (m : Memory) : Bool :=
  decide (m.Pairwise fun x y => x.1 < y.1) && m.all fun c => c.2 != Memory.unlisted

/-! ### The dictionary window (spec/41_dictionary_window.md) -/

/-- `DictRead(o)`: the offset is reduced modulo 4096, so no read can fail (R134). -/
def Window.read (w : Window) (o : Nat) : Byte := Memory.read w.mem (o % maxDictSize)

/-- `DictAppend(b)`: the store uses the old `WO`, the increment comes second and wraps (R135). -/
def Window.append (w : Window) (b : Byte) : Window :=
  ⟨Memory.write w.mem w.wo.toNat b, w.wo + 1⟩

/-- Append bytes in order. -/
def Window.appendAll : Window → List Byte → Window
  | w, [] => w
  | w, b :: bs => Window.appendAll (Window.append w b) bs

/-- `DictInit()`: positions 0 to 206 from `INIT_DICT`, `FILL` from 207 on (an unlisted position reads as `FILL`), `WO` at
207 (R131, R133). -/
def Window.init (P : Params) : Window :=
  ⟨Memory.writeBytes [] 0 P.initDict.toList, BitVec.ofNat 12 initDictSize⟩

/-! ### Output -/

/-- `Emit(b)` (R15, R61). -/
def emit (b : Byte) (s : State) : State :=
  { s with output := Memory.write s.output s.outLen b, outLen := s.outLen + 1 }

/-- Emit bytes in order. -/
def emitAll : List Byte → State → State
  | [], s => s
  | b :: bs, s => emitAll bs (emit b s)

/-- `OUT[0 .. OUT_LEN)`. -/
def outBytes (s : State) : List Byte := Memory.readBytes s.output 0 s.outLen

/-- `DictAppend` on the state. -/
def dictAppend (b : Byte) (s : State) : State := { s with win := s.win.append b }

/-! ### The start and the two ends of a command -/

/-- The first line of every command: `BUSY`, `ERR`, `END_SEEN` and `SHORT` cleared, `OUT_LEN` 0 (R38). -/
def startCommand (s : State) : State :=
  { s with status := ⟨.busy, none, false, false⟩, outLen := 0 }

/-- The last line of every command that succeeds: `STATUS.STATE <- DONE`. -/
def finish (s : State) : State :=
  { s with status := { s.status with state := .done }, activity := .idle }

/-- `raise E` (R227): `ERR` and `STATE` are written and the command ends; nothing else changes. There is no handler,
no saved program counter and no return from it (R227, R229): the host's next command is the only continuation. -/
def raise (e : Exc) (s : State) : State :=
  { s with status := { s.status with state := .error, err := some e }, activity := .idle }

/-- The end of a command part that may have raised: done if the command is still running. -/
def settle (s : State) : State := if s.status.state = .busy then finish s else s

/-- `DictInit` on the state. -/
def dictInit (P : Params) (s : State) : State := { s with win := Window.init P }

end Sys2Proof.Machine
end

