-- ==== Sys2Proof/Machine/Operands.lean ====
section
/-!
DEFINITION. Where operands come from: the input buffer, the header fields, the payload, and the next
element of the token stream (spec/20_memory.md R60 to R69, spec/43_decompressor.md R164,
spec/44_compressor.md R198).
-/

namespace Sys2Proof.Machine

/-- `IN[i]`. -/
def inByte (s : State) (i : Nat) : Byte := Memory.read s.input i

/-- `le32(IN, a)` (R14). -/
def inLe32 (s : State) (a : Nat) : U32 :=
  le32 (inByte s a) (inByte s (a + 1)) (inByte s (a + 2)) (inByte s (a + 3))

/-- `IN[0 .. IN_LEN)`, the whole input. -/
def inBytes (s : State) : List Byte := Memory.readBytes s.input 0 s.inLen.toNat

/-- `PLEN_D` = `PEND − 16` (R26). -/
def plen (s : State) : Nat := s.dec.pend.toNat - headerSize

/-- The payload `IN[16 .. PEND)` (R152). -/
def payloadBytes (s : State) : List Byte := Memory.readBytes s.input headerSize (plen s)

/-- `PEND` ≤ `IN_LEN`, so that no read below `PEND` is at or beyond `IN_LEN` (R25, R60). -/
def payloadInRange (s : State) : Bool := decide (s.dec.pend.toNat ≤ s.inLen.toNat)

/-- What stands at `IP`: a control byte when the group is finished, else the token bit `BITC` of `CTRL` announces (R103, R154). -/
def streamSlot (s : State) : Slot :=
  if s.dec.bitc = 8 then .control
  else if s.dec.ctrl.getLsbD s.dec.bitc.toNat then .reference
  else .literal

/-- The payload bytes at `IP`, at most the two an element can have. -/
def streamBytes (s : State) : List Byte :=
  Memory.readBytes s.input s.dec.ip.toNat (min 2 (s.dec.pend.toNat - s.dec.ip.toNat))

/-- The next element of the stream; none when its bytes are not all below `PEND`, the three cases of R159. -/
def nextElement (s : State) : Option Element :=
  (decodeStream (streamSlot s) s.win.wo (streamBytes s)).map Prod.fst

end Sys2Proof.Machine
end

