-- ==== Sys2Proof/Machine/Checksum.lean ====
section
/-!
DEFINITION. The checksum guard: `CKSUM`, `CKCHK`, `CKGEN` (spec/40_checksum_guard.md).
-/

namespace Sys2Proof.Machine

/-- The test of `CKCHK` (R121): whether the checksum of the whole payload differs from `crc`. -/
def ckMismatch (P : Params) (crc : U32) (s : State) : Bool := P.cksum (payloadBytes s) != crc

/-- `CKGEN` (R122): `CRC <- CKSUM(PAYLOAD)`. -/
def ckgen (P : Params) (s : State) : State :=
  { s with hdr := { s.hdr with crc := P.cksum s.enc.payload } }

/-- `CKSUM` (R120). It writes no register of the spec; its answer stands in `sumOut` (notes/assumptions/7.md). -/
def execCksum (bytes : List Byte) (s : State) : Host.Outcome State Fault Refusal :=
  .next { s with sumOut := Config.params.cksum bytes }

/-- `CKCHK` (R121): a mismatch raises `CorruptDataError`; success writes nothing. -/
def execCkchk (s : State) : Host.Outcome State Fault Refusal :=
  if payloadInRange s then
    .next (if ckMismatch Config.params s.hdr.crc s then raise .corruptData s else s)
  else .fault .inputOutOfRange

/-- `CKGEN` (R122). -/
def execCkgen (s : State) : Host.Outcome State Fault Refusal := .next (ckgen Config.params s)

end Sys2Proof.Machine
end

