-- ==== Sys2Proof/Machine/HeaderCodec.lean ====
section
/-!
DEFINITION. The header codec: `HPARSE`, `HBUILD` (spec/42_header_codec.md).
-/

namespace Sys2Proof.Machine

/-- `HPARSE` (R140): fewer than 16 bytes raise `TruncatedInputError` and write no header register; else the four
registers are loaded and `IP` is 16. Nothing but the length is checked. -/
def hparse (s : State) : State :=
  if s.inLen.toNat < headerSize then raise .truncatedInput { s with hdrDefined := false }
  else
    { s with
      hdr := ⟨inLe32 s 0, inLe32 s 4, inLe32 s 8, inLe32 s 12⟩
      hdrDefined := true
      dec := { s.dec with ip := BitVec.ofNat 32 headerSize } }

/-- `len(PAYLOAD) + 12` fits the 32 bits of `COMP_SIZE`, as it does in both commands (R12, R142). -/
def compSizeFits (s : State) : Bool := decide (s.enc.payload.length + hdrTail < 2 ^ 32)

/-- `COMP_SIZE <- len(PAYLOAD) + 12` (R142). Where the sum does not fit the register "the source does not say what then" (U2): the
value is free (DESIGN CHOICE, notes/assumptions/24.md). -/
def builtCompSize (s : State) : U32 :=
  if compSizeFits s then BitVec.ofNat 32 (s.enc.payload.length + hdrTail) else Config.freeValue s.freeIndex

/-- `HBUILD` (R142) with the tag `t`: the header registers, then the 16 header bytes and the payload, in that order (R143). A free
`COMP_SIZE` uses up one free value. -/
def hbuild (t : U32) (s : State) : State :=
  let h : Header := ⟨builtCompSize s, s.inLen, t, s.hdr.crc⟩
  emitAll (encodeHeader h.compSize h.rawSize h.compType h.crc ++ s.enc.payload)
    { s with
      hdr := h
      hdrDefined := true
      freeIndex := if compSizeFits s then s.freeIndex else s.freeIndex + 1 }

/-- `HPARSE` (R140). -/
def execHparse (s : State) : Host.Outcome State Fault Refusal := .next (hparse s)

/-- `HBUILD` (R142). A tag other than the two the rule names as its operand runs the same pseudocode (DESIGN CHOICE,
notes/assumptions/13.md). -/
def execHbuild (t : U32) (s : State) : Host.Outcome State Fault Refusal := .next (hbuild t s)

end Sys2Proof.Machine
end

