-- ==== Sys2Proof/Machine/Compressor.lean ====
section
/-!
DEFINITION. The compressor: `COMPRESS`, `COMPRESS.S`, `MATCH`, `EMITREF`, `EMITLIT`, `FLUSH`, `EMITEND`
(spec/44_compressor.md). The readings of the search are the spec's, D13 to D18 (R185).
-/

namespace Sys2Proof.Machine

/-! ### The matcher -/

/-- The variables of a search in progress (R186): the window it appends to, `DI`, `M`, `L`, `MOFF`. -/
structure Scan where
  win : Window
  di : Nat
  m : Nat
  l : Nat
  moff : Nat
deriving DecidableEq, Repr

/-- One comparison of `MATCH` (R186) with the input from `CUR` on: `inp k` is `IN[CUR + k]`. A byte is appended only when
it makes the candidate longer than every match so far (D14); a mismatch resets `M` and the scan goes on (D15). -/
def scanStep (inp : Nat → Byte) (sc : Scan) : Scan :=
  if sc.win.read sc.di = inp sc.m then
    if sc.m + 1 > sc.l then
      { win := sc.win.append (inp sc.m), di := sc.di + 1, m := sc.m + 1, l := sc.m + 1,
        moff := sc.di + 1 - (sc.m + 1) }
    else { sc with m := sc.m + 1, di := sc.di + 1 }
  else { sc with m := 0, di := sc.di + 1 }

/-- The scan: while `DI < W0 + L` and `L < cap` (R186, D13, D16, D17), at most `n` comparisons. -/
def scan (inp : Nat → Byte) (w0 cap : Nat) : Nat → Scan → Scan
  | 0, sc => sc
  | n + 1, sc => if sc.di < w0 + sc.l ∧ sc.l < cap then scan inp w0 cap n (scanStep inp sc) else sc

/-- The length a match may have: `min(17, IN_LEN − CUR)` (R186). -/
def matchCap (s : State) : Nat := min maxMatch (s.inLen.toNat - s.enc.cur.toNat)

/-- The input a search compares with: `IN[CUR + k]`. -/
def matchInput (s : State) (k : Nat) : Byte := inByte s (s.enc.cur.toNat + k)

/-- The end of the search from the window as it stands; one search makes at most 4096 + 17 comparisons (R264). -/
def searchResult (s : State) : Scan :=
  scan (matchInput s) s.win.wo.toNat (matchCap s) (maxDictSize + maxMatch) ⟨s.win, 0, 0, 0, 0⟩

/-- `MATCH` (R186). -/
def doMatch (s : State) : State :=
  let r := searchResult s
  { s with
    win := r.win
    enc := { s.enc with
      w0 := s.win.wo
      di := BitVec.ofNat 13 r.di
      m := BitVec.ofNat 5 r.m
      l := BitVec.ofNat 5 r.l
      moff := BitVec.ofNat 13 r.moff } }

/-! ### Emitting tokens -/

/-- A token joins the group: its bytes, its control bit at bit `EBIT`, one more token (R188, R189, R192). -/
def pushToken (bytes : List Byte) (bit : Bool) (e : EncRegs) : EncRegs :=
  { e with
    tokbuf := e.tokbuf ++ bytes
    toklen := e.toklen + BitVec.ofNat 5 bytes.length
    ectrl := if bit then e.ectrl ||| (1#8 <<< e.ebit.toNat) else e.ectrl
    ebit := e.ebit + 1 }

/-- The rest of `EMITREF` once `TOK` is known (R188): the token buffered most significant byte first, `CUR` past the match. -/
def pushReference (tok : Token) (s : State) : State :=
  let e := pushToken (bytesBe16 tok) true s.enc
  { s with enc := { e with cur := e.cur + s.enc.l.setWidth 32 } }

/-- `EMITREF` (R188) for `L` of 2 to 17: `TOK = ((MOFF mod 4096) << 4) | (L − 2)`. -/
def emitRef (s : State) : State :=
  pushReference (mkToken (s.enc.moff.setWidth 12) ((s.enc.l - 2).setWidth 4)) s

/-- `EMITREF` for any other `L`, for which the spec does not state `L − 2`: that value is free, and `TOK` is computed from it
(DESIGN CHOICE, notes/assumptions/12.md). -/
def emitRefFree (s : State) : State :=
  { pushReference (mkToken (s.enc.moff.setWidth 12) 0 ||| (Config.freeValue s.freeIndex).setWidth 16) s with
    freeIndex := s.freeIndex + 1 }

/-- `EMITLIT` (R189): the byte enters the dictionary here only when `MATCH` has not already appended it (C3). -/
def emitLit (s : State) : State :=
  let b := inByte s s.enc.cur.toNat
  let t := if s.enc.l = 0 then dictAppend b s else s
  let e := pushToken [b] false t.enc
  { t with enc := { e with cur := e.cur + 1 } }

/-- `FLUSH` (R190). -/
def flush (s : State) : State :=
  { s with enc := { s.enc with
      payload := s.enc.payload ++ s.enc.ectrl :: s.enc.tokbuf
      ectrl := 0
      ebit := 0
      tokbuf := []
      toklen := 0 } }

/-- `EMITEND` (R192): `TOK = WO << 4`; the length code 0 is D11. -/
def emitEnd (s : State) : State :=
  { s with enc := pushToken (bytesBe16 (mkToken s.win.wo 0)) true s.enc }

/-! ### The loop of R180 -/

/-- `DictInit()` and the initial state of compressed mode (R182). -/
def openEncoder (P : Params) (s : State) : State :=
  let t := dictInit P s
  { t with enc := { t.enc with cur := 0, ectrl := 0, ebit := 0, tokbuf := [], toklen := 0, payload := [] } }

/-- One token: search, emit, and flush a full group (R180). -/
def encodeToken (s : State) : State :=
  let t := doMatch s
  let u := if minMatch ≤ t.enc.l.toNat then emitRef t else emitLit t
  if u.enc.ebit = 8 then flush u else u

/-- The token loop, at most `n` tokens, then the end marker and the last flush. Every token advances `CUR` (R196), so
`IN_LEN − CUR` tokens are enough. -/
def encodeLoop : Nat → State → State
  | 0, s => flush (emitEnd s)
  | n + 1, s => if s.inLen.toNat ≤ s.enc.cur.toNat then flush (emitEnd s) else encodeLoop n (encodeToken s)

/-- `COMPRESS` (R180), the whole command, for `IN_LEN` ≤ `MAX_IN`. -/
def compress (P : Params) (s : State) : State :=
  let t := openEncoder P (startCommand s)
  finish (hbuild tagLzfu (ckgen P (encodeLoop t.inLen.toNat t)))

/-- `COMPRESS.S` (R181), the whole command, for `IN_LEN` ≤ `MAX_IN`. -/
def compressStored (P : Params) (s : State) : State :=
  let t := startCommand s
  finish (hbuild tagMela (ckgen P { t with enc := { t.enc with payload := inBytes t } }))

/-! ### Meanings -/

/-- `IN[CUR]` is there: the operand condition of `MATCH` (R186), and what `EMITLIT` reads (R60, R189). -/
def curInRange (s : State) : Bool := decide (s.enc.cur.toNat < s.inLen.toNat)

/-- The group has room for one more token (R29, R191). -/
def groupHasRoom (s : State) : Bool := decide (s.enc.ebit.toNat < groupSize)

/-- `COMPRESS` (R180); a longer input than `MAX_IN` is refused (U2). -/
def execCompress (s : State) : Host.Outcome State Fault Refusal :=
  if s.inLen.toNat ≤ maxIn then .next (compress Config.params s) else .refused .inputTooLong

/-- `COMPRESS.S` (R181); a longer input than `MAX_IN` is refused (U2). -/
def execCompressS (s : State) : Host.Outcome State Fault Refusal :=
  if s.inLen.toNat ≤ maxIn then .next (compressStored Config.params s) else .refused .inputTooLong

/-- `MATCH` (R186). -/
def execMatch (s : State) : Host.Outcome State Fault Refusal :=
  if curInRange s then .next (doMatch s) else .fault .inputOutOfRange

/-- `EMITREF` (R188). -/
def execEmitref (s : State) : Host.Outcome State Fault Refusal :=
  if ¬ groupHasRoom s then .fault .groupFull
  else if minMatch ≤ s.enc.l.toNat ∧ s.enc.l.toNat ≤ maxMatch then .next (emitRef s)
  else .next (emitRefFree s)

/-- `EMITLIT` (R189). -/
def execEmitlit (s : State) : Host.Outcome State Fault Refusal :=
  if ¬ groupHasRoom s then .fault .groupFull
  else if curInRange s then .next (emitLit s)
  else .fault .inputOutOfRange

/-- `FLUSH` (R190). -/
def execFlush (s : State) : Host.Outcome State Fault Refusal := .next (flush s)

/-- `EMITEND` (R192). -/
def execEmitend (s : State) : Host.Outcome State Fault Refusal :=
  if groupHasRoom s then .next (emitEnd s) else .fault .groupFull

end Sys2Proof.Machine
end

