-- ==== Sys2Proof/Machine/Flags.lean ====
section
/-!
DEFINITION. `STATUS` as the host reads it and the two flags rules compute (spec/10_state.md R34, R36).
The engine has no arithmetic flag.
-/

namespace Sys2Proof.Machine

/-- The number of a `STATE` (R34, D3). -/
def EngineState.code : EngineState → BitVec 2
  | .idle => 0
  | .busy => 1
  | .done => 2
  | .error => 3

/-- The number of an error (R34, R220, D3). -/
def Exc.code : Exc → BitVec 2
  | .truncatedInput => 1
  | .unsupportedFormat => 2
  | .corruptData => 3

/-- `STATUS.ERR` (R34). -/
def Status.errCode (st : Status) : BitVec 2 :=
  match st.err with
  | none => 0
  | some e => e.code

/-- `STATUS` as an 8-bit word: bits 7:6 read as 0, then `SHORT`, `END_SEEN`, `ERR`, `STATE` (R34). -/
def Status.word (st : Status) : Byte :=
  0#2 ++ BitVec.ofBool st.short ++ BitVec.ofBool st.endSeen ++ st.errCode ++ st.state.code

/-- `if fewer then STATUS.SHORT <- 1` (R152, R153); the flag is never cleared by it. -/
def noteShort (fewer : Bool) (s : State) : State :=
  { s with status := { s.status with short := s.status.short || fewer } }

/-- `STATUS.END_SEEN <- 1` (R158). -/
def noteEnd (s : State) : State :=
  { s with status := { s.status with endSeen := true } }

end Sys2Proof.Machine
end

