-- ==== Sys2Proof/Machine/Decompressor.lean ====
section
/-!
DEFINITION. The decompressor: `DECOMPRESS`, `HDR.LZFU`, `HDR.MELA`, `CTL`, `LIT`, `REF`, `END`
(spec/43_decompressor.md).
-/

namespace Sys2Proof.Machine

/-! ### The elements of the token stream -/

/-- `CTL` (R155): `CTRL <- b; IP <- IP + 1; BITC <- 0`. -/
def ctl (b : Byte) (s : State) : State :=
  { s with dec := { s.dec with ctrl := b, ip := s.dec.ip + 1, bitc := 0 } }

/-- `LIT` (R156): `IP <- IP + 1; Emit(b); DictAppend(b)`. -/
def lit (b : Byte) (s : State) : State :=
  dictAppend b (emit b { s with dec := { s.dec with ip := s.dec.ip + 1 } })

/-- One byte of a back-reference: read at `(OFF + STEP) mod 4096`, emit, append (R157). `STEP` counts the bytes copied (R28). -/
def copyByte (off : Pos) (s : State) : State :=
  let b := s.win.read (off.toNat + s.dec.step.toNat)
  let t := dictAppend b (emit b s)
  { t with dec := { t.dec with step := t.dec.step + 1 } }

/-- `n` bytes of a back-reference, one after the other, each read seeing the appends before it (R75, R258). -/
def copyBytes (off : Pos) : Nat → State → State
  | 0, s => s
  | n + 1, s => copyBytes off n (copyByte off s)

/-- `REF` (R157): `LC + 2` bytes copied from `OFF` on. -/
def ref (off : Pos) (lc : LenCode) (s : State) : State :=
  copyBytes off (lc.toNat + minMatch) { s with dec := { s.dec with step := 0 } }

/-- `TOK <- be16(IN, IP); IP <- IP + 2; OFF, LC` of the loop of R154, before a `REF` or an `END`. -/
def latchToken (off : Pos) (lc : LenCode) (s : State) : State :=
  { s with dec := { s.dec with tok := mkToken off lc, ip := s.dec.ip + 2, off := off, lc := lc } }

/-- `BITC <- BITC + 1` of the loop of R154, after a token. -/
def nextBit (s : State) : State := { s with dec := { s.dec with bitc := s.dec.bitc + 1 } }

/-! ### The loop of R154 -/

/-- What one element of the stream leaves: the stream goes on, or it has ended successfully. -/
inductive Pass where
  | more (s : State)
  | stop (s : State)
deriving DecidableEq, Repr

/-- One element (R154): fetched at `IP` and executed; `END` and exhaustion stop the stream (R158, R159). -/
def streamPass (s : State) : Pass :=
  match nextElement s with
  | none => .stop s
  | some (.ctl b) => .more (ctl b s)
  | some (.lit b) => .more (nextBit (lit b s))
  | some (.ref off lc) => .more (nextBit (ref off lc (latchToken off lc s)))
  | some (.endMark off lc) => .stop (noteEnd (latchToken off lc s))

/-- The token loop, at most `n` elements. Every element advances `IP` (R162), so `PEND − IP + 1` are enough. -/
def runStream : Nat → State → State
  | 0, s => s
  | n + 1, s =>
    match streamPass s with
    | .more t => runStream n t
    | .stop t => t

/-- `DictInit(); IP <- 16; BITC <- 8` (R154). -/
def openStream (P : Params) (s : State) : State :=
  let t := dictInit P s
  { t with dec := { t.dec with ip := BitVec.ofNat 32 headerSize, bitc := 8 } }

/-! ### The two headers -/

/-- `HDR.LZFU` (R154): `CKCHK`, then the token stream to its end. -/
def hdrLzfu (P : Params) (crc : U32) (s : State) : State :=
  if ckMismatch P crc s then raise .corruptData s else runStream (plen s + 1) (openStream P s)

/-- `HDR.MELA` (R153): the first `RAW_SIZE` bytes of the payload, or all of it and `SHORT` when it has fewer. -/
def hdrMela (rawSize : U32) (s : State) : State :=
  emitAll (Memory.readBytes s.input headerSize (min rawSize.toNat (plen s)))
    (noteShort (decide (plen s < rawSize.toNat)) s)

/-! ### The command -/

/-- Step 2 of `DECOMPRESS` (R152), for `COMP_SIZE` ≥ 12: `PEND`, and `SHORT` when `IN` is shorter than promised. -/
def setExtent (s : State) : State :=
  let want := s.hdr.compSize.toNat - hdrTail
  let have_ := s.inLen.toNat - headerSize
  noteShort (decide (have_ < want))
    { s with dec := { s.dec with pend := BitVec.ofNat 32 (headerSize + min want have_) } }

/-- `DECOMPRESS` after its first line (R150): parse, test the tag (R151), test and take the extent (R152), perform the
header, `DONE` if nothing raised. The tests are in the order of R226. -/
def runHeader (P : Params) (s : State) : State :=
  let s1 := hparse s
  if s.inLen.toNat < headerSize then s1
  else
    match decodeTag s1.hdr.compType with
    | none => raise .unsupportedFormat s1
    | some tag =>
      if s1.hdr.compSize.toNat < hdrTail then raise .truncatedInput s1
      else
        let s2 := setExtent s1
        match tag with
        | .mela => settle (hdrMela s2.hdr.rawSize s2)
        | .lzfu => settle (hdrLzfu P s2.hdr.crc s2)

/-- `DECOMPRESS` (R150). -/
def decompress (P : Params) (s : State) : State := runHeader P (startCommand s)

/-- A step inside the token stream: one element, and `DONE` when the stream has ended. -/
def stepStream (s : State) : Host.Outcome State Fault Refusal :=
  if payloadInRange s then
    match streamPass s with
    | .more t => .next t
    | .stop t => .next (finish t)
  else .fault .inputOutOfRange

/-! ### Meanings -/

/-- `HDR.LZFU` (R154). `comp_size` is used by step 2 alone and `raw_size` is not read on this path (D25). -/
def execHdrLzfu (crc : U32) (s : State) : Host.Outcome State Fault Refusal :=
  if payloadInRange s then .next (hdrLzfu Config.params crc s) else .fault .inputOutOfRange

/-- `HDR.MELA` (R153). `crc` is not read on this path (R125). -/
def execHdrMela (rawSize : U32) (s : State) : Host.Outcome State Fault Refusal :=
  if payloadInRange s then .next (hdrMela rawSize s) else .fault .inputOutOfRange

/-- `CTL` (R155). -/
def execCtl (b : Byte) (s : State) : Host.Outcome State Fault Refusal := .next (ctl b s)

/-- `LIT` (R156). -/
def execLit (b : Byte) (s : State) : Host.Outcome State Fault Refusal := .next (lit b s)

/-- `REF` (R157). -/
def execRef (off : Pos) (lc : LenCode) (s : State) : Host.Outcome State Fault Refusal := .next (ref off lc s)

/-- `END` (R158): `END_SEEN <- 1`. Its `stop` is the loop's and the step's (`streamPass`, `stepStream`). -/
def execEnd (s : State) : Host.Outcome State Fault Refusal := .next (noteEnd s)

/-- `DECOMPRESS` (R150), the whole command. -/
def execDecompress (s : State) : Host.Outcome State Fault Refusal := .next (decompress Config.params s)

end Sys2Proof.Machine
end

