-- ==== Sys2Proof/Machine/Dictionary.lean ====
section
/-!
DEFINITION. The dictionary window executed by itself: `DINIT`, `DREAD`, `DAPPEND`
(spec/41_dictionary_window.md).
-/

namespace Sys2Proof.Machine

/-- `DINIT` (R133). -/
def execDinit (s : State) : Host.Outcome State Fault Refusal := .next (dictInit Config.params s)

/-- `DREAD` (R134). It writes no register of the spec; its answer stands in `byteOut` (notes/assumptions/7.md). -/
def execDread (o : Nat) (s : State) : Host.Outcome State Fault Refusal :=
  .next { s with byteOut := s.win.read o }

/-- `DAPPEND` (R135). -/
def execDappend (b : Byte) (s : State) : Host.Outcome State Fault Refusal := .next (dictAppend b s)

end Sys2Proof.Machine
end

