-- ==== Sys2Proof/Machine/Dispatch.lean ====
section
/-! DEFINITION. One arm per instruction: the meaning of each. -/

namespace Sys2Proof.Machine

def exec (i : Instr) (s : State) : Host.Outcome State Fault Refusal :=
  match i with
  | .hdrLzfu _ _ crc => Sys2Proof.Machine.execHdrLzfu crc s
  | .hdrMela _ rawSize _ => Sys2Proof.Machine.execHdrMela rawSize s
  | .ctl b => Sys2Proof.Machine.execCtl b s
  | .lit b => Sys2Proof.Machine.execLit b s
  | .ref off lc => Sys2Proof.Machine.execRef off lc s
  | .endMark _ _ => Sys2Proof.Machine.execEnd s
  | .decompress _ => Sys2Proof.Machine.execDecompress s
  | .compress => Sys2Proof.Machine.execCompress s
  | .compressS => Sys2Proof.Machine.execCompressS s
  | .cksum bytes => Sys2Proof.Machine.execCksum bytes s
  | .ckchk => Sys2Proof.Machine.execCkchk s
  | .ckgen => Sys2Proof.Machine.execCkgen s
  | .dinit => Sys2Proof.Machine.execDinit s
  | .dread o => Sys2Proof.Machine.execDread o s
  | .dappend b => Sys2Proof.Machine.execDappend b s
  | .hparse => Sys2Proof.Machine.execHparse s
  | .hbuild t => Sys2Proof.Machine.execHbuild t s
  | .matchOp => Sys2Proof.Machine.execMatch s
  | .emitref => Sys2Proof.Machine.execEmitref s
  | .emitlit => Sys2Proof.Machine.execEmitlit s
  | .flush => Sys2Proof.Machine.execFlush s
  | .emitend => Sys2Proof.Machine.execEmitend s

end Sys2Proof.Machine
end

