-- ==== Sys2Proof/Machine/Fetch.lean ====
section
/-!
DEFINITION. Where `step` finds its next instruction, and how one is placed there: a host command in `CMD`, a
container header at `IN[0 .. 16)`, a token at `IP` (notes/assumptions/18.md).
-/

namespace Sys2Proof.Machine

/-- A command byte as the host's write of `CMD`: the command has started, so `STATUS` shows `BUSY` from the write on (R34, R256),
and the next step runs it. -/
def placeCommand (v : Byte) (s : State) : State :=
  { startCommand s with cmd := v, activity := .command }

/-- Sixteen header bytes as the whole of `IN`, a `DECOMPRESS` about to read them. -/
def placeHeader (w : Nat) (s : State) : State :=
  let t := startCommand s
  { t with input := Memory.writeBytes t.input 0 (tableBytes 128 w), inLen := 16, activity := .header }

/-- A back-reference token as the whole payload from `IP` = 16 on, announced by control bit 0, with `WO` as `DictInit`
leaves it (the value `decodeTableWord` reads it with). -/
def placeToken (w : Nat) (s : State) : State :=
  let t := startCommand s
  { t with
    input := Memory.writeBytes t.input headerSize (tableBytes 16 w)
    inLen := 18
    win := { t.win with wo := BitVec.ofNat 12 initDictSize }
    dec := { t.dec with ip := 16, pend := 18, ctrl := 1, bitc := 0 }
    activity := .stream }

/-- A word of the opcode table placed for the next step; a width no element has places nothing. -/
def placeWord (nbits w : Nat) (s : State) : State :=
  match tableSlot nbits with
  | some .command => placeCommand (BitVec.ofNat 8 w) s
  | some .header => placeHeader w s
  | some .reference => placeToken w s
  | some .control => s
  | some .literal => s
  | none => s

end Sys2Proof.Machine
end

