-- ==== Sys2Proof/Machine/Step.lean ====
section
/-!
DEFINITION. One step. A waiting command is decoded from `CMD` and run whole; a `DECOMPRESS` found at its header or
inside its token stream goes on from there, a token a step (R165, D32; notes/assumptions/1.md); an idle engine changes
nothing (R257).
-/

namespace Sys2Proof.Machine

def step (s : State) : Host.Outcome State Fault Refusal :=
  match s.activity with
  | .idle => .next s
  | .command =>
    match decodeCmd s.cmd with
    | .ok i => exec i { s with activity := .idle }
    | .error _ => .refused .reservedCommand
  | .header => .next (runHeader Config.params s)
  | .stream => stepStream s

/-- `s` with a word of the opcode table where `step` takes its next instruction from. -/
def State.withFetchWord (s : State) (nbits w : Nat) : State := placeWord nbits w s

end Sys2Proof.Machine
end

