-- ==== Sys2Proof/Machine/HostPort.lean ====
section
/-!
DEFINITION. What the host may do (spec/10_state.md R32 to R35 and R40, spec/70_reset_and_hazards.md R254 to
R256). Moves the spec gives no meaning are refused (U1, U4 to U6; notes/assumptions/17.md). `DICT`, `WO` and
the working registers have no move (D33). The step function is the engine's; these are its other party's.
-/

namespace Sys2Proof.Machine

/-- No command runs or waits, so the host may act (R20, R256). -/
def hostTurn (s : State) : Bool := s.activity == .idle && s.status.state != .busy

/-- A move the host makes between commands alone (R256): during one it is refused (U4). -/
def hostMove (r : Host.Outcome State Fault Refusal) (s : State) : Host.Outcome State Fault Refusal :=
  if hostTurn s then r else .refused .hostDuringCommand

/-- The host writes one byte of `IN` (R37). -/
def hostWriteIn (a : Nat) (b : Byte) (s : State) : Host.Outcome State Fault Refusal :=
  hostMove (.next { s with input := Memory.write s.input a b }) s

/-- The host writes `IN_LEN` (R33). -/
def hostWriteInLen (n : U32) (s : State) : Host.Outcome State Fault Refusal :=
  hostMove (.next { s with inLen := n }) s

/-- The host places a byte sequence in `IN` and its length in `IN_LEN`: steps 1 and 2 of R254 together. "an input has at most
2^32 − 1 bytes" (R12); a longer sequence is refused (DESIGN CHOICE, notes/assumptions/17.md). -/
def hostLoad (bytes : List Byte) (s : State) : Host.Outcome State Fault Refusal :=
  hostMove
    (if bytes.length < 2 ^ 32 then
      .next { s with input := Memory.writeBytes s.input 0 bytes, inLen := BitVec.ofNat 32 bytes.length }
    else .refused .inputTooLong) s

/-- The host writes `CMD` (R32): the command starts, `STATUS` is `BUSY` from here on (R34, R256), and the engine's next step runs it.
With a reserved bit set the write is refused and changes no state (U1). -/
def hostWriteCmd (v : Byte) (s : State) : Host.Outcome State Fault Refusal :=
  hostMove
    (match decodeCmd v with
    | .ok _ => .next (placeCommand v s)
    | .error _ => .refused .reservedCommand) s

/-- The host reads `STATUS`, at any time (R256). -/
def hostReadStatus (s : State) : Byte := s.status.word

/-- The host reads something else: not during a command (U4), not before one has completed since power-on and not what holds nothing
(U5, U6: "Never a value"). -/
def hostRead {α : Type} (holds : Bool) (v : α) (s : State) : Except Refusal α :=
  if hostTurn s = false then .error .hostDuringCommand
  else if s.status.state = .idle ∨ holds = false then .error .readUndefined
  else .ok v

/-- The host reads `OUT_LEN` (R35). -/
def hostReadOutLen (s : State) : Except Refusal Nat := hostRead true s.outLen s

/-- The host reads a byte of `OUT` below `OUT_LEN` (R40, U5). -/
def hostReadOut (i : Nat) (s : State) : Except Refusal Byte :=
  hostRead (decide (i < s.outLen)) (Memory.read s.output i) s

/-- The host reads the header registers: absent before any command has written them and after `HPARSE` itself raised (U5, U6). -/
def hostReadHeader (s : State) : Except Refusal Header := hostRead s.hdrDefined s.hdr s

end Sys2Proof.Machine
end

