-- ==== Sys2Proof/Machine/Reference.lean ====
section
/-!
DEFINITION. The reference values of the two open parameters: `INIT_DICT_REF` (spec/41_dictionary_window.md R132)
and `CKSUM_REF` (spec/40_checksum_guard.md R123). PRESUMED: the spec marks both as general knowledge
(notes/assumptions/22.md). `exec` and `step` use neither; test vectors run the same operations under them.
-/

namespace Sys2Proof.Machine

/-- Positions 0 to 111 of `INIT_DICT_REF`. -/
def initDictRefLow : List Byte :=
  [0x7B, 0x5C, 0x72, 0x74, 0x66, 0x31, 0x5C, 0x61, 0x6E, 0x73, 0x69, 0x5C, 0x6D, 0x61, 0x63, 0x5C] ++
  [0x64, 0x65, 0x66, 0x66, 0x30, 0x5C, 0x64, 0x65, 0x66, 0x74, 0x61, 0x62, 0x37, 0x32, 0x30, 0x7B] ++
  [0x5C, 0x66, 0x6F, 0x6E, 0x74, 0x74, 0x62, 0x6C, 0x3B, 0x7D, 0x7B, 0x5C, 0x66, 0x30, 0x5C, 0x66] ++
  [0x6E, 0x69, 0x6C, 0x20, 0x5C, 0x66, 0x72, 0x6F, 0x6D, 0x61, 0x6E, 0x20, 0x5C, 0x66, 0x73, 0x77] ++
  [0x69, 0x73, 0x73, 0x20, 0x5C, 0x66, 0x6D, 0x6F, 0x64, 0x65, 0x72, 0x6E, 0x20, 0x5C, 0x66, 0x73] ++
  [0x63, 0x72, 0x69, 0x70, 0x74, 0x20, 0x5C, 0x66, 0x64, 0x65, 0x63, 0x6F, 0x72, 0x20, 0x4D, 0x53] ++
  [0x20, 0x53, 0x61, 0x6E, 0x73, 0x20, 0x53, 0x65, 0x72, 0x69, 0x66, 0x53, 0x79, 0x6D, 0x62, 0x6F]

/-- Positions 112 to 206 of `INIT_DICT_REF`. -/
def initDictRefHigh : List Byte :=
  [0x6C, 0x41, 0x72, 0x69, 0x61, 0x6C, 0x54, 0x69, 0x6D, 0x65, 0x73, 0x20, 0x4E, 0x65, 0x77, 0x20] ++
  [0x52, 0x6F, 0x6D, 0x61, 0x6E, 0x43, 0x6F, 0x75, 0x72, 0x69, 0x65, 0x72, 0x7B, 0x5C, 0x63, 0x6F] ++
  [0x6C, 0x6F, 0x72, 0x74, 0x62, 0x6C, 0x5C, 0x72, 0x65, 0x64, 0x30, 0x5C, 0x67, 0x72, 0x65, 0x65] ++
  [0x6E, 0x30, 0x5C, 0x62, 0x6C, 0x75, 0x65, 0x30, 0x0D, 0x0A, 0x5C, 0x70, 0x61, 0x72, 0x20, 0x5C] ++
  [0x70, 0x61, 0x72, 0x64, 0x5C, 0x70, 0x6C, 0x61, 0x69, 0x6E, 0x5C, 0x66, 0x30, 0x5C, 0x66, 0x73] ++
  [0x32, 0x30, 0x5C, 0x62, 0x5C, 0x69, 0x5C, 0x75, 0x5C, 0x74, 0x61, 0x62, 0x5C, 0x74, 0x78]

/-- `INIT_DICT_REF` (R132). -/
def initDictRef : Vector Byte 207 := ⟨(initDictRefLow ++ initDictRefHigh).toArray, by decide +kernel⟩

/-- One bit of the table computation of R123. -/
def crcShift (c : U32) : U32 := if c.getLsbD 0 then (c >>> 1) ^^^ 0xEDB88320 else c >>> 1

/-- The table entry `T[i]` of R123, for `i` of 0 to 255. -/
def crcTable (i : Byte) : U32 :=
  crcShift (crcShift (crcShift (crcShift (crcShift (crcShift (crcShift (crcShift (i.setWidth 32))))))))

/-- One byte of `CKSUM_REF` (R123). -/
def crcByte (crc : U32) (b : Byte) : U32 := crcTable (crc.setWidth 8 ^^^ b) ^^^ (crc >>> 8)

/-- `CKSUM_REF` (R123): initial value 0, no final complement. -/
def cksumRef (bytes : List Byte) : U32 := bytes.foldl crcByte 0

/-- The reference values together. -/
def refParams : Params := ⟨initDictRef, cksumRef⟩

end Sys2Proof.Machine
end

