-- ==== Sys2Proof/Safety.lean ====
section
/-!
DEFINITION. What counts as a good state and a good run, in the terms the statements use.
-/

namespace Sys2Proof.Machine

/-- The state invariant: memories in canonical form, `DICT` within its 4096 positions (R6), `STATUS` consistent (R34, R35),
`CMD` with its reserved bits 0 (R32), the registers within their ranges (R25, R28, R29). -/
structure State.Inv (s : State) : Prop where
  inputWf : Memory.wf s.input = true
  outputWf : Memory.wf s.output = true
  dictWf : Memory.wf s.win.mem = true
  dictBounded : ∀ c ∈ s.win.mem, c.1 < maxDictSize
  errIffError : s.status.err ≠ none ↔ s.status.state = .error
  errorNoOutput : s.status.state = .error → s.outLen = 0 ∧ s.status.endSeen = false
  busyIffRunning : s.status.state = .busy ↔ s.activity ≠ .idle
  headerFresh : s.activity = .header → s.outLen = 0 ∧ s.status.endSeen = false
  streamRange : s.activity = .stream →
    s.dec.ip.toNat ≤ s.dec.pend.toNat ∧ s.dec.pend.toNat ≤ s.inLen.toNat
  cmdReserved : s.cmd.extractLsb' 2 6 = 0
  bitcRange : s.dec.bitc.toNat ≤ groupSize
  ebitRange : s.enc.ebit.toNat ≤ groupSize
  toklenIsLength : s.enc.toklen.toNat = s.enc.tokbuf.length
  tokbufFits : s.enc.tokbuf.length ≤ 2 * s.enc.ebit.toNat

/-- The container in `IN` as `DECOMPRESS` takes it: `comp_size` (R63). -/
def compSizeOf (s : State) : Nat := (inLe32 s 0).toNat

/-- The payload length of the container in `IN`: `min(comp_size − 12, IN_LEN − 16)` (R152). -/
def payloadLenOf (s : State) : Nat := min (compSizeOf s - 12) (s.inLen.toNat - 16)

/-- The payload of the container in `IN` (R152). -/
def payloadOf (s : State) : List Byte := Memory.readBytes s.input 16 (payloadLenOf s)

/-- One pass of the loop of `COMPRESS` (R180) by the instructions it performs: `MATCH`, then `EMITREF` or `EMITLIT` by the length
found, then `FLUSH` when the group is full. -/
def compressPass (s : State) : Host.Outcome State Fault Refusal :=
  match exec .matchOp s with
  | .next t =>
    match exec (if 2 ≤ t.enc.l.toNat then .emitref else .emitlit) t with
    | .next u => if u.enc.ebit = 8 then exec .flush u else .next u
    | .fault r => .fault r
    | .refused r => .refused r
  | .fault r => .fault r
  | .refused r => .refused r

/-- At most `n` passes, while `CUR` < `IN_LEN` (R180). -/
def compressPasses : Nat → State → Host.Outcome State Fault Refusal
  | 0, s => .next s
  | n + 1, s =>
    if s.inLen.toNat ≤ s.enc.cur.toNat then .next s
    else
      match compressPass s with
      | .next t => compressPasses n t
      | .fault r => .fault r
      | .refused r => .refused r

/-- The same command input: `IN_LEN` and `IN[0 .. IN_LEN)` (R252). -/
def SameInput (s s' : State) : Prop :=
  s'.inLen = s.inLen ∧ ∀ i < s.inLen.toNat, inByte s' i = inByte s i

/-- The same result as the host sees it: `STATUS`, `OUT[0 .. OUT_LEN)`, and the header registers where they are defined (R40, R257). -/
def SameResult (t t' : State) : Prop :=
  t'.status = t.status ∧ outBytes t' = outBytes t ∧ t'.hdrDefined = t.hdrDefined ∧
    (t.hdrDefined = true → t'.hdr = t.hdr)

/-- The named property `CKSUM_DETECTS_SINGLE_BIT` (R124). -/
def DetectsSingleBit (f : List Byte → U32) : Prop :=
  ∀ (p : List Byte) (i j : Nat) (h : i < p.length), j < 8 → f (p.set i (p[i] ^^^ (1#8 <<< j))) ≠ f p

end Sys2Proof.Machine
end

