-- ==== Sys2Proof/Certificates/Slice0/Obligations.lean ====
section
/-!
DEFINITION. The statements for the provers. `exec i s = .next t` says that instruction `i` completes in state `s`; a
clause `t = { s with f := t.f, … }` says that nothing but the fields named there has changed. Where a statement
rests on a choice of the model's own, its docstring names the entry of notes/assumptions/.
-/

open Sys2Proof Sys2Proof.Machine

/-! ### Encoding -/

/-- Words written out from R91 to R97: each decodes to the instruction it stands for. The bytes of the two tags in the headers
are the spec's general knowledge (R93; PRESUMED, notes/assumptions/6.md). -/
def Obligations.WrittenOutWordsDecode : Prop :=
  decodeCmd 0b00000000 = .ok (.decompress false) ∧ decodeCmd 0b00000010 = .ok (.decompress true) ∧
  decodeCmd 0b00000011 = .ok .compress ∧ decodeCmd 0b00000001 = .ok .compressS ∧
  decodeCmd 0b00000100 = .error .reservedCommandBits ∧
  decode .control 207 [0b00001110] = .ok (.ctl 0x0E, []) ∧
  decode .literal 207 [0x61] = .ok (.lit 0x61, []) ∧
  decode .reference 209 [0x0C, 0xFF] = .ok (.ref 207 15, []) ∧
  decode .reference 207 [0x0C, 0xFF] = .ok (.endMark 207 15, []) ∧
  decode .header 0 [0x2D, 0, 0, 0, 0x2B, 0, 0, 0, 0x4C, 0x5A, 0x46, 0x75, 0xF1, 0xC5, 0xC7, 0xA7] =
    .ok (.hdrLzfu 45 43 0xA7C7C5F1, []) ∧
  decode .header 0 [0x0E, 0, 0, 0, 0x02, 0, 0, 0, 0x4D, 0x45, 0x4C, 0x41, 0xF1, 0x1C, 0xCE, 0x0C] =
    .ok (.hdrMela 14 2 0x0CCE1CF1, [])

/-- Decoding an encoded well-formed instruction gives it back with every operand, and leaves what follows it. -/
def Obligations.DecodeOfEncodeIsIdentity : Prop :=
  ∀ (wo : Pos) (i : Instr) (slot : Slot) (rest : List Byte), slotOf i = some slot → i.wellFormed wo = true →
    decode slot wo (encode i ++ rest) = .ok (i, rest)

/-- The other direction: bytes the decoder takes are the encoding of the well-formed instruction it gives. -/
def Obligations.EncodeOfDecodeIsIdentity : Prop :=
  ∀ (wo : Pos) (slot : Slot) (bytes : List Byte) (i : Instr) (rest : List Byte),
    decode slot wo bytes = .ok (i, rest) →
      slotOf i = some slot ∧ i.wellFormed wo = true ∧ encode i ++ rest = bytes

/-- The command byte (R97): refused exactly when one of bits 7:2 is set; else bit 0 is `OP` and bit 1 `COMPRESSED`. -/
def Obligations.CommandByteFields : Prop :=
  ∀ b : Byte,
    (b &&& 0xFC ≠ 0 → decodeCmd b = .error .reservedCommandBits) ∧
    (b &&& 0xFC = 0 → b.getLsbD 0 = false → decodeCmd b = .ok (.decompress (b.getLsbD 1))) ∧
    (b &&& 0xFC = 0 → b.getLsbD 0 = true → b.getLsbD 1 = true → decodeCmd b = .ok .compress) ∧
    (b &&& 0xFC = 0 → b.getLsbD 0 = true → b.getLsbD 1 = false → decodeCmd b = .ok .compressS)

/-! ### The step -/

/-- A waiting command is decoded from `CMD` and run; a reserved one is refused (notes/assumptions/2.md, 11.md). -/
def Obligations.StepRunsTheCommand : Prop :=
  ∀ s : State, s.activity = .command →
    (∀ i, decodeCmd s.cmd = .ok i → step s = exec i { s with activity := .idle }) ∧
    (s.cmd &&& 0xFC ≠ 0 → step s = .refused .reservedCommand)

/-- Inside the token stream a step decodes the bytes at `IP` in the position's slot and runs the element: `CTL` as it
is, a token with `BITC` moved on, a back-reference after `TOK`, `OFF`, `LC` and `IP` are set, `END` with the end of the command. -/
def Obligations.StepRunsTheStreamElement : Prop :=
  ∀ (s : State) (e : Element) (rest : List Byte), s.activity = .stream → s.dec.pend.toNat ≤ s.inLen.toNat →
    decode (streamSlot s) s.win.wo (Memory.readBytes s.input s.dec.ip.toNat (s.dec.pend.toNat - s.dec.ip.toNat)) =
      .ok (e.instr, rest) →
    (∀ b t, e = .ctl b → exec e.instr s = .next t → step s = .next t) ∧
    (∀ b t, e = .lit b → exec e.instr s = .next t → step s = .next (nextBit t)) ∧
    (∀ off lc t, e = .ref off lc → exec e.instr (latchToken off lc s) = .next t → step s = .next (nextBit t)) ∧
    (∀ off lc t, e = .endMark off lc → exec e.instr (latchToken off lc s) = .next t → step s = .next (finish t))

/-- R159 as a step of the token stream, whose size and whose activity field are the model's (notes/assumptions/1.md, 2.md): the
three places where the stream ends by exhaustion; the command is then `DONE` and nothing else changes. A step of the stream
whose payload would reach past `IN_LEN` faults (R60, notes/assumptions/8.md). -/
def Obligations.ExhaustionEndsTheStream : Prop :=
  ∀ s : State, s.activity = .stream →
    (s.dec.pend.toNat ≤ s.inLen.toNat →
      (s.dec.bitc = 8 ∧ s.dec.pend.toNat ≤ s.dec.ip.toNat) ∨
      (s.dec.bitc ≠ 8 ∧ s.dec.ctrl.getLsbD s.dec.bitc.toNat = false ∧ s.dec.pend.toNat ≤ s.dec.ip.toNat) ∨
      (s.dec.bitc ≠ 8 ∧ s.dec.ctrl.getLsbD s.dec.bitc.toNat = true ∧ s.dec.pend.toNat < s.dec.ip.toNat + 2) →
      step s = .next { s with status := { s.status with state := .done }, activity := .idle }) ∧
    (s.inLen.toNat < s.dec.pend.toNat → step s = .fault .inputOutOfRange)

/-- A `DECOMPRESS` at its header: a header that decodes and has `comp_size` ≥ 12 is run on the state with the header
registers loaded and the extent taken, and the command ends; the three early errors are raised. -/
def Obligations.StepRunsTheHeader : Prop :=
  ∀ s : State, s.activity = .header → s.status.state = .busy →
    (∀ i t, 16 ≤ s.inLen.toNat → decode .header s.win.wo (Memory.readBytes s.input 0 16) = .ok (i, []) →
      12 ≤ compSizeOf s → exec i (setExtent (hparse s)) = .next t → step s = .next (settle t)) ∧
    (s.inLen.toNat < 16 → step s = .next (raise .truncatedInput { s with hdrDefined := false })) ∧
    (16 ≤ s.inLen.toNat → decode .header s.win.wo (Memory.readBytes s.input 0 16) = .error .unknownTag →
      step s = .next (raise .unsupportedFormat (hparse s))) ∧
    (∀ i, 16 ≤ s.inLen.toNat → decode .header s.win.wo (Memory.readBytes s.input 0 16) = .ok (i, []) →
      compSizeOf s < 12 → step s = .next (raise .truncatedInput (hparse s)))

/-- R257: with no command running and no `CMD` written since, the engine changes no state. -/
def Obligations.IdleEngineChangesNothing : Prop :=
  ∀ s : State, s.activity = .idle → step s = .next s

/-! ### Elements of the token stream -/

/-- R155: any byte is loaded. Where `BITC` = 8 a step of the stream (notes/assumptions/1.md, 2.md) takes `IN[IP]` for a control byte. -/
def Obligations.ControlByteLoads : Prop :=
  (∀ (b : Byte) (s : State),
    exec (.ctl b) s = .next { s with dec := { s.dec with ctrl := b, ip := s.dec.ip + 1, bitc := 0 } }) ∧
  (∀ s : State, s.activity = .stream → s.dec.pend.toNat ≤ s.inLen.toNat → s.dec.ip.toNat < s.dec.pend.toNat →
    s.dec.bitc = 8 → step s = exec (.ctl (inByte s s.dec.ip.toNat)) s)

/-- R156: the byte is emitted and appended, `IP` moves by 1; every other byte of `OUT` and position of `DICT` reads as before.
Where control bit `BITC` is 0 a step of the stream (notes/assumptions/1.md, 2.md) takes `IN[IP]` for a literal and moves `BITC` on (R154). -/
def Obligations.LiteralEmitsAndAppends : Prop :=
  (∀ (b : Byte) (s : State), ∃ t, exec (.lit b) s = .next t ∧
    outBytes t = outBytes s ++ [b] ∧ t.outLen = s.outLen + 1 ∧
    (∀ a, a ≠ s.outLen → Memory.read t.output a = Memory.read s.output a) ∧
    t.win.wo = s.win.wo + 1 ∧
    (∀ o, t.win.read o = if o % 4096 = s.win.wo.toNat then b else s.win.read o) ∧
    t = { s with output := t.output, outLen := t.outLen, win := t.win, dec := { s.dec with ip := s.dec.ip + 1 } }) ∧
  (∀ s : State, s.activity = .stream → s.dec.pend.toNat ≤ s.inLen.toNat → s.dec.ip.toNat < s.dec.pend.toNat →
    s.dec.bitc ≠ 8 → s.dec.ctrl.getLsbD s.dec.bitc.toNat = false →
    ∃ t, exec (.lit (inByte s s.dec.ip.toNat)) s = .next t ∧ step s = .next (nextBit t))

/-- R157 with R75 and R258, in closed form: with `d = (WO − OFF) mod 4096`, byte `k` of the copy is the byte at
`OFF + (k mod d)` before the token, so a copy whose source overtakes its destination repeats the last `d` bytes.
A step of the
stream (notes/assumptions/1.md, 2.md) takes a token whose control bit is 1 and whose offset is not `WO` for a back-reference, after
`TOK`, `OFF`, `LC` and `IP` are set, and moves `BITC` on (R154). -/
def Obligations.ReferenceCopies : Prop :=
  (∀ (off : Pos) (lc : LenCode) (s : State), off ≠ s.win.wo → ∃ t, exec (.ref off lc) s = .next t ∧
    t.outLen = s.outLen + (lc.toNat + 2) ∧
    (∀ k, k < lc.toNat + 2 →
      Memory.read t.output (s.outLen + k) =
        s.win.read (off.toNat + k % ((s.win.wo.toNat + 4096 - off.toNat) % 4096)) ∧
      t.win.read (s.win.wo.toNat + k) =
        s.win.read (off.toNat + k % ((s.win.wo.toNat + 4096 - off.toNat) % 4096))) ∧
    t.win.wo = s.win.wo + BitVec.ofNat 12 (lc.toNat + 2) ∧
    (∀ a, a < s.outLen ∨ s.outLen + (lc.toNat + 2) ≤ a → Memory.read t.output a = Memory.read s.output a) ∧
    (∀ o, lc.toNat + 2 ≤ (o + 4096 - s.win.wo.toNat) % 4096 → t.win.read o = s.win.read o) ∧
    t = { s with
          output := t.output, outLen := t.outLen, win := t.win, dec := { s.dec with step := t.dec.step } }) ∧
  (∀ (s : State) (tok : Token), s.activity = .stream → s.dec.pend.toNat ≤ s.inLen.toNat → s.dec.bitc ≠ 8 →
    s.dec.ctrl.getLsbD s.dec.bitc.toNat = true → s.dec.ip.toNat + 2 ≤ s.dec.pend.toNat →
    tok = be16 (inByte s s.dec.ip.toNat) (inByte s (s.dec.ip.toNat + 1)) → tokOff tok ≠ s.win.wo →
    ∃ t, exec (.ref (tokOff tok) (tokLc tok))
        { s with dec := { s.dec with tok := tok, ip := s.dec.ip + 2, off := tokOff tok, lc := tokLc tok } } = .next t ∧
      step s = .next (nextBit t))

/-- `STEP` counts the bytes copied (R28), so it ends at `LC + 2`: the model's reading (notes/assumptions/14.md), also for the `REF`
with `OFF` = `WO` that the decoder never gives (notes/assumptions/13.md). -/
def Obligations.StepCountsTheCopiedBytes : Prop :=
  ∀ (off : Pos) (lc : LenCode) (s : State), ∃ t, exec (.ref off lc) s = .next t ∧ t.dec.step.toNat = lc.toNat + 2

/-- R158: `END` sets `END_SEEN` and nothing else, whatever its length code (and, if executed, whatever its offset:
notes/assumptions/13.md), and the step of the stream it is fetched in (notes/assumptions/1.md, 2.md) ends the command successfully
with `TOK`, `OFF` and `LC` set (R154), `IP` past its two bytes, nothing emitted and nothing appended. -/
def Obligations.EndMarkerEndsTheStream : Prop :=
  (∀ (off : Pos) (lc : LenCode) (s : State),
    exec (.endMark off lc) s = .next { s with status := { s.status with endSeen := true } }) ∧
  (∀ (s : State) (tok : Token), s.activity = .stream → s.dec.pend.toNat ≤ s.inLen.toNat → s.dec.bitc ≠ 8 →
    s.dec.ctrl.getLsbD s.dec.bitc.toNat = true → s.dec.ip.toNat + 2 ≤ s.dec.pend.toNat →
    tok = be16 (inByte s s.dec.ip.toNat) (inByte s (s.dec.ip.toNat + 1)) → tokOff tok = s.win.wo →
    step s = .next { s with
      status := { s.status with state := .done, endSeen := true }
      dec := { s.dec with tok := tok, ip := s.dec.ip + 2, off := tokOff tok, lc := tokLc tok }
      activity := .idle })

/-! ### The two headers -/

/-- R153: the first `RAW_SIZE` payload bytes, or all of them and `SHORT`; the other operands and the window are not used. `RAW_SIZE`
is the decoded operand (notes/assumptions/15.md), and a payload past `IN_LEN` faults (notes/assumptions/8.md). -/
def Obligations.StoredHeaderCopies : Prop :=
  ∀ (compSize rawSize crc : U32) (s : State),
    (s.dec.pend.toNat ≤ s.inLen.toNat → ∃ t, exec (.hdrMela compSize rawSize crc) s = .next t ∧
      outBytes t = outBytes s ++ (Memory.readBytes s.input 16 (s.dec.pend.toNat - 16)).take rawSize.toNat ∧
      (∀ a, a < s.outLen ∨ t.outLen ≤ a → Memory.read t.output a = Memory.read s.output a) ∧
      t = { s with
            status := { s.status with short := s.status.short || decide (s.dec.pend.toNat - 16 < rawSize.toNat) }
            output := t.output, outLen := t.outLen }) ∧
    (s.inLen.toNat < s.dec.pend.toNat → exec (.hdrMela compSize rawSize crc) s = .fault .inputOutOfRange)

/-- R121 and R227 at the head of `HDR.LZFU`: a payload whose checksum is not `crc` raises `CorruptDataError` before
`DictInit` and before the first token; a payload past `IN_LEN` faults (notes/assumptions/8.md). `crc` is the decoded operand
(notes/assumptions/15.md). -/
def Obligations.CompressedHeaderGuards : Prop :=
  ∀ (compSize rawSize crc : U32) (s : State),
    (s.dec.pend.toNat ≤ s.inLen.toNat →
      Config.params.cksum (Memory.readBytes s.input 16 (s.dec.pend.toNat - 16)) ≠ crc →
      exec (.hdrLzfu compSize rawSize crc) s = .next { s with
        status := { s.status with state := .error, err := some .corruptData }, activity := .idle }) ∧
    (s.inLen.toNat < s.dec.pend.toNat → exec (.hdrLzfu compSize rawSize crc) s = .fault .inputOutOfRange)

/-- R154 past its guard: it completes and raises nothing; what it emits is what it appends to the fresh window
(so `WO` = 207 + the bytes produced, R137), at most 17 bytes for every 2 of the payload (R162); `IP` ends within the payload. `crc` is the decoded operand
(notes/assumptions/15.md). -/
def Obligations.CompressedHeaderRuns : Prop :=
  ∀ (compSize rawSize crc : U32) (s : State), s.dec.pend.toNat ≤ s.inLen.toNat → 16 ≤ s.dec.pend.toNat →
    Config.params.cksum (Memory.readBytes s.input 16 (s.dec.pend.toNat - 16)) = crc →
    ∃ t produced, exec (.hdrLzfu compSize rawSize crc) s = .next t ∧
      outBytes t = outBytes s ++ produced ∧
      t.win = (Window.init Config.params).appendAll produced ∧
      produced.length ≤ 17 * ((s.dec.pend.toNat - 16) / 2) ∧
      16 ≤ t.dec.ip.toNat ∧ t.dec.ip.toNat ≤ s.dec.pend.toNat ∧
      (∀ a, a < s.outLen ∨ t.outLen ≤ a → Memory.read t.output a = Memory.read s.output a) ∧
      t = { s with
            status := { s.status with endSeen := t.status.endSeen }
            output := t.output, outLen := t.outLen, win := t.win, dec := { t.dec with pend := s.dec.pend } }

/-- R165: running the stream a token a step (notes/assumptions/1.md, 2.md), from the state `HDR.LZFU` opens, ends within `PLEN_D` + 1
steps in what the whole `HDR.LZFU` gives, with the command done. `crc` is the decoded operand (notes/assumptions/15.md). -/
def Obligations.TokenStepsReachTheWholeRun : Prop :=
  ∀ (compSize rawSize crc : U32) (s : State), s.dec.pend.toNat ≤ s.inLen.toNat → 16 ≤ s.dec.pend.toNat →
    Config.params.cksum (Memory.readBytes s.input 16 (s.dec.pend.toNat - 16)) = crc →
    ∃ n t, n ≤ s.dec.pend.toNat - 16 + 1 ∧ exec (.hdrLzfu compSize rawSize crc) s = .next t ∧
      core.run n { openStream Config.params s with activity := .stream } = .next (finish t)

/-! ### DECOMPRESS -/

/-- R226: the tests in their order, each with the error it reports; `DONE` exactly when none fails. -/
def Obligations.DecompressErrorOrder : Prop :=
  ∀ (compressed : Bool) (s : State), ∃ t, exec (.decompress compressed) s = .next t ∧
    t.status.err =
      (if s.inLen.toNat < 16 then some .truncatedInput
       else if inLe32 s 8 ≠ tagLzfu ∧ inLe32 s 8 ≠ tagMela then some .unsupportedFormat
       else if compSizeOf s < 12 then some .truncatedInput
       else if inLe32 s 8 = tagLzfu ∧ Config.params.cksum (payloadOf s) ≠ inLe32 s 12 then some .corruptData
       else none) ∧
    t.status.state = (if t.status.err = none then .done else .error)

/-- R257 and the frame: `DECOMPRESS` always completes, ignores `CMD` bit 1 (R97), leaves the engine idle, and changes neither
the host's registers and input, nor the encoder's registers, nor a byte of `OUT` at or beyond `OUT_LEN` (R61). -/
def Obligations.DecompressFrame : Prop :=
  ∀ (compressed compressed' : Bool) (s : State), ∃ t, exec (.decompress compressed) s = .next t ∧
    exec (.decompress compressed') s = .next t ∧
    (t.status.state = .done ∨ t.status.state = .error) ∧ t.activity = .idle ∧
    (∀ a, t.outLen ≤ a → Memory.read t.output a = Memory.read s.output a) ∧
    t = { s with
          status := t.status, outLen := t.outLen, output := t.output, hdr := t.hdr, hdrDefined := t.hdrDefined
          win := t.win, dec := t.dec, activity := t.activity }

/-- R227 and R228: an error leaves `OUT` empty and untouched, the window and the stream registers but `IP` and `PEND` as they were,
`END_SEEN` clear, `SHORT` as step 2 left it, and the header registers parsed unless `HPARSE` itself raised. -/
def Obligations.ErrorsLeaveNoOutput : Prop :=
  ∀ (compressed : Bool) (s t : State), exec (.decompress compressed) s = .next t → t.status.state = .error →
    t.outLen = 0 ∧ t.output = s.output ∧ t.win = s.win ∧ t.status.endSeen = false ∧
    t.status.short = (decide (t.status.err = some .corruptData) &&
      decide (s.inLen.toNat - 16 < compSizeOf s - 12)) ∧
    (s.inLen.toNat < 16 → t.hdr = s.hdr ∧ t.dec = s.dec) ∧
    (16 ≤ s.inLen.toNat → t.hdr = ⟨inLe32 s 0, inLe32 s 4, inLe32 s 8, inLe32 s 12⟩ ∧
      t.dec = { s.dec with ip := 16, pend := t.dec.pend })

/-- R150 on a container with the stored tag: `OUT` is the first `raw_size` bytes of the payload, whatever the `crc`
field holds (R125), and `SHORT` says that bytes were missing (R152, R153). -/
def Obligations.DecompressStored : Prop :=
  ∀ (compressed : Bool) (s : State), 16 ≤ s.inLen.toNat → inLe32 s 8 = tagMela → 12 ≤ compSizeOf s →
    ∃ t, exec (.decompress compressed) s = .next t ∧
      outBytes t = (payloadOf s).take (inLe32 s 4).toNat ∧
      (∀ a, t.outLen ≤ a → Memory.read t.output a = Memory.read s.output a) ∧
      t.status = ⟨.done, none, false,
        decide (s.inLen.toNat - 16 < compSizeOf s - 12) || decide (payloadLenOf s < (inLe32 s 4).toNat)⟩ ∧
      t.win = s.win ∧ t.hdr = ⟨inLe32 s 0, inLe32 s 4, inLe32 s 8, inLe32 s 12⟩ ∧
      t.dec = { s.dec with ip := 16, pend := BitVec.ofNat 32 (16 + payloadLenOf s) }

/-- R150 on a container with the compressed tag whose checksum is right: the command is what `HDR.LZFU` does on the
parsed header and extent, and then `DONE`. -/
def Obligations.DecompressCompressed : Prop :=
  ∀ (compressed : Bool) (s : State), 16 ≤ s.inLen.toNat → inLe32 s 8 = tagLzfu → 12 ≤ compSizeOf s →
    Config.params.cksum (payloadOf s) = inLe32 s 12 →
    ∃ t u, exec (.hdrLzfu (inLe32 s 0) (inLe32 s 4) (inLe32 s 12))
        { s with
          status := ⟨.busy, none, false, decide (s.inLen.toNat - 16 < compSizeOf s - 12)⟩
          outLen := 0
          hdr := ⟨inLe32 s 0, inLe32 s 4, inLe32 s 8, inLe32 s 12⟩
          hdrDefined := true
          dec := { s.dec with ip := 16, pend := BitVec.ofNat 32 (16 + payloadLenOf s) } } = .next u ∧
      exec (.decompress compressed) s = .next t ∧ t = finish u ∧
      t.status = ⟨.done, none, u.status.endSeen, decide (s.inLen.toNat - 16 < compSizeOf s - 12)⟩

/-- R72 and R105 (f): `DECOMPRESS` reads nothing of `IN` at or beyond the end of the payload. -/
def Obligations.DecompressReadsOnlyTheContainer : Prop :=
  ∀ (compressed : Bool) (s s' t t' : State), 16 ≤ s.inLen.toNat → s'.inLen = s.inLen →
    (∀ i < 16 + payloadLenOf s, inByte s' i = inByte s i) →
    exec (.decompress compressed) s = .next t → exec (.decompress compressed) s' = .next t' → SameResult t t'

/-- R163 (D25): on the compressed path `raw_size` is not read: containers that differ in bytes 4 to 7 alone give the same
output and status. -/
def Obligations.RawSizeUnreadOnCompressedPath : Prop :=
  ∀ (compressed : Bool) (s s' t t' : State), s'.inLen = s.inLen → inLe32 s 8 = tagLzfu →
    (∀ i < s.inLen.toNat, i < 4 ∨ 8 ≤ i → inByte s' i = inByte s i) →
    exec (.decompress compressed) s = .next t → exec (.decompress compressed) s' = .next t' →
    t'.status = t.status ∧ outBytes t' = outBytes t

/-- R125: on the stored path `crc` is not read, so containers that differ in bytes 12 to 15 alone give the same output and
status, and no stored container is ever corrupt, whatever its `crc` and its payload hold. -/
def Obligations.StoredPathIgnoresTheChecksum : Prop :=
  ∀ (compressed : Bool) (s t : State), inLe32 s 8 = tagMela → exec (.decompress compressed) s = .next t →
    t.status.err ≠ some .corruptData ∧
    (16 ≤ s.inLen.toNat → 12 ≤ compSizeOf s → t.status.state = .done) ∧
    ∀ s' t' : State, s'.inLen = s.inLen → (∀ i < s.inLen.toNat, i < 12 ∨ 16 ≤ i → inByte s' i = inByte s i) →
      exec (.decompress compressed) s' = .next t' → t'.status = t.status ∧ outBytes t' = outBytes t

/-- R252: no state crosses from one command to the next: the result of each of the three commands is a function of `IN_LEN` and
`IN[0 .. IN_LEN)`. -/
def Obligations.NoStateCrossesCommands : Prop :=
  ∀ (i : Instr) (s s' t t' : State), slotOf i = some .command → SameInput s s' →
    exec i s = .next t → exec i s' = .next t' → SameResult t t'

/-! ### COMPRESS -/

/-- R180, R142, R144, R192, R195: `COMPRESS` completes `DONE` for every input up to `MAX_IN`; `OUT` is the header and then the
payload; `CUR` has passed the whole input, every byte of which has been appended to the fresh window exactly once. A longer
input is refused (R12, notes/assumptions/10.md). -/
def Obligations.CompressBuildsTheContainer : Prop :=
  ∀ s : State,
    (s.inLen.toNat ≤ 2 ^ 31 - 1 → ∃ t, exec .compress s = .next t ∧
      t.status = ⟨.done, none, false, false⟩ ∧
      t.hdr = ⟨BitVec.ofNat 32 (t.enc.payload.length + 12), s.inLen, tagLzfu, Config.params.cksum t.enc.payload⟩ ∧
      outBytes t = encodeHeader t.hdr.compSize t.hdr.rawSize t.hdr.compType t.hdr.crc ++ t.enc.payload ∧
      (∀ a, t.outLen ≤ a → Memory.read t.output a = Memory.read s.output a) ∧
      t.enc.cur = s.inLen ∧ t.win = (Window.init Config.params).appendAll (inBytes s) ∧
      t = { s with
            status := t.status, outLen := t.outLen, output := t.output, hdr := t.hdr, hdrDefined := true
            win := t.win, enc := t.enc, activity := .idle }) ∧
    (2 ^ 31 - 1 < s.inLen.toNat → exec .compress s = .refused .inputTooLong)

/-- R181: the stored container of every input up to `MAX_IN`, byte for byte; the window and the token buffer are not used. A longer
input is refused (R12, notes/assumptions/10.md); `hdrDefined` is the model's own (notes/assumptions/17.md). -/
def Obligations.CompressStoredBuildsTheContainer : Prop :=
  ∀ s : State,
    (s.inLen.toNat ≤ 2 ^ 31 - 1 → ∃ t, exec .compressS s = .next t ∧
      outBytes t = encodeHeader (BitVec.ofNat 32 (s.inLen.toNat + 12)) s.inLen tagMela
        (Config.params.cksum (inBytes s)) ++ inBytes s ∧
      (∀ a, t.outLen ≤ a → Memory.read t.output a = Memory.read s.output a) ∧
      t.hdr = ⟨BitVec.ofNat 32 (s.inLen.toNat + 12), s.inLen, tagMela, Config.params.cksum (inBytes s)⟩ ∧
      t = { s with
            status := ⟨.done, none, false, false⟩, outLen := t.outLen, output := t.output, hdr := t.hdr
            hdrDefined := true, enc := { s.enc with payload := inBytes s }, activity := .idle }) ∧
    (2 ^ 31 - 1 < s.inLen.toNat → exec .compressS s = .refused .inputTooLong)

/-- R180: `COMPRESS` is its operations in their order: from the state of R182, passes of `MATCH`, then `EMITREF` or `EMITLIT` by the
length found, then `FLUSH` when the group is full, until `CUR` has reached `IN_LEN`; then `EMITEND`, `FLUSH`, `CKGEN`, `HBUILD`, `DONE`. Each
of them completes. -/
def Obligations.CompressRunsItsOperations : Prop :=
  ∀ s : State, s.inLen.toNat ≤ 2 ^ 31 - 1 → ∃ n t0 t1 t2 t3 t4,
    n ≤ s.inLen.toNat ∧
    compressPasses n { startCommand s with
      win := Window.init Config.params
      enc := { s.enc with cur := 0, ectrl := 0, ebit := 0, tokbuf := [], toklen := 0, payload := [] } } = .next t0 ∧
    t0.inLen.toNat ≤ t0.enc.cur.toNat ∧
    exec .emitend t0 = .next t1 ∧ exec .flush t1 = .next t2 ∧ exec .ckgen t2 = .next t3 ∧
    exec (.hbuild tagLzfu) t3 = .next t4 ∧
    exec .compress s = .next { t4 with status := { t4.status with state := .done }, activity := .idle }

/-- R144: in both modes `raw_size` is the length of the input and `comp_size` is the payload length + 12, in the registers and in
the first 8 bytes of `OUT`. -/
def Obligations.HeaderTellsTheLengths : Prop :=
  ∀ (i : Instr) (s t : State), i = .compress ∨ i = .compressS → exec i s = .next t →
    t.hdr.rawSize.toNat = (inBytes s).length ∧ t.hdr.compSize.toNat = t.enc.payload.length + 12 ∧
    ∃ rest, outBytes t = bytesLe32 t.hdr.compSize ++ bytesLe32 t.hdr.rawSize ++ rest

/-- R196: the payload of compressed mode is at most `IN_LEN` + 2 + ⌈(`IN_LEN` + 1) / 8⌉ bytes, and `OUT_LEN` 16 more; in stored mode
`OUT_LEN` = 16 + `IN_LEN`. -/
def Obligations.CompressedSizeIsBounded : Prop :=
  ∀ s t : State,
    (exec .compress s = .next t → t.outLen = 16 + t.enc.payload.length ∧
      t.enc.payload.length ≤ s.inLen.toNat + 2 + (s.inLen.toNat + 8) / 8) ∧
    (exec .compressS s = .next t → t.outLen = 16 + s.inLen.toNat)

/-- R166, compressed mode: `DECOMPRESS` of the container `COMPRESS` built, in any state of the engine, gives the input back. -/
def Obligations.RoundTripCompressed : Prop :=
  ∀ (compressed : Bool) (s t s' : State), exec .compress s = .next t → s'.inLen.toNat = t.outLen →
    (∀ i < t.outLen, inByte s' i = Memory.read t.output i) →
    ∃ u, exec (.decompress compressed) s' = .next u ∧ u.status = ⟨.done, none, true, false⟩ ∧
      outBytes u = inBytes s ∧ u.win = t.win

/-- R166, stored mode. -/
def Obligations.RoundTripStored : Prop :=
  ∀ (compressed : Bool) (s t s' : State), exec .compressS s = .next t → s'.inLen.toNat = t.outLen →
    (∀ i < t.outLen, inByte s' i = Memory.read t.output i) →
    ∃ u, exec (.decompress compressed) s' = .next u ∧ u.status = ⟨.done, none, false, false⟩ ∧
      outBytes u = inBytes s

/-! ### The matcher and the token buffer -/

/-- R187 (a), (b), (c), (e): `MATCH` completes whenever `CUR` is inside the input; it appends exactly `L` bytes, which are
`IN[CUR .. CUR + L)`, and the offset of a match is below the old `WO`. Past the input it faults (R60, notes/assumptions/8.md). -/
def Obligations.MatchAppendsItsLength : Prop :=
  ∀ s : State,
    (s.enc.cur.toNat < s.inLen.toNat → ∃ t, exec .matchOp s = .next t ∧
      t.enc.l.toNat ≤ 17 ∧ t.enc.l.toNat ≤ s.inLen.toNat - s.enc.cur.toNat ∧
      t.win = s.win.appendAll (Memory.readBytes s.input s.enc.cur.toNat t.enc.l.toNat) ∧
      (1 ≤ t.enc.l.toNat → t.enc.moff.toNat < s.win.wo.toNat) ∧
      t.enc.w0 = s.win.wo ∧ t.enc.di.toNat ≤ s.win.wo.toNat + t.enc.l.toNat ∧
      t = { s with
            win := t.win
            enc := { s.enc with w0 := t.enc.w0, di := t.enc.di, m := t.enc.m, l := t.enc.l, moff := t.enc.moff } }) ∧
    (s.inLen.toNat ≤ s.enc.cur.toNat → exec .matchOp s = .fault .inputOutOfRange)

/-- R186, its pseudocode as the sequence `f` of the states of its loop: the first line, the passes made while the guard holds, each
a comparison with `IN[CUR + M]`, and the end, which is what `MATCH` answers. -/
def Obligations.MatchFollowsItsLoop : Prop :=
  ∀ s : State, s.enc.cur.toNat < s.inLen.toNat → ∃ (n : Nat) (f : Nat → State),
    f 0 = { s with enc := { s.enc with w0 := s.win.wo, di := 0, m := 0, l := 0, moff := 0 } } ∧
    (∀ k < n,
      (f k).enc.di.toNat < (f k).enc.w0.toNat + (f k).enc.l.toNat ∧
      (f k).enc.l.toNat < min 17 (s.inLen.toNat - s.enc.cur.toNat) ∧
      f (k + 1) =
        if (f k).win.read (f k).enc.di.toNat = inByte s (s.enc.cur.toNat + (f k).enc.m.toNat) then
          if (f k).enc.m + 1 > (f k).enc.l then
            { f k with
              win := (f k).win.append (inByte s (s.enc.cur.toNat + (f k).enc.m.toNat))
              enc := { (f k).enc with
                m := (f k).enc.m + 1, moff := (f k).enc.di - (f k).enc.m.setWidth 13, l := (f k).enc.m + 1
                di := (f k).enc.di + 1 } }
          else { f k with enc := { (f k).enc with m := (f k).enc.m + 1, di := (f k).enc.di + 1 } }
        else { f k with enc := { (f k).enc with m := 0, di := (f k).enc.di + 1 } }) ∧
    ¬((f n).enc.di.toNat < (f n).enc.w0.toNat + (f n).enc.l.toNat ∧
      (f n).enc.l.toNat < min 17 (s.inLen.toNat - s.enc.cur.toNat)) ∧
    exec .matchOp s = .next (f n)

/-- R187 (d): a decoder's copy from `MOFF`, reading one byte at a time with its appends interleaved, reads the matched input. -/
def Obligations.MatchIsReproducible : Prop :=
  ∀ s t : State, exec .matchOp s = .next t → ∀ k, k < t.enc.l.toNat →
    (s.win.appendAll (Memory.readBytes s.input s.enc.cur.toNat k)).read (t.enc.moff.toNat + k) =
      inByte s (s.enc.cur.toNat + k)

/-- R186, its first two corner cases: `L` = 0 exactly when no position below `WO` holds `IN[CUR]`; when `L` = 1, `MOFF` is the
first position that does. -/
def Obligations.MatchFindsTheFirstByte : Prop :=
  ∀ s t : State, exec .matchOp s = .next t →
    (t.enc.l = 0 ↔ ∀ p < s.win.wo.toNat, s.win.read p ≠ inByte s s.enc.cur.toNat) ∧
    (t.enc.l = 0 → t.enc.moff = 0) ∧
    (t.enc.l = 1 → s.win.read t.enc.moff.toNat = inByte s s.enc.cur.toNat ∧
      ∀ p < t.enc.moff.toNat, s.win.read p ≠ inByte s s.enc.cur.toNat)

/-- R195: the lock-step of encoder and decoder. A decoder with the encoder's window, given the token that follows a `MATCH`,
emits the input the token stands for and ends with the encoder's window; the reference is not taken for `END`. -/
def Obligations.EncoderAndDecoderInLockStep : Prop :=
  ∀ s t d : State, exec .matchOp s = .next t → d.win = s.win →
    (2 ≤ t.enc.l.toNat →
      decodeToken d.win.wo (mkToken (t.enc.moff.setWidth 12) ((t.enc.l - 2).setWidth 4)) =
        .ref (t.enc.moff.setWidth 12) ((t.enc.l - 2).setWidth 4) ∧
      ∃ u, exec (.ref (t.enc.moff.setWidth 12) ((t.enc.l - 2).setWidth 4)) d = .next u ∧ u.win = t.win ∧
        outBytes u = outBytes d ++ Memory.readBytes s.input s.enc.cur.toNat t.enc.l.toNat) ∧
    (t.enc.l.toNat < 2 → s.enc.ebit.toNat < 8 →
      ∃ u v, exec .emitlit t = .next v ∧ exec (.lit (inByte s s.enc.cur.toNat)) d = .next u ∧ u.win = v.win ∧
        outBytes u = outBytes d ++ [inByte s s.enc.cur.toNat])

/-- R188, for a group with room: two bytes, most significant first, are buffered, the control bit is set and `CUR` moves by `L`. For
`L` of 2 to 17 they hold `MOFF mod 4096` and `L − 2`. For another `L` the spec does not state `L − 2`: they hold the bits of
`MOFF mod 4096` and a free value besides (notes/assumptions/12.md). A full group faults (notes/assumptions/9.md). -/
def Obligations.EmitReferenceToken : Prop :=
  ∀ s : State,
    (s.enc.ebit.toNat < 8 → ∃ t b0 b1, exec .emitref s = .next t ∧
      t.enc.tokbuf = s.enc.tokbuf ++ [b0, b1] ∧
      (2 ≤ s.enc.l.toNat → s.enc.l.toNat ≤ 17 → t.freeIndex = s.freeIndex ∧
        (be16 b0 b1).toNat = (s.enc.moff.toNat % 4096) * 16 + (s.enc.l.toNat - 2)) ∧
      (s.enc.l.toNat < 2 ∨ 17 < s.enc.l.toNat → t.freeIndex = s.freeIndex + 1 ∧
        ∀ j, j < 12 → s.enc.moff.getLsbD j = true → (be16 b0 b1).getLsbD (j + 4) = true) ∧
      (∀ j, j < 8 → t.enc.ectrl.getLsbD j = (s.enc.ectrl.getLsbD j || decide (j = s.enc.ebit.toNat))) ∧
      t = { s with enc := { s.enc with
            tokbuf := t.enc.tokbuf, toklen := s.enc.toklen + 2, ectrl := t.enc.ectrl, ebit := s.enc.ebit + 1
            cur := s.enc.cur + s.enc.l.setWidth 32 }, freeIndex := t.freeIndex }) ∧
    (8 ≤ s.enc.ebit.toNat → exec .emitref s = .fault .groupFull)

/-- R189 (C3): the literal is buffered with control bit 0 and `CUR` moves by 1; the byte enters the window here exactly when
`L` = 0. A full group faults (notes/assumptions/9.md), and so does `CUR` past the input (notes/assumptions/8.md). -/
def Obligations.EmitLiteralToken : Prop :=
  ∀ s : State,
    (s.enc.ebit.toNat < 8 → s.enc.cur.toNat < s.inLen.toNat → ∃ t, exec .emitlit s = .next t ∧
      t.enc = { s.enc with
        tokbuf := s.enc.tokbuf ++ [inByte s s.enc.cur.toNat], toklen := s.enc.toklen + 1
        ebit := s.enc.ebit + 1, cur := s.enc.cur + 1 } ∧
      (s.enc.l ≠ 0 → t.win = s.win) ∧
      (s.enc.l = 0 → t.win.wo = s.win.wo + 1 ∧
        ∀ o, t.win.read o = if o % 4096 = s.win.wo.toNat then inByte s s.enc.cur.toNat else s.win.read o) ∧
      t = { s with win := t.win, enc := t.enc }) ∧
    (8 ≤ s.enc.ebit.toNat → exec .emitlit s = .fault .groupFull) ∧
    (s.enc.ebit.toNat < 8 → s.inLen.toNat ≤ s.enc.cur.toNat → exec .emitlit s = .fault .inputOutOfRange)

/-- R190. -/
def Obligations.FlushWritesTheGroup : Prop :=
  ∀ s : State, exec .flush s = .next { s with enc := { s.enc with
    payload := s.enc.payload ++ [s.enc.ectrl] ++ s.enc.tokbuf, ectrl := 0, ebit := 0, tokbuf := [], toklen := 0 } }

/-- R192: the end marker's two bytes hold `WO << 4`; its control bit is set, nothing is appended and `CUR` does not move. A full
group faults (notes/assumptions/9.md). -/
def Obligations.EmitEndMarker : Prop :=
  ∀ s : State,
    (s.enc.ebit.toNat < 8 → ∃ t b0 b1, exec .emitend s = .next t ∧
      t.enc.tokbuf = s.enc.tokbuf ++ [b0, b1] ∧ (be16 b0 b1).toNat = s.win.wo.toNat * 16 ∧
      (∀ j, j < 8 → t.enc.ectrl.getLsbD j = (s.enc.ectrl.getLsbD j || decide (j = s.enc.ebit.toNat))) ∧
      t = { s with enc := { s.enc with
            tokbuf := t.enc.tokbuf, toklen := s.enc.toklen + 2, ectrl := t.enc.ectrl, ebit := s.enc.ebit + 1 } }) ∧
    (8 ≤ s.enc.ebit.toNat → exec .emitend s = .fault .groupFull)

/-! ### The dictionary window -/

/-- R133 with R131: every one of the 4096 positions holds its seed byte, `WO` is 207, and nothing else changes. -/
def Obligations.DictInitSeedsTheWindow : Prop :=
  ∀ s : State, ∃ t, exec .dinit s = .next t ∧ t.win.wo.toNat = 207 ∧
    (∀ (i : Nat) (h : i < 207), t.win.read i = Config.initDict[i]) ∧
    (∀ i, 207 ≤ i → i < 4096 → t.win.read i = fill) ∧
    t = { s with win := t.win }

/-- R134: the byte at `o mod 4096` is answered (in the model's own field `byteOut`, notes/assumptions/7.md), equal for offsets equal
modulo 4096, and no state of the spec changes. -/
def Obligations.DictReadReducesItsOffset : Prop :=
  ∀ (o : Nat) (s : State), ∃ t, exec (.dread o) s = .next t ∧ exec (.dread (o % 4096)) s = .next t ∧
    exec (.dread (o + 4096)) s = .next t ∧
    t.byteOut = Memory.read s.win.mem (o % 4096) ∧ t = { s with byteOut := t.byteOut }

/-- R135: the byte is stored at the old `WO`, which then moves by 1 modulo 4096; every other position reads as before. -/
def Obligations.DictAppendStoresAndAdvances : Prop :=
  ∀ (b : Byte) (s : State), ∃ t, exec (.dappend b) s = .next t ∧
    t.win.wo.toNat = (s.win.wo.toNat + 1) % 4096 ∧ t.win.read s.win.wo.toNat = b ∧
    (∀ i, i < 4096 → i ≠ s.win.wo.toNat → t.win.read i = s.win.read i) ∧
    t = { s with win := t.win }

/-! ### The header codec and the checksum guard -/

/-- R140: shorter than 16 bytes raises `TruncatedInputError` and writes no header register; else the four little-endian fields and
`IP` = 16, whatever the fields hold. That the registers then count as absent or present is notes/assumptions/17.md. -/
def Obligations.HeaderParse : Prop :=
  ∀ s : State,
    (s.inLen.toNat < 16 → exec .hparse s = .next { s with
      status := { s.status with state := .error, err := some .truncatedInput }
      hdrDefined := false, activity := .idle }) ∧
    (16 ≤ s.inLen.toNat → ∃ t, exec .hparse s = .next t ∧
      bytesLe32 t.hdr.compSize ++ bytesLe32 t.hdr.rawSize ++ bytesLe32 t.hdr.compType ++ bytesLe32 t.hdr.crc =
        Memory.readBytes s.input 0 16 ∧
      t = { s with hdr := t.hdr, hdrDefined := true, dec := { s.dec with ip := 16 } })

/-- R142: 16 header bytes and then the payload are appended to `OUT`; `comp_size` is the payload length + 12, or a free value where that
does not fit 32 bits (notes/assumptions/24.md), `raw_size` is `IN_LEN`, the tag is the operand and `crc` the register. A tag other than the rule's two runs too (notes/assumptions/13.md);
`hdrDefined` is the model's own (notes/assumptions/17.md). -/
def Obligations.HeaderBuild : Prop :=
  ∀ (tag : U32) (s : State), ∃ t, exec (.hbuild tag) s = .next t ∧
    (s.enc.payload.length + 12 < 2 ^ 32 →
      t.hdr.compSize.toNat = s.enc.payload.length + 12 ∧ t.freeIndex = s.freeIndex) ∧
    (2 ^ 32 ≤ s.enc.payload.length + 12 → t.freeIndex = s.freeIndex + 1) ∧
    t.hdr = ⟨t.hdr.compSize, s.inLen, tag, s.hdr.crc⟩ ∧
    outBytes t = outBytes s ++ bytesLe32 t.hdr.compSize ++ bytesLe32 t.hdr.rawSize ++ bytesLe32 t.hdr.compType ++
      bytesLe32 t.hdr.crc ++ s.enc.payload ∧
    t.outLen = s.outLen + 16 + s.enc.payload.length ∧
    (∀ a, a < s.outLen ∨ t.outLen ≤ a → Memory.read t.output a = Memory.read s.output a) ∧
    t = { s with hdr := t.hdr, hdrDefined := true, output := t.output, outLen := t.outLen, freeIndex := t.freeIndex }

/-- R120 to R122: `CKSUM` answers the checksum (in the model's own field `sumOut`, notes/assumptions/7.md), `CKCHK` raises `CorruptDataError`
exactly on a mismatch and else writes nothing, `CKGEN` writes `CRC` alone; a payload past `IN_LEN` faults (notes/assumptions/8.md). -/
def Obligations.ChecksumGuard : Prop :=
  ∀ (bytes : List Byte) (s : State),
    exec (.cksum bytes) s = .next { s with sumOut := Config.cksum bytes } ∧
    (s.dec.pend.toNat ≤ s.inLen.toNat →
      exec .ckchk s = .next
        (if Config.cksum (Memory.readBytes s.input 16 (s.dec.pend.toNat - 16)) = s.hdr.crc then s
         else { s with status := { s.status with state := .error, err := some .corruptData }, activity := .idle })) ∧
    (s.inLen.toNat < s.dec.pend.toNat → exec .ckchk s = .fault .inputOutOfRange) ∧
    exec .ckgen s = .next { s with hdr := { s.hdr with crc := Config.cksum s.enc.payload } }

/-- R124 for the guard: whatever `CKSUM` is, if it detects single-bit errors then flipping any bit of the payload of an accepted
compressed container makes `DECOMPRESS` raise `CorruptDataError`. `exec (.decompress _)` is `decompress Config.params`. -/
def Obligations.FlippedPayloadBitIsCaught : Prop :=
  ∀ (P : Params) (s : State) (a j : Nat), DetectsSingleBit P.cksum → 16 ≤ s.inLen.toNat → inLe32 s 8 = tagLzfu →
    12 ≤ compSizeOf s → P.cksum (payloadOf s) = inLe32 s 12 → 16 ≤ a → a < 16 + payloadLenOf s → j < 8 →
    (decompress P s).status.state = .done ∧
    (decompress P { s with input := Memory.write s.input a (inByte s a ^^^ (1#8 <<< j)) }).status.err =
      some .corruptData

/-! ### The reference values -/

/-- The check values of R123 and the spot values of R132. -/
def Obligations.ReferenceCheckValues : Prop :=
  crcTable 1 = 0x77073096 ∧ crcTable 128 = 0xEDB88320 ∧ crcTable 255 = 0x2D02EF8D ∧ cksumRef [] = 0 ∧
  cksumRef [0x61] = 0x3AB551CE ∧
  cksumRef [0x31, 0x32, 0x33, 0x34, 0x35, 0x36, 0x37, 0x38, 0x39] = 0x2DFD2D88 ∧
  initDictRef[0] = 0x7B ∧ initDictRef[7] = 0x61 ∧ initDictRef[168] = 0x0D ∧ initDictRef[206] = 0x78

/-- R124: `CKSUM_REF` detects every single-bit error (the spec's general knowledge, notes/assumptions/22.md). -/
def Obligations.ReferenceChecksumDetectsSingleBit : Prop := DetectsSingleBit cksumRef

/-! ### STATUS, reset, the host's moves, the invariant -/

/-- R34 and R220: the fields of the `STATUS` word with their numbers, bits 7:6 reading as 0. -/
def Obligations.StatusWordLayout : Prop :=
  ∀ st : Status,
    (st.word.extractLsb' 0 2).toNat =
      (match st.state with | .idle => 0 | .busy => 1 | .done => 2 | .error => 3) ∧
    (st.word.extractLsb' 2 2).toNat =
      (match st.err with
      | none => 0 | some .truncatedInput => 1 | some .unsupportedFormat => 2 | some .corruptData => 3) ∧
    st.word.getLsbD 4 = st.endSeen ∧ st.word.getLsbD 5 = st.short ∧ st.word.extractLsb' 6 2 = 0

/-- R39: after power-on `STATUS` is 0 and the engine does nothing until the host writes `CMD`. -/
def Obligations.PowerOnState : Prop :=
  State.reset.status.word = 0 ∧ step State.reset = .next State.reset ∧ hostReadStatus State.reset = 0

/-- R32, R34, R256: a host write of `CMD` with a reserved bit set is refused. Any other makes `STATUS` read `BUSY` with no error and no
flag and `OUT_LEN` 0 at once, changes nothing else the spec names, and the next step runs the command it encodes. While a command
runs or waits the write is refused (U4, notes/assumptions/17.md). -/
def Obligations.HostWriteStartsTheCommand : Prop :=
  ∀ (v : Byte) (s : State),
    (hostTurn s = true → v &&& 0xFC ≠ 0 → hostWriteCmd v s = .refused .reservedCommand) ∧
    (hostTurn s = true → v &&& 0xFC = 0 →
      ∃ t i, hostWriteCmd v s = .next t ∧ decodeCmd v = .ok i ∧ hostReadStatus t = 0x01 ∧ t.outLen = 0 ∧
        t = { s with status := t.status, outLen := t.outLen, cmd := v, activity := t.activity } ∧
        step t = exec i { s with cmd := v }) ∧
    (hostTurn s = false → hostWriteCmd v s = .refused .hostDuringCommand)

/-- R254, its first two steps, and R256: what the host writes to `IN` and `IN_LEN` is what the engine reads there, nothing else
changes, and while a command runs or waits the writes are refused (U4, notes/assumptions/17.md). A load longer than `IN_LEN` can say
(R12) is refused: the model's choice (notes/assumptions/17.md). -/
def Obligations.HostLoadsTheInput : Prop :=
  ∀ s : State,
    (hostTurn s = true →
      (∀ a b, ∃ t, hostWriteIn a b s = .next t ∧ inByte t a = b ∧ (∀ i, i ≠ a → inByte t i = inByte s i) ∧
        t = { s with input := t.input }) ∧
      (∀ n, hostWriteInLen n s = .next { s with inLen := n }) ∧
      (∀ bytes : List Byte,
        (bytes.length < 2 ^ 32 → ∃ t, hostLoad bytes s = .next t ∧ inBytes t = bytes ∧ t.inLen.toNat = bytes.length ∧
          (∀ i, bytes.length ≤ i → inByte t i = inByte s i) ∧ t = { s with input := t.input, inLen := t.inLen }) ∧
        (2 ^ 32 ≤ bytes.length → hostLoad bytes s = .refused .inputTooLong))) ∧
    (hostTurn s = false → ∀ a b n bytes, hostWriteIn a b s = .refused .hostDuringCommand ∧
      hostWriteInLen n s = .refused .hostDuringCommand ∧ hostLoad bytes s = .refused .hostDuringCommand)

/-- U4, U5, U6 and R40: no read of a result while a command runs or waits, none before a command has completed since power-on, none of
a byte of `OUT` at or beyond `OUT_LEN`, none of the header registers after `HPARSE` itself raised. After any of the three commands,
`OUT_LEN`, every byte of `OUT` below it and the header registers that were written can be read (notes/assumptions/17.md). -/
def Obligations.HostReadsWhatIsDefined : Prop :=
  (∀ (s : State) (i : Nat), hostTurn s = false → hostReadOutLen s = .error .hostDuringCommand ∧
    hostReadOut i s = .error .hostDuringCommand ∧ hostReadHeader s = .error .hostDuringCommand) ∧
  (∀ (s : State) (i : Nat), hostTurn s = true → s.status.state = .idle → hostReadOutLen s = .error .readUndefined ∧
    hostReadOut i s = .error .readUndefined ∧ hostReadHeader s = .error .readUndefined) ∧
  (∀ (s : State) (i : Nat), hostTurn s = true → s.outLen ≤ i → hostReadOut i s = .error .readUndefined) ∧
  (∀ (i : Instr) (s t : State), slotOf i = some .command → exec i s = .next t → hostTurn t = true ∧
    hostReadOutLen t = .ok t.outLen ∧
    (∀ a, a < t.outLen → hostReadOut a t = .ok (Memory.read t.output a)) ∧
    ((∃ c, i = .decompress c) → s.inLen.toNat < 16 → hostReadHeader t = .error .readUndefined) ∧
    ((∀ c, i ≠ .decompress c) ∨ 16 ≤ s.inLen.toNat → hostReadHeader t = .ok t.hdr))

/-- Every move of the host keeps the invariant, so the states the engine's steps and the host's moves reach all meet it. -/
def Obligations.HostMovesKeepTheInvariant : Prop :=
  ∀ s t : State, State.Inv s →
    (∀ a b, hostWriteIn a b s = .next t → State.Inv t) ∧ (∀ n, hostWriteInLen n s = .next t → State.Inv t) ∧
    (∀ bytes, hostLoad bytes s = .next t → State.Inv t) ∧ (∀ v, hostWriteCmd v s = .next t → State.Inv t)

/-- Reset meets the invariant of Safety.lean. -/
def Obligations.ResetMeetsTheInvariant : Prop := State.Inv State.reset

/-- Every step keeps the invariant: the memories stay canonical and `DICT` within 4096 positions, `ERR` is non-zero exactly when
`STATE` = `ERROR` (R34), an error leaves `OUT_LEN` = 0 (R35), `BUSY` exactly from the write of `CMD` to the command's end (R256), `IP` ≤ `PEND` ≤ `IN_LEN` in the
stream (R25), the counters in their ranges (R28, R29), `CMD` with its reserved bits 0 (R32). -/
def Obligations.StepKeepsTheInvariant : Prop :=
  ∀ s t : State, State.Inv s → step s = .next t → State.Inv t
end

