-- ==== Sys2Proof/Laws/Decode.lean ====
section
/-!
SUPPORT. Byte order and token fields: assembling and taking apart are inverse.
-/

namespace Sys2Proof

open Machine

theorem getLsbD_be16 (b0 b1 : Byte) (i : Nat) :
    (be16 b0 b1).getLsbD i = if i < 8 then b1.getLsbD i else b0.getLsbD (i - 8) := BitVec.getLsbD_append

theorem getLsbD_le32 (b0 b1 b2 b3 : Byte) (i : Nat) :
    (le32 b0 b1 b2 b3).getLsbD i =
      if i < 8 then b0.getLsbD i else if i - 8 < 8 then b1.getLsbD (i - 8)
      else if i - 8 - 8 < 8 then b2.getLsbD (i - 8 - 8) else b3.getLsbD (i - 8 - 8 - 8) := by
  show (b3 ++ b2 ++ b1 ++ b0 : BitVec (8 + 8 + 8 + 8)).getLsbD i = _
  simp only [BitVec.getLsbD_append]

theorem getLsbD_mkToken (off : Pos) (lc : LenCode) (i : Nat) :
    (mkToken off lc).getLsbD i = if i < 4 then lc.getLsbD i else off.getLsbD (i - 4) := BitVec.getLsbD_append

theorem le32_bytes (v : U32) :
    le32 (v.extractLsb' 0 8) (v.extractLsb' 8 8) (v.extractLsb' 16 8) (v.extractLsb' 24 8) = v := by
  apply BitVec.eq_of_getLsbD_eq
  intro i hi
  rw [getLsbD_le32]
  simp only [BitVec.getLsbD_extractLsb']
  split_ifs with h1 h2 h3 <;> try simp only [*, decide_true, Bool.true_and]
  · congr 1; omega
  · congr 1; omega
  · congr 1; omega
  · rw [decide_eq_true (show i - 8 - 8 - 8 < 8 by omega), Bool.true_and]; congr 1; omega

theorem bytesLe32_le32 (b0 b1 b2 b3 : Byte) : bytesLe32 (le32 b0 b1 b2 b3) = [b0, b1, b2, b3] := by
  simp only [bytesLe32, List.cons.injEq, and_true]
  refine ⟨?_, ?_, ?_, ?_⟩ <;>
  · apply BitVec.eq_of_getLsbD_eq
    intro i hi
    rw [BitVec.getLsbD_extractLsb', getLsbD_le32]
    simp only [hi, decide_true, Bool.true_and]
    split_ifs <;> first | omega | (congr 1; omega)

theorem be16_bytes (t : Token) : be16 (t.extractLsb' 8 8) (t.extractLsb' 0 8) = t := by
  apply BitVec.eq_of_getLsbD_eq
  intro i hi
  rw [getLsbD_be16]
  simp only [BitVec.getLsbD_extractLsb']
  split_ifs with h1 <;> try simp only [*, decide_true, Bool.true_and]
  · congr 1; omega
  · rw [decide_eq_true (show i - 8 < 8 by omega), Bool.true_and]; congr 1; omega

theorem bytesBe16_be16 (b0 b1 : Byte) : bytesBe16 (be16 b0 b1) = [b0, b1] := by
  simp only [bytesBe16, List.cons.injEq, and_true]
  refine ⟨?_, ?_⟩ <;>
  · apply BitVec.eq_of_getLsbD_eq
    intro i hi
    rw [BitVec.getLsbD_extractLsb', getLsbD_be16]
    simp only [hi, decide_true, Bool.true_and]
    split_ifs <;> first | omega | (congr 1; omega)

@[simp] theorem tokOff_mkToken (off : Pos) (lc : LenCode) : tokOff (mkToken off lc) = off := by
  apply BitVec.eq_of_getLsbD_eq
  intro i hi
  rw [tokOff, BitVec.getLsbD_extractLsb', getLsbD_mkToken, if_neg (by omega)]
  simp only [hi, decide_true, Bool.true_and]
  congr 1; omega

@[simp] theorem tokLc_mkToken (off : Pos) (lc : LenCode) : tokLc (mkToken off lc) = lc := by
  apply BitVec.eq_of_getLsbD_eq
  intro i hi
  rw [tokLc, BitVec.getLsbD_extractLsb', getLsbD_mkToken, if_pos (by omega)]
  simp only [hi, decide_true, Bool.true_and]
  congr 1; omega

@[simp] theorem mkToken_fields (t : Token) : mkToken (tokOff t) (tokLc t) = t := by
  apply BitVec.eq_of_getLsbD_eq
  intro i hi
  rw [getLsbD_mkToken]
  simp only [tokOff, tokLc, BitVec.getLsbD_extractLsb']
  split_ifs with h1 <;> try simp only [*, decide_true, Bool.true_and]
  · congr 1; omega
  · rw [decide_eq_true (show i - 4 < 12 by omega), Bool.true_and]; congr 1; omega

@[simp] theorem decodeTag_lzfu : decodeTag tagLzfu = some .lzfu := by decide

@[simp] theorem decodeTag_mela : decodeTag tagMela = some .mela := by decide

/-- The tag selects a path exactly when it is one of the two (R92, R104). -/
theorem decodeTag_cases (t : U32) :
    (t = tagLzfu ∧ decodeTag t = some .lzfu) ∨ (t = tagMela ∧ decodeTag t = some .mela) ∨
      (t ≠ tagLzfu ∧ t ≠ tagMela ∧ decodeTag t = none) := by
  unfold decodeTag
  by_cases h1 : t = tagLzfu
  · exact .inl ⟨h1, by simp [h1]⟩
  · by_cases h2 : t = tagMela
    · right; left; exact ⟨h2, by rw [if_neg h1, if_pos h2]⟩
    · right; right; exact ⟨h1, h2, by rw [if_neg h1, if_neg h2]⟩

@[simp] theorem length_bytesLe32 (v : U32) : (bytesLe32 v).length = 4 := rfl

@[simp] theorem length_bytesBe16 (t : Token) : (bytesBe16 t).length = 2 := rfl

@[simp] theorem length_encodeHeader (a b c d : U32) : (encodeHeader a b c d).length = 16 := by
  simp [encodeHeader]

/-- What the decoder reads from the header of a tag and three fields. -/
theorem decodeHeader_encodeHeader (compSize rawSize tag crc : U32) (rest : List Byte) :
    decodeHeader (encodeHeader compSize rawSize tag crc ++ rest) =
      match decodeTag tag with
      | some .lzfu => .ok (.hdrLzfu compSize rawSize crc, rest)
      | some .mela => .ok (.hdrMela compSize rawSize crc, rest)
      | none => .error .unknownTag := by
  simp only [encodeHeader, bytesLe32, List.cons_append, List.nil_append, decodeHeader, le32_bytes] <;> rfl

/-! ### The command byte -/

/-- What the decoder reads from a command byte is a command, and encodes to that byte (R97). -/
theorem decodeCmd_encode {b : Byte} {i : Instr} (h : decodeCmd b = .ok i) :
    slotOf i = some .command ∧ encode i = [b] := by
  have key : ∀ b : Byte, (match decodeCmd b with
      | .ok i => decide (slotOf i = some .command) && decide (encode i = [b])
      | .error _ => true) = true := by decide +kernel
  have := key b
  rw [h] at this
  simpa using this

theorem decodeCmd_reserved : ∀ b : Byte, b &&& 0xFC ≠ 0 → decodeCmd b = .error .reservedCommandBits := by
  decide +kernel

theorem decodeCmd_fields : ∀ b : Byte, b &&& 0xFC = 0 →
    decodeCmd b = .ok (if b.getLsbD 0 then (if b.getLsbD 1 then .compress else .compressS)
      else .decompress (b.getLsbD 1)) := by
  decide +kernel

theorem Element.instr_injective {e e' : Element} (h : e.instr = e'.instr) : e = e' := by
  cases e <;> cases e' <;> simp_all [Element.instr]

end Sys2Proof
end

