-- ==== Sys2Proof/Laws/Memory.lean ====
section
/-!
SUPPORT. Laws of byte memories: what a read gives after a write, that every operation keeps the canonical form,
and that memories in canonical form that read the same are the same list.
-/

namespace Sys2Proof.Machine.Memory

@[simp] theorem read_nil (a : Nat) : read [] a = unlisted := rfl

theorem read_cons (k : Nat) (v : Byte) (m : Memory) (a : Nat) :
    read ((k, v) :: m) a = if k = a then v else read m a := rfl

@[simp] theorem read_erase_same (m : Memory) (a : Nat) : read (erase a m) a = unlisted := by
  induction m with
  | nil => rfl
  | cons c m ih =>
    obtain ⟨k, v⟩ := c
    by_cases h : k = a <;> simp [erase, read, h, ih]

theorem read_erase_ne (m : Memory) {a a' : Nat} (h : a' ≠ a) : read (erase a m) a' = read m a' := by
  induction m with
  | nil => rfl
  | cons c m ih =>
    obtain ⟨k, v⟩ := c
    by_cases hk : k = a
    · subst hk; simp [erase, read, ih, Ne.symm h]
    · simp [erase, read, hk, ih]

/-- No cell of `m` is at address `a`. -/
def Absent (a : Nat) (m : Memory) : Prop := ∀ c ∈ m, c.1 ≠ a

theorem absent_erase (a : Nat) (m : Memory) : Absent a (erase a m) := by
  induction m with
  | nil => simp [erase, Absent]
  | cons c m ih =>
    obtain ⟨k, v⟩ := c
    by_cases h : k = a
    · simpa [erase, h] using ih
    · simpa [erase, h, Absent] using ih

theorem read_insert (m : Memory) {a : Nat} (b : Byte) (h : Absent a m) (a' : Nat) :
    read (insert a b m) a' = if a' = a then b else read m a' := by
  induction m with
  | nil => simp [insert, read, eq_comm]
  | cons c m ih =>
    obtain ⟨k, v⟩ := c
    have hk : k ≠ a := h (k, v) (by simp)
    have hm : Absent a m := fun c hc => h c (by simp [hc])
    by_cases hlt : a < k
    · simp [insert, hlt, read, eq_comm]
    · simp only [insert, hlt, if_false, read, ih hm]
      by_cases ha : a' = a
      · subst ha; simp [hk]
      · simp [ha]

/-- What a read gives after a write: the byte at the address written, and every other byte as before. -/
theorem read_write (m : Memory) (a : Nat) (b : Byte) (a' : Nat) :
    read (write m a b) a' = if a' = a then b else read m a' := by
  unfold write
  split
  · next h =>
    by_cases ha : a' = a
    · subst ha; simp [h]
    · simp [ha, read_erase_ne m ha]
  · rw [read_insert _ _ (absent_erase a m)]
    by_cases ha : a' = a
    · simp [ha]
    · simp [ha, read_erase_ne m ha]

@[simp] theorem read_write_same (m : Memory) (a : Nat) (b : Byte) : read (write m a b) a = b := by
  simp [read_write]

theorem read_write_ne (m : Memory) {a a' : Nat} (b : Byte) (h : a' ≠ a) : read (write m a b) a' = read m a' := by
  simp [read_write, h]

/-! ### The canonical form -/

@[simp] theorem wf_nil : wf [] = true := by simp [wf]

theorem wf_iff (m : Memory) :
    wf m = true ↔ m.Pairwise (fun x y => x.1 < y.1) ∧ ∀ c ∈ m, c.2 ≠ unlisted := by
  simp [wf]

theorem erase_eq_filter (a : Nat) (m : Memory) : erase a m = m.filter fun c => decide (c.1 ≠ a) := by
  induction m with
  | nil => rfl
  | cons c m ih =>
    obtain ⟨k, v⟩ := c
    by_cases h : k = a <;> simp [erase, h, ih]

theorem mem_insert_iff (a : Nat) (b : Byte) (m : Memory) (c : Host.Cell) :
    c ∈ insert a b m ↔ c = (a, b) ∨ c ∈ m := by
  induction m with
  | nil => simp [insert]
  | cons d m ih =>
    obtain ⟨k, v⟩ := d
    by_cases h : a < k
    · simp [insert, h]
    · simp only [insert, h, if_false, List.mem_cons, ih]; tauto

theorem insert_sorted (a : Nat) (b : Byte) (m : Memory) (ha : Absent a m)
    (h : m.Pairwise fun x y => x.1 < y.1) : (insert a b m).Pairwise fun x y => x.1 < y.1 := by
  induction m with
  | nil => simp [insert]
  | cons d m ih =>
    obtain ⟨k, v⟩ := d
    rw [List.pairwise_cons] at h
    have hk : k ≠ a := ha (k, v) (by simp)
    by_cases hlt : a < k
    · simp only [insert, hlt, if_true, List.pairwise_cons, List.mem_cons]
      refine ⟨?_, h⟩
      rintro c (rfl | hc)
      · exact hlt
      · exact lt_trans hlt (h.1 c hc)
    · simp only [insert, hlt, if_false, List.pairwise_cons]
      refine ⟨fun c hc => ?_, ih (fun c hc => ha c (by simp [hc])) h.2⟩
      rcases (mem_insert_iff a b m c).1 hc with rfl | hc
      · show k < a; omega
      · exact h.1 c hc

/-- A write keeps the canonical form. -/
theorem wf_write (m : Memory) (a : Nat) (b : Byte) (h : wf m = true) : wf (write m a b) = true := by
  rw [wf_iff] at h ⊢
  have he : (erase a m).Pairwise (fun x y => x.1 < y.1) ∧ ∀ c ∈ erase a m, c.2 ≠ unlisted := by
    rw [erase_eq_filter]
    exact ⟨h.1.filter _, fun c hc => h.2 c (List.mem_of_mem_filter hc)⟩
  unfold write
  split
  · exact he
  · next hb =>
    refine ⟨insert_sorted a b _ (absent_erase a m) he.1, fun c hc => ?_⟩
    rcases (mem_insert_iff a b _ c).1 hc with rfl | hc
    · exact hb
    · exact he.2 c hc

/-- A write lists no address but the old ones and its own. -/
theorem mem_write {m : Memory} {a : Nat} {b : Byte} {c : Host.Cell} (h : c ∈ write m a b) :
    c = (a, b) ∨ c ∈ m := by
  unfold write at h
  split at h
  · rw [erase_eq_filter] at h; exact .inr (List.mem_of_mem_filter h)
  · rcases (mem_insert_iff a b _ c).1 h with rfl | h
    · exact .inl rfl
    · rw [erase_eq_filter] at h; exact .inr (List.mem_of_mem_filter h)

/-- Memories in canonical form that read the same everywhere are the same list. -/
theorem ext_of_wf : ∀ {m m' : Memory}, wf m = true → wf m' = true → (∀ a, read m a = read m' a) → m = m'
  | [], [], _, _, _ => rfl
  | [], (k, v) :: m', _, h', h => by
    have := h k
    rw [wf_iff] at h'
    simp [read] at this
    exact absurd this.symm (h'.2 (k, v) (by simp))
  | (k, v) :: m, [], h', _, h => by
    have := h k
    rw [wf_iff] at h'
    simp [read] at this
    exact absurd this (h'.2 (k, v) (by simp))
  | (k, v) :: m, (k', v') :: m', hw, hw', h => by
    have outside : ∀ (n : Memory) (x : Nat), (∀ c ∈ n, x < c.1) → read n x = unlisted := by
      intro n x hn
      induction n with
      | nil => rfl
      | cons c n ih =>
        obtain ⟨j, w⟩ := c
        have : j ≠ x := Nat.ne_of_gt (hn (j, w) (by simp))
        simp only [read, this, if_false]
        exact ih fun c hc => hn c (by simp [hc])
    rw [wf_iff] at hw hw'
    obtain ⟨hs, hv⟩ := hw
    obtain ⟨hs', hv'⟩ := hw'
    rw [List.pairwise_cons] at hs hs'
    have hkk : k = k' := by
      rcases Nat.lt_trichotomy k k' with hlt | heq | hgt
      · exfalso
        have h1 := h k
        rw [outside ((k', v') :: m') k (by
          intro c hc; rcases List.mem_cons.1 hc with rfl | hc
          · exact hlt
          · exact lt_trans hlt (hs'.1 c hc))] at h1
        simp [read] at h1
        exact hv (k, v) (by simp) h1
      · exact heq
      · exfalso
        have h1 := h k'
        rw [outside ((k, v) :: m) k' (by
          intro c hc; rcases List.mem_cons.1 hc with rfl | hc
          · exact hgt
          · exact lt_trans hgt (hs.1 c hc))] at h1
        simp [read] at h1
        exact hv' (k', v') (by simp) h1.symm
    subst hkk
    have hvv : v = v' := by simpa [read] using h k
    subst hvv
    have htail : m = m' := by
      apply ext_of_wf
      · rw [wf_iff]; exact ⟨hs.2, fun c hc => hv c (by simp [hc])⟩
      · rw [wf_iff]; exact ⟨hs'.2, fun c hc => hv' c (by simp [hc])⟩
      · intro a
        by_cases ha : a = k
        · subst ha; rw [outside m a hs.1, outside m' a hs'.1]
        · simpa [read, Ne.symm ha] using h a
    rw [htail]

/-! ### Byte sequences -/

@[simp] theorem length_readBytes (m : Memory) (a n : Nat) : (readBytes m a n).length = n := by
  induction n generalizing a with
  | zero => rfl
  | succ n ih => simp [readBytes, ih]

@[simp] theorem getElem_readBytes (m : Memory) (a n i : Nat) (h : i < (readBytes m a n).length) :
    (readBytes m a n)[i] = read m (a + i) := by
  induction n generalizing a i with
  | zero => simp at h
  | succ n ih =>
    cases i with
    | zero => rfl
    | succ i =>
      simp only [readBytes, List.getElem_cons_succ, ih]
      congr 1; omega

theorem readBytes_congr {m m' : Memory} {a n : Nat} (h : ∀ i < n, read m (a + i) = read m' (a + i)) :
    readBytes m a n = readBytes m' a n := by
  apply List.ext_getElem
  · simp
  · intro i h1 h2; simpa using h i (by simpa using h1)

theorem readBytes_add (m : Memory) (a n k : Nat) :
    readBytes m a (n + k) = readBytes m a n ++ readBytes m (a + n) k := by
  induction n generalizing a with
  | zero => simp [readBytes]
  | succ n ih =>
    rw [Nat.succ_add, readBytes, readBytes, ih, List.cons_append]
    congr 3; omega

theorem read_writeBytes (m : Memory) (a : Nat) (bs : List Byte) (x : Nat) :
    read (writeBytes m a bs) x = if h : a ≤ x ∧ x < a + bs.length then bs[x - a]'(by omega) else read m x := by
  induction bs generalizing m a with
  | nil => simp [writeBytes]
  | cons b bs ih =>
    rw [writeBytes, ih]
    by_cases h1 : a + 1 ≤ x ∧ x < a + 1 + bs.length
    · have h2 : a ≤ x ∧ x < a + (b :: bs).length := by simp; omega
      rw [dif_pos h1, dif_pos h2]
      have : x - a = (x - (a + 1)) + 1 := by omega
      simp [this]
    · rw [dif_neg h1, read_write]
      by_cases h3 : x = a
      · subst h3; simp
      · have h2 : ¬ (a ≤ x ∧ x < a + (b :: bs).length) := by simp; omega
        rw [if_neg h3, dif_neg h2]

theorem wf_writeBytes (m : Memory) (a : Nat) (bs : List Byte) (h : wf m = true) : wf (writeBytes m a bs) = true := by
  induction bs generalizing m a with
  | nil => exact h
  | cons b bs ih => exact ih _ _ (wf_write m a b h)

theorem mem_writeBytes {m : Memory} {a : Nat} {bs : List Byte} {c : Host.Cell} (h : c ∈ writeBytes m a bs) :
    (a ≤ c.1 ∧ c.1 < a + bs.length) ∨ c ∈ m := by
  induction bs generalizing m a with
  | nil => exact .inr h
  | cons b bs ih =>
    rcases ih h with h | h
    · left; simp only [List.length_cons]; omega
    · rcases mem_write h with rfl | h
      · left; simp
      · exact .inr h

/-- Reading back what was written. -/
theorem readBytes_writeBytes (m : Memory) (a : Nat) (bs : List Byte) :
    readBytes (writeBytes m a bs) a bs.length = bs := by
  apply List.ext_getElem
  · simp
  · intro i h1 h2
    rw [getElem_readBytes, read_writeBytes, dif_pos (by omega)]
    simp

/-- The first byte of a non-empty read. -/
theorem readBytes_succ (m : Memory) (a n : Nat) (h : 0 < n) :
    readBytes m a n = read m a :: readBytes m (a + 1) (n - 1) := by
  obtain ⟨k, rfl⟩ := Nat.exists_eq_succ_of_ne_zero (Nat.pos_iff_ne_zero.1 h)
  rfl

/-- A shorter read is the beginning of a longer one. -/
theorem take_readBytes (m : Memory) (a n k : Nat) : (readBytes m a n).take k = readBytes m a (min k n) := by
  rcases Nat.le_total k n with h | h
  · obtain ⟨r, rfl⟩ := Nat.exists_eq_add_of_le h
    rw [readBytes_add, Nat.min_eq_left h, List.take_left' (by simp)]
  · rw [List.take_of_length_le (by simpa using h), Nat.min_eq_right h]

/-- Writing behind what is read: the bytes read are followed by the bytes written. -/
theorem readBytes_concat (m : Memory) (n : Nat) (bs : List Byte) :
    readBytes (writeBytes m n bs) 0 (n + bs.length) = readBytes m 0 n ++ bs := by
  rw [readBytes_add, Nat.zero_add, readBytes_writeBytes]
  congr 1
  apply readBytes_congr
  intro i hi
  rw [read_writeBytes, dif_neg (by omega)]

/-- Two writes of bytes, one behind the other. -/
theorem writeBytes_append (m : Memory) (a : Nat) (xs ys : List Byte) :
    writeBytes m a (xs ++ ys) = writeBytes (writeBytes m a xs) (a + xs.length) ys := by
  induction xs generalizing m a with
  | nil => simp [writeBytes]
  | cons x xs ih =>
    rw [List.cons_append, writeBytes, writeBytes, ih, List.length_cons]
    congr 1; omega

/-- What a write of bytes leaves alone. -/
theorem read_writeBytes_outside (m : Memory) (a : Nat) (bs : List Byte) {x : Nat} (h : x < a ∨ a + bs.length ≤ x) :
    read (writeBytes m a bs) x = read m x := by
  rw [read_writeBytes, dif_neg (by omega)]

end Sys2Proof.Machine.Memory
end

