-- ==== Sys2Proof/Laws/State.lean ====
section
/-!
SUPPORT. For each operation that updates the state, each field after it: true by unfolding, tagged simp, so that no
later proof unfolds a record update.
-/

namespace Sys2Proof.Machine

variable (s : State)

@[simp] theorem emit_status (b : Byte) : (emit b s).status = s.status := rfl
@[simp] theorem emit_cmd (b : Byte) : (emit b s).cmd = s.cmd := rfl
@[simp] theorem emit_inLen (b : Byte) : (emit b s).inLen = s.inLen := rfl
@[simp] theorem emit_input (b : Byte) : (emit b s).input = s.input := rfl
@[simp] theorem emit_outLen (b : Byte) : (emit b s).outLen = s.outLen + 1 := rfl
@[simp] theorem emit_output (b : Byte) : (emit b s).output = Memory.write s.output s.outLen b := rfl
@[simp] theorem emit_hdr (b : Byte) : (emit b s).hdr = s.hdr := rfl
@[simp] theorem emit_hdrDefined (b : Byte) : (emit b s).hdrDefined = s.hdrDefined := rfl
@[simp] theorem emit_win (b : Byte) : (emit b s).win = s.win := rfl
@[simp] theorem emit_dec (b : Byte) : (emit b s).dec = s.dec := rfl
@[simp] theorem emit_enc (b : Byte) : (emit b s).enc = s.enc := rfl
@[simp] theorem emit_sumOut (b : Byte) : (emit b s).sumOut = s.sumOut := rfl
@[simp] theorem emit_byteOut (b : Byte) : (emit b s).byteOut = s.byteOut := rfl
@[simp] theorem emit_freeIndex (b : Byte) : (emit b s).freeIndex = s.freeIndex := rfl
@[simp] theorem emit_activity (b : Byte) : (emit b s).activity = s.activity := rfl

@[simp] theorem dictAppend_status (b : Byte) : (dictAppend b s).status = s.status := rfl
@[simp] theorem dictAppend_cmd (b : Byte) : (dictAppend b s).cmd = s.cmd := rfl
@[simp] theorem dictAppend_inLen (b : Byte) : (dictAppend b s).inLen = s.inLen := rfl
@[simp] theorem dictAppend_input (b : Byte) : (dictAppend b s).input = s.input := rfl
@[simp] theorem dictAppend_outLen (b : Byte) : (dictAppend b s).outLen = s.outLen := rfl
@[simp] theorem dictAppend_output (b : Byte) : (dictAppend b s).output = s.output := rfl
@[simp] theorem dictAppend_hdr (b : Byte) : (dictAppend b s).hdr = s.hdr := rfl
@[simp] theorem dictAppend_hdrDefined (b : Byte) : (dictAppend b s).hdrDefined = s.hdrDefined := rfl
@[simp] theorem dictAppend_win (b : Byte) : (dictAppend b s).win = s.win.append b := rfl
@[simp] theorem dictAppend_dec (b : Byte) : (dictAppend b s).dec = s.dec := rfl
@[simp] theorem dictAppend_enc (b : Byte) : (dictAppend b s).enc = s.enc := rfl
@[simp] theorem dictAppend_sumOut (b : Byte) : (dictAppend b s).sumOut = s.sumOut := rfl
@[simp] theorem dictAppend_byteOut (b : Byte) : (dictAppend b s).byteOut = s.byteOut := rfl
@[simp] theorem dictAppend_freeIndex (b : Byte) : (dictAppend b s).freeIndex = s.freeIndex := rfl
@[simp] theorem dictAppend_activity (b : Byte) : (dictAppend b s).activity = s.activity := rfl

@[simp] theorem dictInit_status (P : Params) : (dictInit P s).status = s.status := rfl
@[simp] theorem dictInit_cmd (P : Params) : (dictInit P s).cmd = s.cmd := rfl
@[simp] theorem dictInit_inLen (P : Params) : (dictInit P s).inLen = s.inLen := rfl
@[simp] theorem dictInit_input (P : Params) : (dictInit P s).input = s.input := rfl
@[simp] theorem dictInit_outLen (P : Params) : (dictInit P s).outLen = s.outLen := rfl
@[simp] theorem dictInit_output (P : Params) : (dictInit P s).output = s.output := rfl
@[simp] theorem dictInit_hdr (P : Params) : (dictInit P s).hdr = s.hdr := rfl
@[simp] theorem dictInit_hdrDefined (P : Params) : (dictInit P s).hdrDefined = s.hdrDefined := rfl
@[simp] theorem dictInit_win (P : Params) : (dictInit P s).win = Window.init P := rfl
@[simp] theorem dictInit_dec (P : Params) : (dictInit P s).dec = s.dec := rfl
@[simp] theorem dictInit_enc (P : Params) : (dictInit P s).enc = s.enc := rfl
@[simp] theorem dictInit_sumOut (P : Params) : (dictInit P s).sumOut = s.sumOut := rfl
@[simp] theorem dictInit_byteOut (P : Params) : (dictInit P s).byteOut = s.byteOut := rfl
@[simp] theorem dictInit_freeIndex (P : Params) : (dictInit P s).freeIndex = s.freeIndex := rfl
@[simp] theorem dictInit_activity (P : Params) : (dictInit P s).activity = s.activity := rfl

@[simp] theorem startCommand_status : (startCommand s).status = ⟨.busy, none, false, false⟩ := rfl
@[simp] theorem startCommand_cmd : (startCommand s).cmd = s.cmd := rfl
@[simp] theorem startCommand_inLen : (startCommand s).inLen = s.inLen := rfl
@[simp] theorem startCommand_input : (startCommand s).input = s.input := rfl
@[simp] theorem startCommand_outLen : (startCommand s).outLen = 0 := rfl
@[simp] theorem startCommand_output : (startCommand s).output = s.output := rfl
@[simp] theorem startCommand_hdr : (startCommand s).hdr = s.hdr := rfl
@[simp] theorem startCommand_hdrDefined : (startCommand s).hdrDefined = s.hdrDefined := rfl
@[simp] theorem startCommand_win : (startCommand s).win = s.win := rfl
@[simp] theorem startCommand_dec : (startCommand s).dec = s.dec := rfl
@[simp] theorem startCommand_enc : (startCommand s).enc = s.enc := rfl
@[simp] theorem startCommand_sumOut : (startCommand s).sumOut = s.sumOut := rfl
@[simp] theorem startCommand_byteOut : (startCommand s).byteOut = s.byteOut := rfl
@[simp] theorem startCommand_freeIndex : (startCommand s).freeIndex = s.freeIndex := rfl
@[simp] theorem startCommand_activity : (startCommand s).activity = s.activity := rfl

@[simp] theorem finish_status : (finish s).status = { s.status with state := .done } := rfl
@[simp] theorem finish_cmd : (finish s).cmd = s.cmd := rfl
@[simp] theorem finish_inLen : (finish s).inLen = s.inLen := rfl
@[simp] theorem finish_input : (finish s).input = s.input := rfl
@[simp] theorem finish_outLen : (finish s).outLen = s.outLen := rfl
@[simp] theorem finish_output : (finish s).output = s.output := rfl
@[simp] theorem finish_hdr : (finish s).hdr = s.hdr := rfl
@[simp] theorem finish_hdrDefined : (finish s).hdrDefined = s.hdrDefined := rfl
@[simp] theorem finish_win : (finish s).win = s.win := rfl
@[simp] theorem finish_dec : (finish s).dec = s.dec := rfl
@[simp] theorem finish_enc : (finish s).enc = s.enc := rfl
@[simp] theorem finish_sumOut : (finish s).sumOut = s.sumOut := rfl
@[simp] theorem finish_byteOut : (finish s).byteOut = s.byteOut := rfl
@[simp] theorem finish_freeIndex : (finish s).freeIndex = s.freeIndex := rfl
@[simp] theorem finish_activity : (finish s).activity = .idle := rfl

@[simp] theorem raise_status (e : Exc) : (raise e s).status = { s.status with state := .error, err := some e } := rfl
@[simp] theorem raise_cmd (e : Exc) : (raise e s).cmd = s.cmd := rfl
@[simp] theorem raise_inLen (e : Exc) : (raise e s).inLen = s.inLen := rfl
@[simp] theorem raise_input (e : Exc) : (raise e s).input = s.input := rfl
@[simp] theorem raise_outLen (e : Exc) : (raise e s).outLen = s.outLen := rfl
@[simp] theorem raise_output (e : Exc) : (raise e s).output = s.output := rfl
@[simp] theorem raise_hdr (e : Exc) : (raise e s).hdr = s.hdr := rfl
@[simp] theorem raise_hdrDefined (e : Exc) : (raise e s).hdrDefined = s.hdrDefined := rfl
@[simp] theorem raise_win (e : Exc) : (raise e s).win = s.win := rfl
@[simp] theorem raise_dec (e : Exc) : (raise e s).dec = s.dec := rfl
@[simp] theorem raise_enc (e : Exc) : (raise e s).enc = s.enc := rfl
@[simp] theorem raise_sumOut (e : Exc) : (raise e s).sumOut = s.sumOut := rfl
@[simp] theorem raise_byteOut (e : Exc) : (raise e s).byteOut = s.byteOut := rfl
@[simp] theorem raise_freeIndex (e : Exc) : (raise e s).freeIndex = s.freeIndex := rfl
@[simp] theorem raise_activity (e : Exc) : (raise e s).activity = .idle := rfl

@[simp] theorem noteShort_status (f : Bool) : (noteShort f s).status = { s.status with short := s.status.short || f } := rfl
@[simp] theorem noteShort_cmd (f : Bool) : (noteShort f s).cmd = s.cmd := rfl
@[simp] theorem noteShort_inLen (f : Bool) : (noteShort f s).inLen = s.inLen := rfl
@[simp] theorem noteShort_input (f : Bool) : (noteShort f s).input = s.input := rfl
@[simp] theorem noteShort_outLen (f : Bool) : (noteShort f s).outLen = s.outLen := rfl
@[simp] theorem noteShort_output (f : Bool) : (noteShort f s).output = s.output := rfl
@[simp] theorem noteShort_hdr (f : Bool) : (noteShort f s).hdr = s.hdr := rfl
@[simp] theorem noteShort_hdrDefined (f : Bool) : (noteShort f s).hdrDefined = s.hdrDefined := rfl
@[simp] theorem noteShort_win (f : Bool) : (noteShort f s).win = s.win := rfl
@[simp] theorem noteShort_dec (f : Bool) : (noteShort f s).dec = s.dec := rfl
@[simp] theorem noteShort_enc (f : Bool) : (noteShort f s).enc = s.enc := rfl
@[simp] theorem noteShort_sumOut (f : Bool) : (noteShort f s).sumOut = s.sumOut := rfl
@[simp] theorem noteShort_byteOut (f : Bool) : (noteShort f s).byteOut = s.byteOut := rfl
@[simp] theorem noteShort_freeIndex (f : Bool) : (noteShort f s).freeIndex = s.freeIndex := rfl
@[simp] theorem noteShort_activity (f : Bool) : (noteShort f s).activity = s.activity := rfl

@[simp] theorem noteEnd_status : (noteEnd s).status = { s.status with endSeen := true } := rfl
@[simp] theorem noteEnd_cmd : (noteEnd s).cmd = s.cmd := rfl
@[simp] theorem noteEnd_inLen : (noteEnd s).inLen = s.inLen := rfl
@[simp] theorem noteEnd_input : (noteEnd s).input = s.input := rfl
@[simp] theorem noteEnd_outLen : (noteEnd s).outLen = s.outLen := rfl
@[simp] theorem noteEnd_output : (noteEnd s).output = s.output := rfl
@[simp] theorem noteEnd_hdr : (noteEnd s).hdr = s.hdr := rfl
@[simp] theorem noteEnd_hdrDefined : (noteEnd s).hdrDefined = s.hdrDefined := rfl
@[simp] theorem noteEnd_win : (noteEnd s).win = s.win := rfl
@[simp] theorem noteEnd_dec : (noteEnd s).dec = s.dec := rfl
@[simp] theorem noteEnd_enc : (noteEnd s).enc = s.enc := rfl
@[simp] theorem noteEnd_sumOut : (noteEnd s).sumOut = s.sumOut := rfl
@[simp] theorem noteEnd_byteOut : (noteEnd s).byteOut = s.byteOut := rfl
@[simp] theorem noteEnd_freeIndex : (noteEnd s).freeIndex = s.freeIndex := rfl
@[simp] theorem noteEnd_activity : (noteEnd s).activity = s.activity := rfl

@[simp] theorem nextBit_status : (nextBit s).status = s.status := rfl
@[simp] theorem nextBit_cmd : (nextBit s).cmd = s.cmd := rfl
@[simp] theorem nextBit_inLen : (nextBit s).inLen = s.inLen := rfl
@[simp] theorem nextBit_input : (nextBit s).input = s.input := rfl
@[simp] theorem nextBit_outLen : (nextBit s).outLen = s.outLen := rfl
@[simp] theorem nextBit_output : (nextBit s).output = s.output := rfl
@[simp] theorem nextBit_hdr : (nextBit s).hdr = s.hdr := rfl
@[simp] theorem nextBit_hdrDefined : (nextBit s).hdrDefined = s.hdrDefined := rfl
@[simp] theorem nextBit_win : (nextBit s).win = s.win := rfl
@[simp] theorem nextBit_dec : (nextBit s).dec = { s.dec with bitc := s.dec.bitc + 1 } := rfl
@[simp] theorem nextBit_enc : (nextBit s).enc = s.enc := rfl
@[simp] theorem nextBit_sumOut : (nextBit s).sumOut = s.sumOut := rfl
@[simp] theorem nextBit_byteOut : (nextBit s).byteOut = s.byteOut := rfl
@[simp] theorem nextBit_freeIndex : (nextBit s).freeIndex = s.freeIndex := rfl
@[simp] theorem nextBit_activity : (nextBit s).activity = s.activity := rfl

@[simp] theorem latchToken_status (off : Pos) (lc : LenCode) : (latchToken off lc s).status = s.status := rfl
@[simp] theorem latchToken_cmd (off : Pos) (lc : LenCode) : (latchToken off lc s).cmd = s.cmd := rfl
@[simp] theorem latchToken_inLen (off : Pos) (lc : LenCode) : (latchToken off lc s).inLen = s.inLen := rfl
@[simp] theorem latchToken_input (off : Pos) (lc : LenCode) : (latchToken off lc s).input = s.input := rfl
@[simp] theorem latchToken_outLen (off : Pos) (lc : LenCode) : (latchToken off lc s).outLen = s.outLen := rfl
@[simp] theorem latchToken_output (off : Pos) (lc : LenCode) : (latchToken off lc s).output = s.output := rfl
@[simp] theorem latchToken_hdr (off : Pos) (lc : LenCode) : (latchToken off lc s).hdr = s.hdr := rfl
@[simp] theorem latchToken_hdrDefined (off : Pos) (lc : LenCode) : (latchToken off lc s).hdrDefined = s.hdrDefined := rfl
@[simp] theorem latchToken_win (off : Pos) (lc : LenCode) : (latchToken off lc s).win = s.win := rfl
@[simp] theorem latchToken_dec (off : Pos) (lc : LenCode) : (latchToken off lc s).dec = { s.dec with tok := mkToken off lc, ip := s.dec.ip + 2, off := off, lc := lc } := rfl
@[simp] theorem latchToken_enc (off : Pos) (lc : LenCode) : (latchToken off lc s).enc = s.enc := rfl
@[simp] theorem latchToken_sumOut (off : Pos) (lc : LenCode) : (latchToken off lc s).sumOut = s.sumOut := rfl
@[simp] theorem latchToken_byteOut (off : Pos) (lc : LenCode) : (latchToken off lc s).byteOut = s.byteOut := rfl
@[simp] theorem latchToken_freeIndex (off : Pos) (lc : LenCode) : (latchToken off lc s).freeIndex = s.freeIndex := rfl
@[simp] theorem latchToken_activity (off : Pos) (lc : LenCode) : (latchToken off lc s).activity = s.activity := rfl

@[simp] theorem ctl_status (b : Byte) : (ctl b s).status = s.status := rfl
@[simp] theorem ctl_cmd (b : Byte) : (ctl b s).cmd = s.cmd := rfl
@[simp] theorem ctl_inLen (b : Byte) : (ctl b s).inLen = s.inLen := rfl
@[simp] theorem ctl_input (b : Byte) : (ctl b s).input = s.input := rfl
@[simp] theorem ctl_outLen (b : Byte) : (ctl b s).outLen = s.outLen := rfl
@[simp] theorem ctl_output (b : Byte) : (ctl b s).output = s.output := rfl
@[simp] theorem ctl_hdr (b : Byte) : (ctl b s).hdr = s.hdr := rfl
@[simp] theorem ctl_hdrDefined (b : Byte) : (ctl b s).hdrDefined = s.hdrDefined := rfl
@[simp] theorem ctl_win (b : Byte) : (ctl b s).win = s.win := rfl
@[simp] theorem ctl_dec (b : Byte) : (ctl b s).dec = { s.dec with ctrl := b, ip := s.dec.ip + 1, bitc := 0 } := rfl
@[simp] theorem ctl_enc (b : Byte) : (ctl b s).enc = s.enc := rfl
@[simp] theorem ctl_sumOut (b : Byte) : (ctl b s).sumOut = s.sumOut := rfl
@[simp] theorem ctl_byteOut (b : Byte) : (ctl b s).byteOut = s.byteOut := rfl
@[simp] theorem ctl_freeIndex (b : Byte) : (ctl b s).freeIndex = s.freeIndex := rfl
@[simp] theorem ctl_activity (b : Byte) : (ctl b s).activity = s.activity := rfl

@[simp] theorem lit_status (b : Byte) : (lit b s).status = s.status := rfl
@[simp] theorem lit_cmd (b : Byte) : (lit b s).cmd = s.cmd := rfl
@[simp] theorem lit_inLen (b : Byte) : (lit b s).inLen = s.inLen := rfl
@[simp] theorem lit_input (b : Byte) : (lit b s).input = s.input := rfl
@[simp] theorem lit_outLen (b : Byte) : (lit b s).outLen = s.outLen + 1 := rfl
@[simp] theorem lit_output (b : Byte) : (lit b s).output = Memory.write s.output s.outLen b := rfl
@[simp] theorem lit_hdr (b : Byte) : (lit b s).hdr = s.hdr := rfl
@[simp] theorem lit_hdrDefined (b : Byte) : (lit b s).hdrDefined = s.hdrDefined := rfl
@[simp] theorem lit_win (b : Byte) : (lit b s).win = s.win.append b := rfl
@[simp] theorem lit_dec (b : Byte) : (lit b s).dec = { s.dec with ip := s.dec.ip + 1 } := rfl
@[simp] theorem lit_enc (b : Byte) : (lit b s).enc = s.enc := rfl
@[simp] theorem lit_sumOut (b : Byte) : (lit b s).sumOut = s.sumOut := rfl
@[simp] theorem lit_byteOut (b : Byte) : (lit b s).byteOut = s.byteOut := rfl
@[simp] theorem lit_freeIndex (b : Byte) : (lit b s).freeIndex = s.freeIndex := rfl
@[simp] theorem lit_activity (b : Byte) : (lit b s).activity = s.activity := rfl

@[simp] theorem copyByte_status (off : Pos) : (copyByte off s).status = s.status := rfl
@[simp] theorem copyByte_cmd (off : Pos) : (copyByte off s).cmd = s.cmd := rfl
@[simp] theorem copyByte_inLen (off : Pos) : (copyByte off s).inLen = s.inLen := rfl
@[simp] theorem copyByte_input (off : Pos) : (copyByte off s).input = s.input := rfl
@[simp] theorem copyByte_outLen (off : Pos) : (copyByte off s).outLen = s.outLen + 1 := rfl
@[simp] theorem copyByte_output (off : Pos) : (copyByte off s).output = Memory.write s.output s.outLen (s.win.read (off.toNat + s.dec.step.toNat)) := rfl
@[simp] theorem copyByte_hdr (off : Pos) : (copyByte off s).hdr = s.hdr := rfl
@[simp] theorem copyByte_hdrDefined (off : Pos) : (copyByte off s).hdrDefined = s.hdrDefined := rfl
@[simp] theorem copyByte_win (off : Pos) : (copyByte off s).win = s.win.append (s.win.read (off.toNat + s.dec.step.toNat)) := rfl
@[simp] theorem copyByte_dec (off : Pos) : (copyByte off s).dec = { s.dec with step := s.dec.step + 1 } := rfl
@[simp] theorem copyByte_enc (off : Pos) : (copyByte off s).enc = s.enc := rfl
@[simp] theorem copyByte_sumOut (off : Pos) : (copyByte off s).sumOut = s.sumOut := rfl
@[simp] theorem copyByte_byteOut (off : Pos) : (copyByte off s).byteOut = s.byteOut := rfl
@[simp] theorem copyByte_freeIndex (off : Pos) : (copyByte off s).freeIndex = s.freeIndex := rfl
@[simp] theorem copyByte_activity (off : Pos) : (copyByte off s).activity = s.activity := rfl

@[simp] theorem openStream_status (P : Params) : (openStream P s).status = s.status := rfl
@[simp] theorem openStream_cmd (P : Params) : (openStream P s).cmd = s.cmd := rfl
@[simp] theorem openStream_inLen (P : Params) : (openStream P s).inLen = s.inLen := rfl
@[simp] theorem openStream_input (P : Params) : (openStream P s).input = s.input := rfl
@[simp] theorem openStream_outLen (P : Params) : (openStream P s).outLen = s.outLen := rfl
@[simp] theorem openStream_output (P : Params) : (openStream P s).output = s.output := rfl
@[simp] theorem openStream_hdr (P : Params) : (openStream P s).hdr = s.hdr := rfl
@[simp] theorem openStream_hdrDefined (P : Params) : (openStream P s).hdrDefined = s.hdrDefined := rfl
@[simp] theorem openStream_win (P : Params) : (openStream P s).win = Window.init P := rfl
@[simp] theorem openStream_dec (P : Params) : (openStream P s).dec = { s.dec with ip := BitVec.ofNat 32 headerSize, bitc := 8 } := rfl
@[simp] theorem openStream_enc (P : Params) : (openStream P s).enc = s.enc := rfl
@[simp] theorem openStream_sumOut (P : Params) : (openStream P s).sumOut = s.sumOut := rfl
@[simp] theorem openStream_byteOut (P : Params) : (openStream P s).byteOut = s.byteOut := rfl
@[simp] theorem openStream_freeIndex (P : Params) : (openStream P s).freeIndex = s.freeIndex := rfl
@[simp] theorem openStream_activity (P : Params) : (openStream P s).activity = s.activity := rfl

@[simp] theorem ckgen_status (P : Params) : (ckgen P s).status = s.status := rfl
@[simp] theorem ckgen_cmd (P : Params) : (ckgen P s).cmd = s.cmd := rfl
@[simp] theorem ckgen_inLen (P : Params) : (ckgen P s).inLen = s.inLen := rfl
@[simp] theorem ckgen_input (P : Params) : (ckgen P s).input = s.input := rfl
@[simp] theorem ckgen_outLen (P : Params) : (ckgen P s).outLen = s.outLen := rfl
@[simp] theorem ckgen_output (P : Params) : (ckgen P s).output = s.output := rfl
@[simp] theorem ckgen_hdr (P : Params) : (ckgen P s).hdr = { s.hdr with crc := P.cksum s.enc.payload } := rfl
@[simp] theorem ckgen_hdrDefined (P : Params) : (ckgen P s).hdrDefined = s.hdrDefined := rfl
@[simp] theorem ckgen_win (P : Params) : (ckgen P s).win = s.win := rfl
@[simp] theorem ckgen_dec (P : Params) : (ckgen P s).dec = s.dec := rfl
@[simp] theorem ckgen_enc (P : Params) : (ckgen P s).enc = s.enc := rfl
@[simp] theorem ckgen_sumOut (P : Params) : (ckgen P s).sumOut = s.sumOut := rfl
@[simp] theorem ckgen_byteOut (P : Params) : (ckgen P s).byteOut = s.byteOut := rfl
@[simp] theorem ckgen_freeIndex (P : Params) : (ckgen P s).freeIndex = s.freeIndex := rfl
@[simp] theorem ckgen_activity (P : Params) : (ckgen P s).activity = s.activity := rfl

@[simp] theorem emitRef_status : (emitRef s).status = s.status := rfl
@[simp] theorem emitRef_cmd : (emitRef s).cmd = s.cmd := rfl
@[simp] theorem emitRef_inLen : (emitRef s).inLen = s.inLen := rfl
@[simp] theorem emitRef_input : (emitRef s).input = s.input := rfl
@[simp] theorem emitRef_outLen : (emitRef s).outLen = s.outLen := rfl
@[simp] theorem emitRef_output : (emitRef s).output = s.output := rfl
@[simp] theorem emitRef_hdr : (emitRef s).hdr = s.hdr := rfl
@[simp] theorem emitRef_hdrDefined : (emitRef s).hdrDefined = s.hdrDefined := rfl
@[simp] theorem emitRef_win : (emitRef s).win = s.win := rfl
@[simp] theorem emitRef_dec : (emitRef s).dec = s.dec := rfl
@[simp] theorem emitRef_sumOut : (emitRef s).sumOut = s.sumOut := rfl
@[simp] theorem emitRef_byteOut : (emitRef s).byteOut = s.byteOut := rfl
@[simp] theorem emitRef_freeIndex : (emitRef s).freeIndex = s.freeIndex := rfl
@[simp] theorem emitRef_activity : (emitRef s).activity = s.activity := rfl

@[simp] theorem flush_status : (flush s).status = s.status := rfl
@[simp] theorem flush_cmd : (flush s).cmd = s.cmd := rfl
@[simp] theorem flush_inLen : (flush s).inLen = s.inLen := rfl
@[simp] theorem flush_input : (flush s).input = s.input := rfl
@[simp] theorem flush_outLen : (flush s).outLen = s.outLen := rfl
@[simp] theorem flush_output : (flush s).output = s.output := rfl
@[simp] theorem flush_hdr : (flush s).hdr = s.hdr := rfl
@[simp] theorem flush_hdrDefined : (flush s).hdrDefined = s.hdrDefined := rfl
@[simp] theorem flush_win : (flush s).win = s.win := rfl
@[simp] theorem flush_dec : (flush s).dec = s.dec := rfl
@[simp] theorem flush_enc : (flush s).enc = { s.enc with payload := s.enc.payload ++ s.enc.ectrl :: s.enc.tokbuf, ectrl := 0, ebit := 0, tokbuf := [], toklen := 0 } := rfl
@[simp] theorem flush_sumOut : (flush s).sumOut = s.sumOut := rfl
@[simp] theorem flush_byteOut : (flush s).byteOut = s.byteOut := rfl
@[simp] theorem flush_freeIndex : (flush s).freeIndex = s.freeIndex := rfl
@[simp] theorem flush_activity : (flush s).activity = s.activity := rfl

@[simp] theorem emitEnd_status : (emitEnd s).status = s.status := rfl
@[simp] theorem emitEnd_cmd : (emitEnd s).cmd = s.cmd := rfl
@[simp] theorem emitEnd_inLen : (emitEnd s).inLen = s.inLen := rfl
@[simp] theorem emitEnd_input : (emitEnd s).input = s.input := rfl
@[simp] theorem emitEnd_outLen : (emitEnd s).outLen = s.outLen := rfl
@[simp] theorem emitEnd_output : (emitEnd s).output = s.output := rfl
@[simp] theorem emitEnd_hdr : (emitEnd s).hdr = s.hdr := rfl
@[simp] theorem emitEnd_hdrDefined : (emitEnd s).hdrDefined = s.hdrDefined := rfl
@[simp] theorem emitEnd_win : (emitEnd s).win = s.win := rfl
@[simp] theorem emitEnd_dec : (emitEnd s).dec = s.dec := rfl
@[simp] theorem emitEnd_enc : (emitEnd s).enc = pushToken (bytesBe16 (mkToken s.win.wo 0)) true s.enc := rfl
@[simp] theorem emitEnd_sumOut : (emitEnd s).sumOut = s.sumOut := rfl
@[simp] theorem emitEnd_byteOut : (emitEnd s).byteOut = s.byteOut := rfl
@[simp] theorem emitEnd_freeIndex : (emitEnd s).freeIndex = s.freeIndex := rfl
@[simp] theorem emitEnd_activity : (emitEnd s).activity = s.activity := rfl

@[simp] theorem doMatch_status : (doMatch s).status = s.status := rfl
@[simp] theorem doMatch_cmd : (doMatch s).cmd = s.cmd := rfl
@[simp] theorem doMatch_inLen : (doMatch s).inLen = s.inLen := rfl
@[simp] theorem doMatch_input : (doMatch s).input = s.input := rfl
@[simp] theorem doMatch_outLen : (doMatch s).outLen = s.outLen := rfl
@[simp] theorem doMatch_output : (doMatch s).output = s.output := rfl
@[simp] theorem doMatch_hdr : (doMatch s).hdr = s.hdr := rfl
@[simp] theorem doMatch_hdrDefined : (doMatch s).hdrDefined = s.hdrDefined := rfl
@[simp] theorem doMatch_win : (doMatch s).win = (searchResult s).win := rfl
@[simp] theorem doMatch_dec : (doMatch s).dec = s.dec := rfl
@[simp] theorem doMatch_sumOut : (doMatch s).sumOut = s.sumOut := rfl
@[simp] theorem doMatch_byteOut : (doMatch s).byteOut = s.byteOut := rfl
@[simp] theorem doMatch_freeIndex : (doMatch s).freeIndex = s.freeIndex := rfl
@[simp] theorem doMatch_activity : (doMatch s).activity = s.activity := rfl

end Sys2Proof.Machine
end

