-- ==== Sys2Proof/Laws/Ops.lean ====
section
/-!
SUPPORT. What the shared operations do, once: the dictionary window, the output, and the end of a command.
-/

namespace Sys2Proof.Machine

/-! ### The dictionary window -/

namespace Window

@[simp] theorem append_wo (w : Window) (b : Byte) : (w.append b).wo = w.wo + 1 := rfl

theorem append_wo_toNat (w : Window) (b : Byte) : (w.append b).wo.toNat = (w.wo.toNat + 1) % 4096 := by
  simp [BitVec.toNat_add]

/-- A read after an append: the new byte at the old `WO`, every other position as before. -/
theorem read_append (w : Window) (b : Byte) (o : Nat) :
    (w.append b).read o = if o % 4096 = w.wo.toNat then b else w.read o := by
  simp [read, append, Memory.read_write, maxDictSize]

@[simp] theorem read_mod (w : Window) (o : Nat) : w.read (o % 4096) = w.read o := by
  simp [read, maxDictSize]

theorem read_congr (w : Window) {o o' : Nat} (h : o % 4096 = o' % 4096) : w.read o = w.read o' := by
  simp [read, maxDictSize, h]

/-- `DICT` within its 4096 positions and in canonical form. -/
def Good (w : Window) : Prop := Memory.wf w.mem = true ∧ ∀ c ∈ w.mem, c.1 < maxDictSize

theorem good_append {w : Window} (h : w.Good) (b : Byte) : (w.append b).Good := by
  refine ⟨Memory.wf_write _ _ _ h.1, fun c hc => ?_⟩
  rcases Memory.mem_write hc with rfl | hc
  · exact w.wo.isLt
  · exact h.2 c hc

theorem good_init (P : Params) : (Window.init P).Good := by
  refine ⟨Memory.wf_writeBytes _ _ _ Memory.wf_nil, fun c hc => ?_⟩
  rcases Memory.mem_writeBytes hc with h | h
  · have := h.2; simp [maxDictSize] at *; omega
  · simp at h

@[simp] theorem init_wo (P : Params) : (Window.init P).wo = 207 := rfl

/-- The window after `DictInit`: the seed, then `FILL` (R131). -/
theorem read_init (P : Params) (i : Nat) (h : i < 4096) :
    (Window.init P).read i = if h : i < 207 then P.initDict[i] else fill := by
  simp only [read, init, maxDictSize, Nat.mod_eq_of_lt h, Memory.read_writeBytes]
  by_cases hi : i < 207
  · simp [hi]
  · simp [hi, Memory.unlisted]

theorem appendAll_append (w : Window) (xs ys : List Byte) :
    w.appendAll (xs ++ ys) = (w.appendAll xs).appendAll ys := by
  induction xs generalizing w with
  | nil => rfl
  | cons x xs ih => exact ih _

@[simp] theorem appendAll_nil (w : Window) : w.appendAll [] = w := rfl

theorem appendAll_concat (w : Window) (xs : List Byte) (y : Byte) :
    w.appendAll (xs ++ [y]) = (w.appendAll xs).append y := by
  rw [appendAll_append]; rfl

theorem appendAll_wo (w : Window) (xs : List Byte) : (w.appendAll xs).wo = w.wo + BitVec.ofNat 12 xs.length := by
  induction xs generalizing w with
  | nil => simp
  | cons x xs ih =>
    rw [appendAll, ih, append_wo, List.length_cons]
    apply BitVec.eq_of_toNat_eq
    simp [BitVec.toNat_add, BitVec.toNat_ofNat]
    omega

theorem good_appendAll {w : Window} (h : w.Good) (xs : List Byte) : (w.appendAll xs).Good := by
  induction xs generalizing w with
  | nil => exact h
  | cons x xs ih => exact ih (good_append h x)

/-- A read after at most 4096 appends: the byte appended there, or what was there before. -/
theorem read_appendAll (w : Window) (xs : List Byte) (hx : xs.length ≤ 4096) (o : Nat) :
    (w.appendAll xs).read o =
      if h : (o + 4096 - w.wo.toNat) % 4096 < xs.length then xs[(o + 4096 - w.wo.toNat) % 4096] else w.read o := by
  induction xs using List.reverseRecOn with
  | nil => simp
  | append_singleton xs x ih =>
    simp only [List.length_append, List.length_singleton] at hx
    rw [appendAll_concat, read_append, ih (by omega), appendAll_wo]
    have hw := w.wo.isLt
    simp only [BitVec.toNat_add, BitVec.toNat_ofNat]
    by_cases h1 : (o + 4096 - w.wo.toNat) % 4096 < xs.length
    · rw [dif_pos h1, dif_pos (by simp; omega), List.getElem_append_left h1, if_neg (by omega)]
    · rw [dif_neg h1]
      by_cases h2 : (o + 4096 - w.wo.toNat) % 4096 = xs.length
      · rw [if_pos (by omega), dif_pos (by simp; omega)]
        simp [h2]
      · rw [if_neg (by omega), dif_neg (by simp; omega)]

end Window

/-! ### Output -/

/-- Emitting bytes: they are written from `OUT_LEN` on, and nothing else changes. -/
theorem emitAll_eq (bs : List Byte) (s : State) :
    emitAll bs s =
      { s with output := Memory.writeBytes s.output s.outLen bs, outLen := s.outLen + bs.length } := by
  induction bs generalizing s with
  | nil => rfl
  | cons b bs ih =>
    rw [emitAll, ih]
    simp only [emit, Memory.writeBytes, List.length_cons]
    congr 1; omega

theorem length_outBytes (s : State) : (outBytes s).length = s.outLen := by simp [outBytes]

/-- `Emit` adds one byte at the end of `OUT`. -/
theorem outBytes_write (m : Memory) (n : Nat) (b : Byte) :
    Memory.readBytes (Memory.write m n b) 0 (n + 1) = Memory.readBytes m 0 n ++ [b] := by
  rw [Memory.readBytes_add]
  congr 1
  · apply Memory.readBytes_congr
    intro i hi
    rw [Memory.read_write_ne]; omega
  · simp [Memory.readBytes]

theorem outBytes_emit (b : Byte) (s : State) : outBytes (emit b s) = outBytes s ++ [b] :=
  outBytes_write s.output s.outLen b

theorem outBytes_emitAll (bs : List Byte) (s : State) : outBytes (emitAll bs s) = outBytes s ++ bs := by
  induction bs generalizing s with
  | nil => simp [emitAll]
  | cons b bs ih => rw [emitAll, ih, outBytes_emit]; simp

/-! ### The end of a command -/

/-- `settle` finishes a command that still runs and leaves one that has raised. -/
theorem settle_cases (s : State) :
    (s.status.state = .busy ∧ settle s = finish s) ∨ (s.status.state ≠ .busy ∧ settle s = s) := by
  unfold settle
  by_cases h : s.status.state = .busy <;> simp [h]

end Sys2Proof.Machine
end

