-- ==== Sys2Proof/Laws/Decompressor.lean ====
section
/-!
SUPPORT. What the decompressor's operations do, once: a copy, one element of the stream, the stream loop, the extent, and
the whole header run.
-/

namespace Sys2Proof.Machine

/-! ### A back-reference copy -/

/-- The bytes a copy of `n` bytes from offset `o` emits, each read after the appends before it (R157). -/
def copyList (w : Window) (o : Nat) : Nat → List Byte
  | 0 => []
  | n + 1 => w.read o :: copyList (w.append (w.read o)) (o + 1) n

@[simp] theorem length_copyList (w : Window) (o n : Nat) : (copyList w o n).length = n := by
  induction n generalizing w o with
  | zero => rfl
  | succ n ih => simp [copyList, ih]

theorem copyList_succ (w : Window) (o n : Nat) :
    copyList w o (n + 1) = copyList w o n ++ [(w.appendAll (copyList w o n)).read (o + n)] := by
  induction n generalizing w o with
  | zero => rfl
  | succ n ih =>
    rw [copyList, ih, copyList, List.cons_append, Window.appendAll]
    congr 4; omega

/-- A copy emits and appends `copyList`, and counts `STEP`; nothing else changes. -/
theorem copyBytes_eq (off : Pos) (n : Nat) (s : State) (h : s.dec.step.toNat + n < 32) :
    copyBytes off n s =
      { s with
        output := Memory.writeBytes s.output s.outLen (copyList s.win (off.toNat + s.dec.step.toNat) n)
        outLen := s.outLen + n
        win := s.win.appendAll (copyList s.win (off.toNat + s.dec.step.toNat) n)
        dec := { s.dec with step := s.dec.step + BitVec.ofNat 5 n } } := by
  induction n generalizing s with
  | zero => simp [copyBytes, copyList, Memory.writeBytes]
  | succ n ih =>
    have hs : (copyByte off s).dec.step.toNat = s.dec.step.toNat + 1 := by
      simp [BitVec.toNat_add]; omega
    rw [copyBytes, ih _ (by omega), hs]
    simp only [copyByte_output, copyByte_outLen, copyByte_win, copyList, Memory.writeBytes, Window.appendAll,
      ← Nat.add_assoc, copyByte_dec]
    have h5 : s.dec.step + 1 + BitVec.ofNat 5 n = s.dec.step + BitVec.ofNat 5 (n + 1) := by
      apply BitVec.eq_of_toNat_eq; simp [BitVec.toNat_add, BitVec.toNat_ofNat]; omega
    simp only [h5, copyByte, emit, dictAppend]
    congr 1; omega

/-- `REF` (R157): `LC + 2` bytes of `copyList` are emitted and appended, `STEP` ends at `LC + 2`. -/
theorem ref_eq (off : Pos) (lc : LenCode) (s : State) :
    ref off lc s =
      { s with
        output := Memory.writeBytes s.output s.outLen (copyList s.win off.toNat (lc.toNat + 2))
        outLen := s.outLen + (lc.toNat + 2)
        win := s.win.appendAll (copyList s.win off.toNat (lc.toNat + 2))
        dec := { s.dec with step := BitVec.ofNat 5 (lc.toNat + 2) } } := by
  have hl := lc.isLt
  rw [ref, copyBytes_eq _ _ _ (by simp [minMatch]; omega)]
  simp [minMatch]

/-! ### One element of the stream -/

/-- What one element does: the stream has ended by exhaustion, or the element fetched at `IP` is executed. -/
theorem streamPass_cases (s : State) :
    (nextElement s = none ∧ streamPass s = .stop s) ∨
    (∃ b, nextElement s = some (.ctl b) ∧ streamPass s = .more (ctl b s)) ∨
    (∃ b, nextElement s = some (.lit b) ∧ streamPass s = .more (nextBit (lit b s))) ∨
    (∃ off lc, nextElement s = some (.ref off lc) ∧
      streamPass s = .more (nextBit (ref off lc (latchToken off lc s)))) ∨
    (∃ off lc, nextElement s = some (.endMark off lc) ∧
      streamPass s = .stop (noteEnd (latchToken off lc s))) := by
  unfold streamPass
  rcases h : nextElement s with _ | e
  · exact .inl ⟨rfl, rfl⟩
  · rcases e with b | b | ⟨off, lc⟩ | ⟨off, lc⟩
    · exact .inr (.inl ⟨b, rfl, rfl⟩)
    · exact .inr (.inr (.inl ⟨b, rfl, rfl⟩))
    · exact .inr (.inr (.inr (.inl ⟨off, lc, rfl, rfl⟩)))
    · exact .inr (.inr (.inr (.inr ⟨off, lc, rfl, rfl⟩)))

/-- What stands at `IP`, by cases on the position (R103) and on how many payload bytes are left (R159). -/
theorem nextElement_eq (s : State) :
    nextElement s =
      if s.dec.bitc = 8 then
        if s.dec.ip.toNat < s.dec.pend.toNat then some (.ctl (inByte s s.dec.ip.toNat)) else none
      else if s.dec.ctrl.getLsbD s.dec.bitc.toNat then
        if s.dec.ip.toNat + 2 ≤ s.dec.pend.toNat then
          some (decodeToken s.win.wo (be16 (inByte s s.dec.ip.toNat) (inByte s (s.dec.ip.toNat + 1))))
        else none
      else if s.dec.ip.toNat < s.dec.pend.toNat then some (.lit (inByte s s.dec.ip.toNat)) else none := by
  have two (h : s.dec.ip.toNat + 2 ≤ s.dec.pend.toNat) :
      streamBytes s = [inByte s s.dec.ip.toNat, inByte s (s.dec.ip.toNat + 1)] := by
    rw [streamBytes, Nat.min_eq_left (by omega)]; rfl
  have one (h : s.dec.ip.toNat + 1 = s.dec.pend.toNat) : streamBytes s = [inByte s s.dec.ip.toNat] := by
    rw [streamBytes, show min 2 (s.dec.pend.toNat - s.dec.ip.toNat) = 1 by omega]; rfl
  have zero (h : s.dec.pend.toNat ≤ s.dec.ip.toNat) : streamBytes s = [] := by
    rw [streamBytes, show min 2 (s.dec.pend.toNat - s.dec.ip.toNat) = 0 by omega]; rfl
  unfold nextElement streamSlot
  rcases Nat.lt_trichotomy (s.dec.ip.toNat + 1) s.dec.pend.toNat with h | h | h
  · rw [two (by omega)]
    split_ifs <;> first | omega | rfl
  · rw [one h]
    split_ifs <;> first | omega | rfl
  · rw [zero (by omega)]
    split_ifs <;> first | omega | rfl

/-- An element was there, so `IP` has room to move past it. -/
theorem nextElement_room {s : State} {e : Element} (h : nextElement s = some e) :
    s.dec.ip.toNat < s.dec.pend.toNat ∧
      ((∃ off lc, e = .ref off lc ∨ e = .endMark off lc) → s.dec.ip.toNat + 2 ≤ s.dec.pend.toNat) := by
  rw [nextElement_eq] at h
  split_ifs at h with h1 h2 h3 h4 h5
  · refine ⟨h2, ?_⟩
    cases h
    rintro ⟨_, _, he | he⟩ <;> cases he
  · exact ⟨by omega, fun _ => h4⟩
  · refine ⟨h5, ?_⟩
    cases h
    rintro ⟨_, _, he | he⟩ <;> cases he

/-! ### The stream loop -/

/-- A property every element that goes on keeps holds when the loop ends, with what the last element makes of it. -/
theorem runStream_induct {I : State → Prop} {J : State → Prop}
    (hmore : ∀ s t, I s → streamPass s = .more t → I t)
    (hstop : ∀ s t, I s → streamPass s = .stop t → J t)
    (hrun : ∀ s, I s → J s) (n : Nat) (s : State) (h : I s) : J (runStream n s) := by
  induction n generalizing s with
  | zero => exact hrun s h
  | succ n ih =>
    rw [runStream]
    rcases hp : streamPass s with t | t
    · exact ih t (hmore s t h hp)
    · exact hstop s t h hp

/-! ### A copy in closed form -/

/-- Byte `k` of a copy of at most 17 bytes is the byte at `o + (k mod d)` before the copy, `d` the distance to `WO` (R75, R258). -/
theorem copyList_closed (w : Window) (o n : Nat) (ho : o < 4096) (hne : o ≠ w.wo.toNat) (hn : n ≤ 17) :
    ∀ k (h : k < (copyList w o n).length),
      (copyList w o n)[k] = w.read (o + k % ((w.wo.toNat + 4096 - o) % 4096)) := by
  induction n with
  | zero => intro k h; simp at h
  | succ n ih =>
    intro k h
    simp only [copyList_succ]
    have hw := w.wo.isLt
    by_cases hk : k < n
    · rw [List.getElem_append_left (by simpa using hk)]
      exact ih (by omega) k _
    · simp only [length_copyList] at h
      have hk' : k = n := by omega
      subst hk'
      rw [List.getElem_append_right (by simp)]
      simp only [length_copyList, Nat.sub_self, List.getElem_cons_zero]
      rw [Window.read_appendAll _ _ (by simp; omega)]
      simp only [length_copyList]
      set d := (w.wo.toNat + 4096 - o) % 4096 with hd
      have hdpos : 1 ≤ d ∧ d < 4096 := by omega
      by_cases hkd : k < d
      · rw [dif_neg (by omega), Nat.mod_eq_of_lt hkd]
      · have e : (o + k + 4096 - w.wo.toNat) % 4096 = k - d := by omega
        rw [dif_pos (by omega)]
        have := ih (by omega) (k - d) (by simp; omega)
        simp only [e]
        rw [this, Nat.mod_eq_sub_mod (by omega : k ≥ d)]

/-! ### The decoder's element is the step's -/

/-- The element the decoder reads from the payload bytes at `IP` is the one the step runs. -/
theorem nextElement_decode {s : State} {e : Element} {rest : List Byte}
    (h : decode (streamSlot s) s.win.wo
      (Memory.readBytes s.input s.dec.ip.toNat (s.dec.pend.toNat - s.dec.ip.toNat)) = .ok (e.instr, rest)) :
    nextElement s = some e := by
  rw [nextElement_eq]
  unfold streamSlot at h
  split_ifs at h with h1 h2
  · rw [if_pos h1]
    by_cases hr : s.dec.ip.toNat < s.dec.pend.toNat
    · rw [Memory.readBytes_succ _ _ _ (by omega)] at h
      simp [decode, decodeStream] at h
      rw [if_pos hr, ← Element.instr_injective h.1]; rfl
    · rw [show s.dec.pend.toNat - s.dec.ip.toNat = 0 by omega] at h
      simp [decode, decodeStream, Memory.readBytes] at h
  · rw [if_neg h1, if_pos h2]
    by_cases hr : s.dec.ip.toNat + 2 ≤ s.dec.pend.toNat
    · rw [Memory.readBytes_succ _ _ _ (by omega), Memory.readBytes_succ _ _ _ (by omega)] at h
      simp [decode, decodeStream] at h
      rw [if_pos hr, ← Element.instr_injective h.1]; rfl
    · exfalso
      by_cases hq : s.dec.pend.toNat - s.dec.ip.toNat = 0
      · rw [hq] at h
        simp [decode, decodeStream, Memory.readBytes] at h
      · rw [show s.dec.pend.toNat - s.dec.ip.toNat = 1 by omega] at h
        simp [decode, decodeStream, Memory.readBytes] at h
  · rw [if_neg h1, if_neg h2]
    by_cases hr : s.dec.ip.toNat < s.dec.pend.toNat
    · rw [Memory.readBytes_succ _ _ _ (by omega)] at h
      simp [decode, decodeStream] at h
      rw [if_pos hr, ← Element.instr_injective h.1]; rfl
    · rw [show s.dec.pend.toNat - s.dec.ip.toNat = 0 by omega] at h
      simp [decode, decodeStream, Memory.readBytes] at h

/-! ### The header -/

theorem hparse_ok {s : State} (h : 16 ≤ s.inLen.toNat) :
    hparse s =
      { s with
        hdr := ⟨inLe32 s 0, inLe32 s 4, inLe32 s 8, inLe32 s 12⟩
        hdrDefined := true
        dec := { s.dec with ip := 16 } } := by
  unfold hparse; rw [if_neg (by simp [headerSize]; omega)]; rfl

theorem hparse_short {s : State} (h : s.inLen.toNat < 16) :
    hparse s = raise .truncatedInput { s with hdrDefined := false } := by
  unfold hparse; rw [if_pos (by simpa [headerSize] using h)]

/-- What the decoder reads from the first 16 bytes of `IN`. -/
theorem decode_header_in (s : State) :
    decode .header s.win.wo (Memory.readBytes s.input 0 16) =
      match decodeTag (inLe32 s 8) with
      | some .lzfu => .ok (.hdrLzfu (inLe32 s 0) (inLe32 s 4) (inLe32 s 12), [])
      | some .mela => .ok (.hdrMela (inLe32 s 0) (inLe32 s 4) (inLe32 s 12), [])
      | none => .error .unknownTag := by
  rw [show Memory.readBytes s.input 0 16 = [inByte s 0, inByte s 1, inByte s 2, inByte s 3, inByte s 4, inByte s 5,
    inByte s 6, inByte s 7, inByte s 8, inByte s 9, inByte s 10, inByte s 11, inByte s 12, inByte s 13,
    inByte s 14, inByte s 15] from rfl]
  rfl

theorem setExtent_pend {s : State} (h : 16 ≤ s.inLen.toNat) :
    (setExtent s).dec.pend.toNat = 16 + min (s.hdr.compSize.toNat - 12) (s.inLen.toNat - 16) := by
  show (BitVec.ofNat 32 (16 + min (s.hdr.compSize.toNat - 12) (s.inLen.toNat - 16))).toNat = _
  rw [BitVec.toNat_ofNat]
  apply Nat.mod_eq_of_lt
  have := s.inLen.isLt
  omega

theorem setExtent_inRange {s : State} (h : 16 ≤ s.inLen.toNat) : payloadInRange (setExtent s) = true := by
  unfold payloadInRange
  rw [setExtent_pend h, show (setExtent s).inLen = s.inLen from rfl, decide_eq_true_eq]
  omega

/-- The state a header is run on: the header registers loaded, the extent taken (R140, R152). -/
def parsed (s : State) : State := setExtent (hparse s)

theorem parsed_eq {s : State} (h : 16 ≤ s.inLen.toNat) :
    parsed s =
      { s with
        status := { s.status with
          short := s.status.short || decide (s.inLen.toNat - 16 < (inLe32 s 0).toNat - 12) }
        hdr := ⟨inLe32 s 0, inLe32 s 4, inLe32 s 8, inLe32 s 12⟩
        hdrDefined := true
        dec := { s.dec with
          ip := 16
          pend := BitVec.ofNat 32 (16 + min ((inLe32 s 0).toNat - 12) (s.inLen.toNat - 16)) } } := by
  rw [parsed, hparse_ok h]; rfl

/-- The whole of `DECOMPRESS` after its first line, by the tests of R226. -/
theorem runHeader_cases (P : Params) (s : State) :
    (s.inLen.toNat < 16 ∧ runHeader P s = raise .truncatedInput { s with hdrDefined := false }) ∨
    (16 ≤ s.inLen.toNat ∧ inLe32 s 8 ≠ tagLzfu ∧ inLe32 s 8 ≠ tagMela ∧
      runHeader P s = raise .unsupportedFormat (hparse s)) ∨
    (16 ≤ s.inLen.toNat ∧ (inLe32 s 8 = tagLzfu ∨ inLe32 s 8 = tagMela) ∧ (inLe32 s 0).toNat < 12 ∧
      runHeader P s = raise .truncatedInput (hparse s)) ∨
    (16 ≤ s.inLen.toNat ∧ 12 ≤ (inLe32 s 0).toNat ∧ inLe32 s 8 = tagMela ∧
      runHeader P s = settle (hdrMela (inLe32 s 4) (parsed s))) ∨
    (16 ≤ s.inLen.toNat ∧ 12 ≤ (inLe32 s 0).toNat ∧ inLe32 s 8 = tagLzfu ∧
      runHeader P s = settle (hdrLzfu P (inLe32 s 12) (parsed s))) := by
  by_cases hl : s.inLen.toNat < 16
  · left
    refine ⟨hl, ?_⟩
    simp only [runHeader, headerSize, hl, if_true, hparse_short hl]
  · right
    have hl' : 16 ≤ s.inLen.toNat := by omega
    have hp := hparse_ok hl'
    have ht : (hparse s).hdr.compType = inLe32 s 8 := by rw [hp]
    have hc : (hparse s).hdr.compSize = inLe32 s 0 := by rw [hp]
    have hk : (setExtent (hparse s)).hdr.crc = inLe32 s 12 := by show (hparse s).hdr.crc = _; rw [hp]
    have hr : (setExtent (hparse s)).hdr.rawSize = inLe32 s 4 := by show (hparse s).hdr.rawSize = _; rw [hp]
    rcases decodeTag_cases (inLe32 s 8) with ⟨h1, h2⟩ | ⟨h1, h2⟩ | ⟨h1, h1', h2⟩
    · right
      by_cases hs : (inLe32 s 0).toNat < 12
      · exact .inl ⟨hl', .inl h1, hs, by simp only [runHeader, headerSize, hl, if_false, ht, h2, hc, hdrTail, hs, if_true]⟩
      · refine .inr (.inr ⟨hl', by omega, h1, ?_⟩)
        simp only [runHeader, headerSize, hl, if_false, ht, h2, hc, hdrTail, hs, hk, parsed]
    · right
      by_cases hs : (inLe32 s 0).toNat < 12
      · exact .inl ⟨hl', .inr h1, hs, by simp only [runHeader, headerSize, hl, if_false, ht, h2, hc, hdrTail, hs, if_true]⟩
      · refine .inr (.inl ⟨hl', by omega, h1, ?_⟩)
        simp only [runHeader, headerSize, hl, if_false, ht, h2, hc, hdrTail, hs, hr, parsed]
    · left
      exact ⟨hl', h1, h1', by simp only [runHeader, headerSize, hl, if_false, ht, h2]⟩

end Sys2Proof.Machine
end

