-- ==== Sys2Proof/Laws/Stream.lean ====
section
/-!
SUPPORT. The token stream as a whole: what one element and the whole loop change, that the loop needs no more than
`PEND − IP + 1` elements, and that only the payload, the window and the stream registers matter to it.
-/

namespace Sys2Proof.Machine

/-- The state after the stream has produced `p` and left the decoder's registers at `d`. -/
def State.produce (s : State) (p : List Byte) (d : DecRegs) : State :=
  { s with
    output := Memory.writeBytes s.output s.outLen p
    outLen := s.outLen + p.length
    win := s.win.appendAll p
    dec := d }

theorem State.produce_nil (s : State) : s.produce [] s.dec = s := by
  simp [State.produce, Memory.writeBytes]

theorem State.produce_produce (s : State) (p q : List Byte) (d e : DecRegs) :
    (s.produce p d).produce q e = s.produce (p ++ q) e := by
  simp only [State.produce, Memory.writeBytes_append, Window.appendAll_append, List.length_append, Nat.add_assoc]

theorem ip_add (s : State) {k n : Nat} (hn : s.dec.pend.toNat = n) (h : s.dec.ip.toNat + k ≤ n) :
    (s.dec.ip + BitVec.ofNat 32 k).toNat = s.dec.ip.toNat + k := by
  have := s.dec.pend.isLt
  rw [BitVec.toNat_add, BitVec.toNat_ofNat]
  omega

theorem bitc_succ {b : BitVec 4} (h : b ≠ 8) (h' : b.toNat ≤ 8) : (b + 1).toNat ≤ 8 := by
  have : b.toNat ≠ 8 := fun e => h (BitVec.eq_of_toNat_eq e)
  rw [BitVec.toNat_add]; simp; omega

theorem nextElement_bitc {s : State} {e : Element} (h : nextElement s = some e) :
    ((∃ b, e = .ctl b) ↔ s.dec.bitc = 8) := by
  rw [nextElement_eq] at h
  split_ifs at h with h1 h2 h3 h4 h5
  · cases h; simp [h1]
  · cases h
    simp only [h1, iff_false, not_exists, decodeToken]
    intro b; split <;> simp
  · cases h; simpa using h1

/-- What one element that goes on does. -/
theorem streamPass_more {s t : State} (h : streamPass s = .more t) :
    ∃ p, t = s.produce p t.dec ∧ t.dec.pend = s.dec.pend ∧ s.dec.ip.toNat < t.dec.ip.toNat ∧
      t.dec.ip.toNat ≤ s.dec.pend.toNat ∧ 2 * p.length ≤ 17 * (t.dec.ip.toNat - s.dec.ip.toNat) ∧
      (s.dec.bitc = 8 → p = []) ∧ (s.dec.bitc.toNat ≤ 8 → t.dec.bitc.toNat ≤ 8) := by
  rcases streamPass_cases s with ⟨_, hp⟩ | ⟨b, hn, hp⟩ | ⟨b, hn, hp⟩ | ⟨off, lc, hn, hp⟩ | ⟨_, _, _, hp⟩
  · simp [hp] at h
  · rw [hp] at h; cases h
    have hr := nextElement_room hn
    have hi := ip_add s (k := 1) rfl (by omega)
    refine ⟨[], ?_, rfl, ?_, ?_, by simp, fun _ => rfl, fun _ => by simp⟩
    · simp [State.produce, ctl, Memory.writeBytes]
    · show s.dec.ip.toNat < (s.dec.ip + BitVec.ofNat 32 1).toNat; omega
    · show (s.dec.ip + BitVec.ofNat 32 1).toNat ≤ _; omega
  · rw [hp] at h; cases h
    have hr := nextElement_room hn
    have hb := nextElement_bitc hn
    have hi := ip_add s (k := 1) rfl (by omega)
    have h8 : s.dec.bitc ≠ 8 := by rw [Ne, ← hb]; simp
    have e : (nextBit (lit b s)).dec.ip = s.dec.ip + BitVec.ofNat 32 1 := rfl
    refine ⟨[b], rfl, rfl, ?_, ?_, ?_, fun h => absurd h h8, fun h => bitc_succ h8 h⟩
    · rw [e]; omega
    · rw [e]; omega
    · rw [e]; simp only [List.length_singleton]; omega
  · rw [hp] at h; cases h
    have hr := nextElement_room hn
    have hb := nextElement_bitc hn
    have h2 := hr.2 ⟨off, lc, .inl rfl⟩
    have hi := ip_add s (k := 2) rfl h2
    have h8 : s.dec.bitc ≠ 8 := by rw [Ne, ← hb]; simp
    rw [ref_eq]
    have hl := lc.isLt
    refine ⟨copyList s.win off.toNat (lc.toNat + 2), ?_, rfl, ?_, ?_, ?_, fun h => absurd h h8, fun h => bitc_succ h8 h⟩
    · simp [State.produce, nextBit, latchToken]
    · show s.dec.ip.toNat < (s.dec.ip + BitVec.ofNat 32 2).toNat; omega
    · show (s.dec.ip + BitVec.ofNat 32 2).toNat ≤ _; omega
    · show _ ≤ 17 * ((s.dec.ip + BitVec.ofNat 32 2).toNat - _)
      simp only [length_copyList]; omega
  · simp [hp] at h

/-- What the element that ends the stream does: nothing (exhaustion), or the two bytes of `END` are passed and `END_SEEN` set. -/
theorem streamPass_stop {s t : State} (h : streamPass s = .stop t) :
    (nextElement s = none ∧ t = s) ∨
    ∃ off lc, nextElement s = some (.endMark off lc) ∧ t = noteEnd (latchToken off lc s) ∧
      t.dec.ip.toNat = s.dec.ip.toNat + 2 ∧ s.dec.ip.toNat + 2 ≤ s.dec.pend.toNat ∧ s.dec.bitc ≠ 8 := by
  rcases streamPass_cases s with ⟨hn, hp⟩ | ⟨b, hn, hp⟩ | ⟨b, hn, hp⟩ | ⟨off, lc, hn, hp⟩ | ⟨off, lc, hn, hp⟩ <;>
    rw [hp] at h <;> cases h
  · exact .inl ⟨hn, rfl⟩
  · have h2 := (nextElement_room hn).2 ⟨off, lc, .inr rfl⟩
    refine .inr ⟨off, lc, hn, rfl, ip_add s (k := 2) rfl h2, h2, ?_⟩
    rw [Ne, ← nextElement_bitc hn]; simp

/-- What the whole loop does: what it emits is what it appends; the status changes in `END_SEEN` at most; `IP` moves up within
the payload. -/
theorem runStream_effect (n : Nat) (s : State) (hip : s.dec.ip.toNat ≤ s.dec.pend.toNat) :
    ∃ p e, runStream n s = { s.produce p (runStream n s).dec with status := { s.status with endSeen := e } } ∧
      (runStream n s).dec.pend = s.dec.pend ∧ s.dec.ip.toNat ≤ (runStream n s).dec.ip.toNat ∧
      (runStream n s).dec.ip.toNat ≤ s.dec.pend.toNat ∧
      2 * p.length ≤ 17 * ((runStream n s).dec.ip.toNat - s.dec.ip.toNat) ∧
      (s.dec.bitc = 8 → p = [] ∨ 2 * p.length + 17 ≤ 17 * ((runStream n s).dec.ip.toNat - s.dec.ip.toNat)) ∧
      (s.dec.bitc.toNat ≤ 8 → (runStream n s).dec.bitc.toNat ≤ 8) := by
  induction n generalizing s with
  | zero =>
    exact ⟨[], s.status.endSeen, by simp [runStream, State.produce_nil], rfl, le_refl _, hip, by simp,
      fun _ => .inl rfl, fun h => h⟩
  | succ n ih =>
    rw [runStream]
    rcases hp : streamPass s with t | t
    · obtain ⟨p, ht, h1, h2, h3, h4, h5, h6⟩ := streamPass_more hp
      obtain ⟨q, e, hr, k1, k2, k3, k4, k5, k6⟩ := ih t (by rw [h1]; exact h3)
      simp only
      refine ⟨p ++ q, e, ?_, by rw [k1, h1], by omega, by rw [← h1]; exact k3, ?_, ?_, fun h => k6 (h6 h)⟩
      · have h7 : t.produce q (runStream n t).dec = s.produce (p ++ q) (runStream n t).dec := by
          rw [← State.produce_produce s p q t.dec, ← ht]
        have h8 : t.status = s.status := by rw [ht]; rfl
        exact hr.trans (by rw [h7, h8])
      · rw [List.length_append]; omega
      · intro h8
        rw [h5 h8, List.nil_append]
        rcases q with _ | ⟨x, q⟩
        · exact .inl rfl
        · right; omega
    · simp only
      rcases streamPass_stop hp with ⟨_, rfl⟩ | ⟨off, lc, _, rfl, k1, k2, k3⟩
      · exact ⟨[], t.status.endSeen, by simp [State.produce_nil], rfl, le_refl _, hip, by simp,
          fun _ => .inl rfl, fun h => h⟩
      · refine ⟨[], true, ?_, rfl, by omega, by omega, by simp, fun h => absurd h k3, fun h => h⟩
        simp [State.produce, noteEnd, latchToken, Memory.writeBytes]

/-- More elements than are left in the payload change nothing. -/
theorem runStream_fuel {n m : Nat} {s : State} (hn : s.dec.pend.toNat < s.dec.ip.toNat + n)
    (hm : s.dec.pend.toNat < s.dec.ip.toNat + m) (hip : s.dec.ip.toNat ≤ s.dec.pend.toNat) :
    runStream n s = runStream m s := by
  induction n generalizing m s with
  | zero => omega
  | succ n ih =>
    rcases m with _ | m
    · omega
    · rw [runStream, runStream]
      rcases hp : streamPass s with t | t
      · obtain ⟨p, ht, h1, h2, h3, -⟩ := streamPass_more hp
        exact ih (by rw [h1]; omega) (by rw [h1]; omega) (by rw [h1]; exact h3)
      · rfl

/-! ### What the stream reads -/

/-- The same stream seen from two states: window, stream registers (`CTRL` only inside a group), unread payload bytes, output
and status. -/
structure SameStream (s s' : State) : Prop where
  win : s'.win = s.win
  ip : s'.dec.ip = s.dec.ip
  pend : s'.dec.pend = s.dec.pend
  ctrl : s.dec.bitc ≠ 8 → s'.dec.ctrl = s.dec.ctrl
  bitc : s'.dec.bitc = s.dec.bitc
  bytes : ∀ a, s.dec.ip.toNat ≤ a → a < s.dec.pend.toNat → inByte s' a = inByte s a
  status : s'.status = s.status
  out : outBytes s' = outBytes s

theorem SameStream.nextElement_eq {s s' : State} (h : SameStream s s') : nextElement s' = nextElement s := by
  rw [Machine.nextElement_eq, Machine.nextElement_eq, h.win, h.ip, h.pend, h.bitc]
  by_cases h8 : s.dec.bitc = 8
  · simp only [h8, if_true]
    split_ifs with h2
    · rw [h.bytes _ le_rfl h2]
    · rfl
  rw [h.ctrl h8]
  split_ifs with h3 h4 h5
  · rw [h.bytes _ le_rfl (by omega), h.bytes _ (by omega) (by omega)]
  · rfl
  · rw [h.bytes _ le_rfl h5]
  · rfl

theorem outBytes_produce (s : State) (p : List Byte) (d : DecRegs) : outBytes (s.produce p d) = outBytes s ++ p :=
  Memory.readBytes_concat _ _ _

/-- `REF` and `LIT` in terms of what they produce. -/
theorem lit_produce (b : Byte) (s : State) : lit b s = s.produce [b] { s.dec with ip := s.dec.ip + 1 } := rfl

theorem ref_produce (off : Pos) (lc : LenCode) (s : State) :
    ref off lc s = s.produce (copyList s.win off.toNat (lc.toNat + 2))
      { s.dec with step := BitVec.ofNat 5 (lc.toNat + 2) } := by
  rw [ref_eq]; simp [State.produce]

/-- The same stream is run to the same end. -/
theorem SameStream.run {s s' : State} (n : Nat) (h : SameStream s s') :
    (runStream n s').status = (runStream n s).status ∧ outBytes (runStream n s') = outBytes (runStream n s) ∧
      (runStream n s').win = (runStream n s).win := by
  induction n generalizing s s' with
  | zero => exact ⟨h.status, h.out, h.win⟩
  | succ n ih =>
    rw [runStream, runStream]
    rcases streamPass_cases s with ⟨hn, hp⟩ | ⟨b, hn, hp⟩ | ⟨b, hn, hp⟩ | ⟨off, lc, hn, hp⟩ | ⟨off, lc, hn, hp⟩ <;>
      have hn' := h.nextElement_eq.trans hn <;>
      simp only [streamPass, hn, hn']
    · exact ⟨h.status, h.out, h.win⟩
    · have hi := ip_add s (k := 1) rfl (nextElement_room hn).1
      refine ih ⟨h.win, ?_, h.pend, fun _ => rfl, rfl, fun a h1 h2 => h.bytes a ?_ h2, h.status, h.out⟩
      · show s'.dec.ip + 1 = s.dec.ip + 1; rw [h.ip]
      · have : (ctl b s).dec.ip = s.dec.ip + BitVec.ofNat 32 1 := rfl
        rw [this] at h1; omega
    · have hi := ip_add s (k := 1) rfl (nextElement_room hn).1
      have h8 : s.dec.bitc ≠ 8 := by rw [Ne, ← nextElement_bitc hn]; simp
      refine ih ⟨?_, ?_, h.pend, fun _ => h.ctrl h8, ?_, fun a h1 h2 => h.bytes a ?_ h2, h.status, ?_⟩
      · show s'.win.append b = s.win.append b; rw [h.win]
      · show s'.dec.ip + 1 = s.dec.ip + 1; rw [h.ip]
      · show s'.dec.bitc + 1 = s.dec.bitc + 1; rw [h.bitc]
      · have : (nextBit (lit b s)).dec.ip = s.dec.ip + BitVec.ofNat 32 1 := rfl
        rw [this] at h1; omega
      · rw [lit_produce, lit_produce]
        show outBytes (s'.produce [b] _) = outBytes (s.produce [b] _)
        rw [outBytes_produce, outBytes_produce, h.out]
    · have h2 := (nextElement_room hn).2 ⟨off, lc, .inl rfl⟩
      have hi := ip_add s (k := 2) rfl h2
      have h8 : s.dec.bitc ≠ 8 := by rw [Ne, ← nextElement_bitc hn]; simp
      rw [ref_produce, ref_produce]
      have hw : (latchToken off lc s').win = (latchToken off lc s).win := h.win
      refine ih ⟨?_, ?_, h.pend, fun _ => h.ctrl h8, ?_, fun a h1 h2 => h.bytes a ?_ h2, h.status, ?_⟩
      · show (latchToken off lc s').win.appendAll _ = (latchToken off lc s).win.appendAll _; rw [hw]
      · show s'.dec.ip + 2 = s.dec.ip + 2; rw [h.ip]
      · show s'.dec.bitc + 1 = s.dec.bitc + 1; rw [h.bitc]
      · have h1' : (s.dec.ip + BitVec.ofNat 32 2).toNat ≤ a := h1
        omega
      · show outBytes ((latchToken off lc s').produce _ _) = outBytes ((latchToken off lc s).produce _ _)
        rw [outBytes_produce, outBytes_produce, hw]
        show outBytes s' ++ _ = outBytes s ++ _
        rw [h.out]
    · refine ⟨?_, h.out, h.win⟩
      show ({ s'.status with endSeen := true } : Status) = { s.status with endSeen := true }
      rw [h.status]

/-! ### The stream does not look at the activity -/

theorem streamPass_activity (s : State) (a : Activity) :
    streamPass { s with activity := a } =
      match streamPass s with
      | .more t => .more { t with activity := a }
      | .stop t => .stop { t with activity := a } := by
  have hn : nextElement { s with activity := a } = nextElement s := rfl
  rcases streamPass_cases s with ⟨h, hp⟩ | ⟨b, h, hp⟩ | ⟨b, h, hp⟩ | ⟨off, lc, h, hp⟩ | ⟨off, lc, h, hp⟩ <;>
    simp only [streamPass, hn, h]
  · rfl
  · rfl
  · rw [ref_eq, ref_eq]; rfl
  · rfl

theorem runStream_activity (n : Nat) (s : State) (a : Activity) :
    runStream n { s with activity := a } = { runStream n s with activity := a } := by
  induction n generalizing s with
  | zero => rfl
  | succ n ih =>
    rw [runStream, runStream, streamPass_activity]
    rcases streamPass s with t | t
    · exact ih t
    · rfl

end Sys2Proof.Machine
end

