-- ==== Sys2Proof/Laws/Command.lean ====
section
/-!
SUPPORT. `DECOMPRESS` whole: its six outcomes, each with the state it leaves, and its runs a step at a time.
-/

namespace Sys2Proof.Machine

/-! ### The two headers -/

/-- The output after bytes were written behind it. -/
theorem outBytes_of {s t : State} {bs : List Byte} (h1 : t.output = Memory.writeBytes s.output s.outLen bs)
    (h2 : t.outLen = s.outLen + bs.length) : outBytes t = outBytes s ++ bs := by
  rw [outBytes, h1, h2, Memory.readBytes_concat]; rfl

/-- `HDR.MELA` (R153): the payload's beginning is emitted, `SHORT` says that it was too short. -/
theorem hdrMela_eq (r : U32) (s : State) :
    hdrMela r s =
      { s with
        status := { s.status with short := s.status.short || decide (plen s < r.toNat) }
        output := Memory.writeBytes s.output s.outLen ((payloadBytes s).take r.toNat)
        outLen := s.outLen + ((payloadBytes s).take r.toNat).length } := by
  rw [hdrMela, emitAll_eq, payloadBytes, Memory.take_readBytes]
  rfl

/-- `HDR.LZFU` past its guard is the token loop from a fresh window. -/
theorem hdrLzfu_ok {P : Params} {crc : U32} {s : State} (h : P.cksum (payloadBytes s) = crc) :
    hdrLzfu P crc s = runStream (plen s + 1) (openStream P s) := by
  simp [hdrLzfu, ckMismatch, h]

theorem hdrLzfu_bad {P : Params} {crc : U32} {s : State} (h : P.cksum (payloadBytes s) ≠ crc) :
    hdrLzfu P crc s = raise .corruptData s := by
  simp [hdrLzfu, ckMismatch, h]

/-- The token loop of `HDR.LZFU`: what it emits is what it appends to the fresh window, at most 17 bytes for 2 of the payload. -/
theorem openStream_effect (P : Params) (n : Nat) (s : State) (h : 16 ≤ s.dec.pend.toNat) :
    ∃ p d e, runStream n (openStream P s) =
        { s with
          status := { s.status with endSeen := e }
          output := Memory.writeBytes s.output s.outLen p
          outLen := s.outLen + p.length
          win := (Window.init P).appendAll p
          dec := d } ∧
      d.pend = s.dec.pend ∧ 16 ≤ d.ip.toNat ∧ d.ip.toNat ≤ s.dec.pend.toNat ∧
      p.length ≤ 17 * ((s.dec.pend.toNat - 16) / 2) ∧ d.bitc.toNat ≤ 8 := by
  obtain ⟨p, e, h1, h2, h3, h4, h5, h6, h7⟩ := runStream_effect n (openStream P s) h
  generalize runStream n (openStream P s) = u at *
  change 16 ≤ _ at h3
  change _ ≤ s.dec.pend.toNat at h4
  refine ⟨p, u.dec, e, h1, h2, h3, h4, ?_, h7 (by show (8 : BitVec 4).toNat ≤ 8; decide)⟩
  rcases h6 rfl with rfl | h6
  · simp
  · change _ ≤ 17 * (u.dec.ip.toNat - 16) at h6; omega

/-! ### The command -/

/-- `DECOMPRESS` when a header register has been loaded and nothing else has happened. -/
def loaded (s : State) : State :=
  { startCommand s with
    hdr := ⟨inLe32 s 0, inLe32 s 4, inLe32 s 8, inLe32 s 12⟩
    hdrDefined := true
    dec := { s.dec with ip := 16 } }

/-- `DECOMPRESS` when the extent has been taken and the header is about to be performed. -/
def ready (s : State) : State :=
  { s with
    status := ⟨.busy, none, false, decide (s.inLen.toNat - 16 < compSizeOf s - 12)⟩
    outLen := 0
    hdr := ⟨inLe32 s 0, inLe32 s 4, inLe32 s 8, inLe32 s 12⟩
    hdrDefined := true
    dec := { s.dec with ip := 16, pend := BitVec.ofNat 32 (16 + payloadLenOf s) } }

theorem ready_pend {s : State} (h : 16 ≤ s.inLen.toNat) : (ready s).dec.pend.toNat = 16 + payloadLenOf s := by
  show (BitVec.ofNat 32 (16 + payloadLenOf s)).toNat = _
  rw [BitVec.toNat_ofNat]
  apply Nat.mod_eq_of_lt
  have := s.inLen.isLt
  unfold payloadLenOf; omega

theorem ready_plen {s : State} (h : 16 ≤ s.inLen.toNat) : plen (ready s) = payloadLenOf s := by
  rw [plen, ready_pend h, headerSize, Nat.add_sub_cancel_left]

theorem ready_payload {s : State} (h : 16 ≤ s.inLen.toNat) : payloadBytes (ready s) = payloadOf s := by
  rw [payloadBytes, ready_plen h]; rfl

theorem ready_inRange {s : State} (h : 16 ≤ s.inLen.toNat) : payloadInRange (ready s) = true := by
  unfold payloadInRange
  rw [ready_pend h, decide_eq_true_eq]
  show _ ≤ s.inLen.toNat
  unfold payloadLenOf; omega

theorem parsed_startCommand {s : State} (h : 16 ≤ s.inLen.toNat) : parsed (startCommand s) = ready s := by
  rw [parsed_eq (by exact h)]
  simp only [startCommand_status, Bool.false_or]
  rfl

theorem settle_busy {s : State} (h : s.status.state = .busy) : settle s = finish s := by
  unfold settle; rw [if_pos h]

/-- The outcomes of `DECOMPRESS` (R150, R226), in the order of the tests, each with the whole state it leaves. -/
theorem decompress_cases (P : Params) (s : State) :
    (s.inLen.toNat < 16 ∧ decompress P s = raise .truncatedInput { startCommand s with hdrDefined := false }) ∨
    (16 ≤ s.inLen.toNat ∧ inLe32 s 8 ≠ tagLzfu ∧ inLe32 s 8 ≠ tagMela ∧
      decompress P s = raise .unsupportedFormat (loaded s)) ∨
    (16 ≤ s.inLen.toNat ∧ (inLe32 s 8 = tagLzfu ∨ inLe32 s 8 = tagMela) ∧ compSizeOf s < 12 ∧
      decompress P s = raise .truncatedInput (loaded s)) ∨
    (16 ≤ s.inLen.toNat ∧ 12 ≤ compSizeOf s ∧ inLe32 s 8 = tagMela ∧
      decompress P s = finish (hdrMela (inLe32 s 4) (ready s))) ∨
    (16 ≤ s.inLen.toNat ∧ 12 ≤ compSizeOf s ∧ inLe32 s 8 = tagLzfu ∧ P.cksum (payloadOf s) ≠ inLe32 s 12 ∧
      decompress P s = raise .corruptData (ready s)) ∨
    (16 ≤ s.inLen.toNat ∧ 12 ≤ compSizeOf s ∧ inLe32 s 8 = tagLzfu ∧ P.cksum (payloadOf s) = inLe32 s 12 ∧
      decompress P s = finish (runStream (payloadLenOf s + 1) (openStream P (ready s)))) := by
  unfold decompress
  rcases runHeader_cases P (startCommand s) with ⟨h1, h2⟩ | ⟨h1, h2, h3, h4⟩ | ⟨h1, h2, h3, h4⟩ |
    ⟨h1, h2, h3, h4⟩ | ⟨h1, h2, h3, h4⟩
  · exact .inl ⟨h1, h2⟩
  · exact .inr (.inl ⟨h1, h2, h3, by rw [h4, hparse_ok h1]; rfl⟩)
  · exact .inr (.inr (.inl ⟨h1, h2, h3, by rw [h4, hparse_ok h1]; rfl⟩))
  · change 16 ≤ s.inLen.toNat at h1
    refine .inr (.inr (.inr (.inl ⟨h1, h2, h3, ?_⟩)))
    rw [h4, parsed_startCommand h1, settle_busy (by rw [hdrMela_eq]; rfl)]
    rfl
  · change 16 ≤ s.inLen.toNat at h1
    by_cases hk : P.cksum (payloadOf s) = inLe32 s 12
    · refine .inr (.inr (.inr (.inr (.inr ⟨h1, h2, h3, hk, ?_⟩))))
      rw [h4, parsed_startCommand h1, hdrLzfu_ok (by rw [ready_payload h1]; exact hk), ready_plen h1]
      apply settle_busy
      obtain ⟨p, d, e, hr, -⟩ := openStream_effect P (payloadLenOf s + 1) (ready s) (by rw [ready_pend h1]; omega)
      rw [hr]; rfl
    · refine .inr (.inr (.inr (.inr (.inl ⟨h1, h2, h3, hk, ?_⟩))))
      rw [h4, parsed_startCommand h1, hdrLzfu_bad (by rw [ready_payload h1]; exact hk)]
      rfl

/-! Each outcome from its conditions. -/

theorem decompress_short {P : Params} {s : State} (h : s.inLen.toNat < 16) :
    decompress P s = raise .truncatedInput { startCommand s with hdrDefined := false } := by
  rcases decompress_cases P s with ⟨_, k⟩ | ⟨_, _⟩ | ⟨_, _⟩ | ⟨_, _⟩ | ⟨_, _⟩ | ⟨_, _⟩
  · exact k
  all_goals omega

theorem decompress_unsupported {P : Params} {s : State} (h1 : 16 ≤ s.inLen.toNat) (h2 : inLe32 s 8 ≠ tagLzfu)
    (h3 : inLe32 s 8 ≠ tagMela) : decompress P s = raise .unsupportedFormat (loaded s) := by
  rcases decompress_cases P s with ⟨k, _⟩ | ⟨_, _, _, k⟩ | ⟨_, k, _⟩ | ⟨_, _, k, _⟩ | ⟨_, _, k, _⟩ | ⟨_, _, k, _⟩
  · omega
  · exact k
  · exact (k.elim h2 h3).elim
  · exact absurd k h3
  · exact absurd k h2
  · exact absurd k h2

theorem decompress_small {P : Params} {s : State} (h1 : 16 ≤ s.inLen.toNat)
    (h2 : inLe32 s 8 = tagLzfu ∨ inLe32 s 8 = tagMela) (h3 : compSizeOf s < 12) :
    decompress P s = raise .truncatedInput (loaded s) := by
  rcases decompress_cases P s with ⟨k, _⟩ | ⟨_, k, k', _⟩ | ⟨_, _, _, k⟩ | ⟨_, k, _⟩ | ⟨_, k, _⟩ | ⟨_, k, _⟩
  · omega
  · exact (h2.elim k k').elim
  · exact k
  all_goals omega

theorem decompress_mela {P : Params} {s : State} (h1 : 16 ≤ s.inLen.toNat) (h2 : 12 ≤ compSizeOf s)
    (h3 : inLe32 s 8 = tagMela) : decompress P s = finish (hdrMela (inLe32 s 4) (ready s)) := by
  have n1 : tagMela ≠ tagLzfu := by decide
  rcases decompress_cases P s with ⟨k, _⟩ | ⟨_, _, k, _⟩ | ⟨_, _, k, _⟩ | ⟨_, _, _, k⟩ | ⟨_, _, k, _⟩ | ⟨_, _, k, _⟩
  · omega
  · exact absurd h3 k
  · omega
  · exact k
  · exact absurd (h3.symm.trans k) n1
  · exact absurd (h3.symm.trans k) n1

theorem decompress_lzfu {P : Params} {s : State} (h1 : 16 ≤ s.inLen.toNat) (h2 : 12 ≤ compSizeOf s)
    (h3 : inLe32 s 8 = tagLzfu) (h4 : P.cksum (payloadOf s) = inLe32 s 12) :
    decompress P s = finish (runStream (payloadLenOf s + 1) (openStream P (ready s))) := by
  have n1 : tagLzfu ≠ tagMela := by decide
  rcases decompress_cases P s with ⟨k, _⟩ | ⟨_, k, _⟩ | ⟨_, _, k, _⟩ | ⟨_, _, k, _⟩ | ⟨_, _, _, k, _⟩ | ⟨_, _, _, _, k⟩
  · omega
  · exact absurd h3 k
  · omega
  · exact absurd (h3.symm.trans k) n1
  · exact absurd h4 k
  · exact k

theorem decompress_corrupt {P : Params} {s : State} (h1 : 16 ≤ s.inLen.toNat) (h2 : 12 ≤ compSizeOf s)
    (h3 : inLe32 s 8 = tagLzfu) (h4 : P.cksum (payloadOf s) ≠ inLe32 s 12) :
    decompress P s = raise .corruptData (ready s) := by
  have n1 : tagLzfu ≠ tagMela := by decide
  rcases decompress_cases P s with ⟨k, _⟩ | ⟨_, k, _⟩ | ⟨_, _, k, _⟩ | ⟨_, _, k, _⟩ | ⟨_, _, _, _, k⟩ | ⟨_, _, _, k, _⟩
  · omega
  · exact absurd h3 k
  · omega
  · exact absurd (h3.symm.trans k) n1
  · exact k
  · exact absurd k h4

/-! ### What `DECOMPRESS` reads -/

/-- `DECOMPRESS` reads `IN_LEN` and the container's bytes up to the end of its payload, and nothing else: no other byte of `IN`
and no other state reaches its result (R72, R252). -/
theorem decompress_congr (P : Params) {s s' : State} (hl : s'.inLen = s.inLen)
    (h16 : 16 ≤ s.inLen.toNat → ∀ i < 16 + payloadLenOf s, inByte s' i = inByte s i) :
    SameResult (decompress P s) (decompress P s') := by
  by_cases hk : s.inLen.toNat < 16
  · rw [decompress_short hk, decompress_short (by rw [hl]; exact hk)]
    exact ⟨rfl, rfl, rfl, by simp⟩
  · have hk1 : 16 ≤ s.inLen.toNat := by omega
    have hk1' : 16 ≤ s'.inLen.toNat := by rw [hl]; exact hk1
    have hb := h16 hk1
    have L : ∀ a, a + 4 ≤ 16 → inLe32 s' a = inLe32 s a := by
      intro a ha
      unfold inLe32
      rw [hb a (by omega), hb (a+1) (by omega), hb (a+2) (by omega), hb (a+3) (by omega)]
    have L0 := L 0 (by omega)
    have L4 := L 4 (by omega)
    have L8 := L 8 (by omega)
    have L12 := L 12 (by omega)
    have hc : compSizeOf s' = compSizeOf s := by unfold compSizeOf; rw [L0]
    have hpl : payloadLenOf s' = payloadLenOf s := by unfold payloadLenOf; rw [hc, hl]
    have hp : payloadOf s' = payloadOf s := by
      unfold payloadOf; rw [hpl]
      apply Memory.readBytes_congr
      intro i hi
      exact hb (16 + i) (by omega)
    have hld : (loaded s').hdr = (loaded s).hdr := by simp only [loaded, L0, L4, L8, L12]
    have hrd : (ready s').hdr = (ready s).hdr := by simp only [ready, L0, L4, L8, L12]
    have hst : (ready s').status = (ready s).status := by simp only [ready, hc, hl]
    rcases decompress_cases P s with ⟨k, h⟩ | ⟨k1, k2, k3, h⟩ | ⟨k1, k2, k3, h⟩ | ⟨k1, k2, k3, h⟩ | ⟨k1, k2, k3, k4, h⟩ | ⟨k1, k2, k3, k4, h⟩
    · omega
    · rw [h, decompress_unsupported hk1' (by rw [L8]; exact k2) (by rw [L8]; exact k3)]
      exact ⟨rfl, rfl, rfl, fun _ => hld⟩
    · rw [h, decompress_small hk1' (by rw [L8]; exact k2) (by rw [hc]; exact k3)]
      exact ⟨rfl, rfl, rfl, fun _ => hld⟩
    · have h' := decompress_mela (P := P) hk1' (by rw [hc]; exact k2) (by rw [L8]; exact k3)
      rw [h, h', L4]
      have e := hdrMela_eq (inLe32 s 4) (ready s)
      have e' := hdrMela_eq (inLe32 s 4) (ready s')
      rw [ready_plen hk1, ready_payload hk1] at e
      rw [ready_plen hk1', ready_payload hk1', hpl, hp] at e'
      refine ⟨?_, ?_, ?_, fun _ => ?_⟩
      · rw [e, e']; simp only [finish]; rw [hst]
      · have a1 : outBytes (finish (hdrMela (inLe32 s 4) (ready s))) = outBytes (ready s) ++ (payloadOf s).take (inLe32 s 4).toNat := by
          apply outBytes_of <;> rw [e] <;> rfl
        have a2 : outBytes (finish (hdrMela (inLe32 s 4) (ready s'))) = outBytes (ready s') ++ (payloadOf s).take (inLe32 s 4).toNat := by
          apply outBytes_of <;> rw [e'] <;> rfl
        rw [a1, a2]; rfl
      · rw [e, e']; rfl
      · rw [e, e']; exact hrd
    · have h' := decompress_corrupt (P := P) hk1' (by rw [hc]; exact k2) (by rw [L8]; exact k3) (by rw [hp, L12]; exact k4)
      rw [h, h']
      refine ⟨?_, rfl, rfl, fun _ => hrd⟩
      simp only [raise]; rw [hst]
    · have h' := decompress_lzfu (P := P) hk1' (by rw [hc]; exact k2) (by rw [L8]; exact k3) (by rw [hp, L12]; exact k4)
      rw [h, h', hpl]
      have ss : SameStream (openStream P (ready s)) (openStream P (ready s')) := by
        refine ⟨rfl, rfl, ?_, ?_, rfl, ?_, hst, rfl⟩
        · show (ready s').dec.pend = (ready s).dec.pend
          simp only [ready, hpl]
        · exact fun h => absurd rfl h
        · intro a ha hb'
          apply hb
          have : (openStream P (ready s)).dec.pend = (ready s).dec.pend := rfl
          rw [this, ready_pend hk1] at hb'; exact hb'
      obtain ⟨r1, r2, r3⟩ := ss.run (payloadLenOf s + 1)
      obtain ⟨p, d, e, q1, -⟩ := openStream_effect P (payloadLenOf s + 1) (ready s) (by rw [ready_pend k1]; omega)
      obtain ⟨p', d', e', q1', -⟩ := openStream_effect P (payloadLenOf s + 1) (ready s') (by rw [ready_pend hk1']; omega)
      refine ⟨?_, r2, ?_, fun _ => ?_⟩
      · simp only [finish]; rw [r1]
      · rw [q1, q1']; rfl
      · rw [q1, q1']; exact hrd

/-! ### A token a step -/

theorem step_stream {s : State} (ha : s.activity = .stream) (hp : payloadInRange s = true) :
    step s = (match streamPass s with
      | .more t => .next t
      | .stop t => .next (finish t)) := by
  unfold step stepStream; rw [ha]; simp only [hp, if_true] <;> rfl

theorem core_run_next {n : Nat} {s t : State} (h : step s = .next t) : core.run (n + 1) s = core.run n t := by
  have e : ∀ (M : Host.Core) (s t : M.State), M.step s = .next t → M.run (n + 1) s = M.run n t := by
    intro M s t h
    rw [Host.Core.run, h]
  exact e core s t h

theorem core_run_finish (n : Nat) (s : State) : core.run n (finish s) = .next (finish s) := by
  induction n with
  | zero => rfl
  | succ n ih => exact ih

/-- Enough steps of the stream reach what the loop reaches, with the command done. -/
theorem core_run_stream (n : Nat) (s : State) (ha : s.activity = .stream) (hp : payloadInRange s = true)
    (hip : s.dec.ip.toNat ≤ s.dec.pend.toNat) (hn : s.dec.pend.toNat < s.dec.ip.toNat + n) :
    core.run n s = .next (finish (runStream n s)) := by
  induction n generalizing s with
  | zero => omega
  | succ n ih =>
    have hs := step_stream ha hp
    rw [runStream]
    rcases hq : streamPass s with t | t <;> rw [hq] at hs <;> rw [core_run_next hs]
    · obtain ⟨p, ht, h1, h2, h3, -⟩ := streamPass_more hq
      refine ih t (by rw [ht]; exact ha) ?_ (by rw [h1]; exact h3) (by rw [h1]; omega)
      have : t.inLen = s.inLen := by rw [ht]; rfl
      unfold payloadInRange at *; rw [h1, this]; exact hp
    · exact core_run_finish n t

end Sys2Proof.Machine
end

