-- ==== Sys2Proof/Laws/Matcher.lean ====
section
/-!
SUPPORT. The matcher: the invariant of its scan, and what `MATCH` answers (R187), said once.
-/

namespace Sys2Proof.Machine

/-- The first `n` bytes of a search's input. -/
def inputRun (inp : Nat → Byte) (n : Nat) : List Byte := (List.range n).map inp

@[simp] theorem length_inputRun (inp : Nat → Byte) (n : Nat) : (inputRun inp n).length = n := by simp [inputRun]

@[simp] theorem getElem_inputRun (inp : Nat → Byte) (n k : Nat) (h : k < (inputRun inp n).length) :
    (inputRun inp n)[k] = inp k := by simp [inputRun]

theorem inputRun_succ (inp : Nat → Byte) (n : Nat) : inputRun inp (n + 1) = inputRun inp n ++ [inp n] := by
  simp [inputRun, List.range_succ]

theorem inputRun_matchInput (s : State) (n : Nat) :
    inputRun (matchInput s) n = Memory.readBytes s.input s.enc.cur.toNat n := by
  apply List.ext_getElem
  · simp
  · intro i h1 h2; simp [matchInput, inByte]

/-- What holds of a scan in progress, started with window `w`: it has appended `l` bytes of the input; the candidate under
comparison and the best one so far are reproduced by a decoder's copy (R187 d). -/
structure ScanInv (inp : Nat → Byte) (w : Window) (cap : Nat) (sc : Scan) : Prop where
  mLeL : sc.m ≤ sc.l
  lLeCap : sc.l ≤ cap
  mLeDi : sc.m ≤ sc.di
  lLeDi : sc.l ≤ sc.di
  diLe : sc.di ≤ w.wo.toNat + sc.l
  win : sc.win = w.appendAll (inputRun inp sc.l)
  candidate : sc.di - sc.m < w.wo.toNat →
    ∀ k < sc.m, (w.appendAll (inputRun inp k)).read (sc.di - sc.m + k) = inp k
  best : 1 ≤ sc.l → sc.moff < w.wo.toNat ∧
    ∀ k < sc.l, (w.appendAll (inputRun inp k)).read (sc.moff + k) = inp k
  none : sc.l = 0 → sc.moff = 0 ∧ ∀ p < sc.di, w.read p ≠ inp 0
  one : sc.l = 1 → ∀ p < sc.moff, w.read p ≠ inp 0

theorem ScanInv.start (inp : Nat → Byte) (w : Window) (cap : Nat) : ScanInv inp w cap ⟨w, 0, 0, 0, 0⟩ where
  mLeL := le_rfl
  lLeCap := Nat.zero_le _
  mLeDi := le_rfl
  lLeDi := le_rfl
  diLe := Nat.zero_le _
  win := rfl
  candidate := fun _ k hk => absurd hk (Nat.not_lt_zero k)
  best := fun h => absurd h (Nat.not_succ_le_zero 0)
  none := fun _ => ⟨rfl, fun p hp => absurd hp (Nat.not_lt_zero p)⟩
  one := fun h => absurd h (Nat.succ_ne_zero 0).symm

/-- The window byte a candidate below the old write offset is compared with is the byte a decoder's copy reads there. -/
theorem ScanInv.read_di {inp : Nat → Byte} {w : Window} {cap : Nat} {sc : Scan} (h : ScanInv inp w cap sc)
    (hcap : cap ≤ 17) (hq : sc.di - sc.m < w.wo.toNat) :
    (w.appendAll (inputRun inp sc.m)).read (sc.di - sc.m + sc.m) = sc.win.read sc.di := by
  have hw := w.wo.isLt
  have h1 := h.mLeL
  have h2 := h.lLeCap
  have h3 := h.mLeDi
  have h4 := h.lLeDi
  rw [h.win, Nat.sub_add_cancel h3, Window.read_appendAll _ _ (by simp; omega),
    Window.read_appendAll _ _ (by simp; omega)]
  simp only [length_inputRun, getElem_inputRun]
  by_cases hi : (sc.di + 4096 - w.wo.toNat) % 4096 < sc.m
  · rw [dif_pos hi, dif_pos (by omega)]
  · rw [dif_neg hi, dif_neg (by omega)]

theorem ScanInv.step {inp : Nat → Byte} {w : Window} {cap : Nat} {sc : Scan} (h : ScanInv inp w cap sc)
    (hcap : cap ≤ 17) (hdi : sc.di < w.wo.toNat + sc.l) (hl : sc.l < cap) : ScanInv inp w cap (scanStep inp sc) := by
  have h1 := h.mLeL
  have h3 := h.mLeDi
  have h4 := h.lLeDi
  have hrd := h.read_di hcap
  unfold scanStep
  by_cases hm : sc.win.read sc.di = inp sc.m
  · rw [if_pos hm]
    have ext : sc.di - sc.m < w.wo.toNat →
        ∀ k < sc.m + 1, (w.appendAll (inputRun inp k)).read (sc.di - sc.m + k) = inp k := by
      intro hq k hk
      rcases Nat.lt_succ_iff_lt_or_eq.1 hk with hk | rfl
      · exact h.candidate hq k hk
      · rw [hrd hq, hm]
    by_cases hlong : sc.m + 1 > sc.l
    · rw [if_pos hlong]
      have hml : sc.m = sc.l := by omega
      have e : sc.di + 1 - (sc.m + 1) = sc.di - sc.m := by omega
      have hq : sc.di - sc.m < w.wo.toNat := by omega
      refine ⟨le_rfl, by simp only; omega, by simp only; omega, by simp only; omega, by simp only; omega, ?_, ?_,
        ?_, fun h => absurd h (by simp), ?_⟩
      · simp only [inputRun_succ, Window.appendAll_concat]; rw [h.win, hml]
      · simp only [e]; exact ext
      · intro _; simp only [e]; exact ⟨hq, ext hq⟩
      · intro h1' p hp
        simp only [e] at hp h1'
        exact (h.none (by omega)).2 p (by omega)
    · rw [if_neg hlong]
      have e : sc.di + 1 - (sc.m + 1) = sc.di - sc.m := by omega
      refine ⟨by simp only; omega, h.lLeCap, by simp only; omega, by simp only; omega, by simp only; omega, h.win, ?_,
        h.best, fun h0 => ?_, h.one⟩
      · simp only [e]; exact ext
      · exfalso; simp only at h0; omega
  · rw [if_neg hm]
    refine ⟨Nat.zero_le _, h.lLeCap, Nat.zero_le _, by simp only; omega, by simp only; omega, h.win,
      fun _ k hk => absurd hk (Nat.not_lt_zero k), h.best, fun h0 => ⟨(h.none h0).1, ?_⟩, h.one⟩
    intro p hp
    simp only at h0 hp
    rcases Nat.lt_succ_iff_lt_or_eq.1 hp with hp | rfl
    · exact (h.none h0).2 p hp
    · have hw : sc.win = w := by rw [h.win, h0]; rfl
      have hm0 : sc.m = 0 := by omega
      rwa [hw, hm0] at hm

/-- The end of a scan with enough comparisons: the invariant, and that it ended because there was nothing left to compare
or the match could not grow. -/
theorem scan_end {inp : Nat → Byte} {w : Window} {cap : Nat} (hcap : cap ≤ 17) (n : Nat) (sc : Scan)
    (h : ScanInv inp w cap sc) (hn : w.wo.toNat + cap ≤ sc.di + n) :
    ScanInv inp w cap (scan inp w.wo.toNat cap n sc) ∧
      ((scan inp w.wo.toNat cap n sc).di = w.wo.toNat + (scan inp w.wo.toNat cap n sc).l ∨
        (scan inp w.wo.toNat cap n sc).l = cap) := by
  have hd := h.diLe
  have hc := h.lLeCap
  induction n generalizing sc with
  | zero => exact ⟨h, by simp only [scan]; omega⟩
  | succ n ih =>
    rw [scan]
    split_ifs with hcond
    · have h' := h.step hcap hcond.1 hcond.2
      have hdi : (scanStep inp sc).di = sc.di + 1 := by unfold scanStep; split_ifs <;> rfl
      exact ih _ h' (by omega) h'.diLe h'.lLeCap
    · exact ⟨h, by omega⟩

/-- A scan with enough comparisons as the sequence of its states: each made where the guard held and the invariant holds,
the last one where the guard fails. -/
theorem scan_states {inp : Nat → Byte} {w : Window} {cap : Nat} (hcap : cap ≤ 17) (N : Nat) (sc : Scan)
    (h : ScanInv inp w cap sc) (hn : w.wo.toNat + cap ≤ sc.di + N) :
    ∃ (n : Nat) (g : Nat → Scan), g 0 = sc ∧
      (∀ k < n, ScanInv inp w cap (g k) ∧ (g k).di < w.wo.toNat + (g k).l ∧ (g k).l < cap ∧
        g (k + 1) = scanStep inp (g k)) ∧
      ScanInv inp w cap (g n) ∧ ¬((g n).di < w.wo.toNat + (g n).l ∧ (g n).l < cap) ∧
      scan inp w.wo.toNat cap N sc = g n := by
  have hl := h.lLeCap
  induction N generalizing sc with
  | zero => exact ⟨0, fun _ => sc, rfl, by simp, h, by show ¬(sc.di < _ + sc.l ∧ sc.l < cap); omega, rfl⟩
  | succ N ih =>
    by_cases hc : sc.di < w.wo.toNat + sc.l ∧ sc.l < cap
    · have hdi : (scanStep inp sc).di = sc.di + 1 := by unfold scanStep; split_ifs <;> rfl
      have h' := h.step hcap hc.1 hc.2
      obtain ⟨n, g, h0, hk, hi, hg, he⟩ := ih _ h' (by omega) h'.lLeCap
      refine ⟨n + 1, fun k => match k with | 0 => sc | k + 1 => g k, rfl, ?_, hi, hg, by rw [scan, if_pos hc, he]⟩
      intro k hkn
      cases k with
      | zero => exact ⟨h, hc.1, hc.2, h0⟩
      | succ k => exact hk k (by omega)
    · exact ⟨0, fun _ => sc, rfl, by simp, h, hc, by rw [scan, if_neg hc]⟩

theorem matchCap_le (s : State) : matchCap s ≤ 17 := Nat.min_le_left _ _

/-- The end of the search of `MATCH`. -/
theorem searchResult_end (s : State) :
    ScanInv (matchInput s) s.win (matchCap s) (searchResult s) ∧
      ((searchResult s).di = s.win.wo.toNat + (searchResult s).l ∨ (searchResult s).l = matchCap s) := by
  have := s.win.wo.isLt
  have hc := matchCap_le s
  exact scan_end hc _ _ (ScanInv.start _ _ _) (by simp only [maxDictSize, maxMatch]; omega)

/-- The facts of R187 about `MATCH`, in its registers: `L` within its cap, the `L` bytes appended, the match reproduced by a
decoder's copy, its offset below the old `WO`, and which position is found when nothing longer than one byte is. -/
theorem doMatch_facts (s : State) :
    (doMatch s).enc.l.toNat ≤ 17 ∧ (doMatch s).enc.l.toNat ≤ s.inLen.toNat - s.enc.cur.toNat ∧
    (doMatch s).win = s.win.appendAll (Memory.readBytes s.input s.enc.cur.toNat (doMatch s).enc.l.toNat) ∧
    (1 ≤ (doMatch s).enc.l.toNat → (doMatch s).enc.moff.toNat < s.win.wo.toNat) ∧
    (doMatch s).enc.di.toNat ≤ s.win.wo.toNat + (doMatch s).enc.l.toNat ∧
    (∀ k, k < (doMatch s).enc.l.toNat →
      (s.win.appendAll (Memory.readBytes s.input s.enc.cur.toNat k)).read ((doMatch s).enc.moff.toNat + k) =
        inByte s (s.enc.cur.toNat + k)) ∧
    ((doMatch s).enc.l.toNat = 0 → (doMatch s).enc.moff.toNat = 0 ∧ (s.enc.cur.toNat < s.inLen.toNat →
      ∀ p < s.win.wo.toNat, s.win.read p ≠ inByte s s.enc.cur.toNat)) ∧
    ((doMatch s).enc.l.toNat = 1 →
      ∀ p < (doMatch s).enc.moff.toNat, s.win.read p ≠ inByte s s.enc.cur.toNat) := by
  obtain ⟨h, hend⟩ := searchResult_end s
  have hc := matchCap_le s
  have hw := s.win.wo.isLt
  have hl := h.lLeCap
  have hd := h.diLe
  have hcap : matchCap s ≤ s.inLen.toNat - s.enc.cur.toNat := Nat.min_le_right _ _
  have el : (doMatch s).enc.l.toNat = (searchResult s).l := by
    show (BitVec.ofNat 5 (searchResult s).l).toNat = _
    rw [BitVec.toNat_ofNat]; omega
  have em : (doMatch s).enc.moff.toNat = (searchResult s).moff := by
    show (BitVec.ofNat 13 (searchResult s).moff).toNat = _
    rw [BitVec.toNat_ofNat]
    rcases Nat.eq_zero_or_pos (searchResult s).l with h0 | h0
    · rw [(h.none h0).1]
    · have := (h.best h0).1; omega
  have ed : (doMatch s).enc.di.toNat = (searchResult s).di := by
    show (BitVec.ofNat 13 (searchResult s).di).toNat = _
    rw [BitVec.toNat_ofNat]; omega
  have e0 : matchInput s 0 = inByte s s.enc.cur.toNat := rfl
  rw [el, em, ed, doMatch_win, ← inputRun_matchInput]
  refine ⟨by omega, by omega, h.win, fun h1 => (h.best h1).1, hd, fun k hk => ?_, fun h0 => ⟨(h.none h0).1, fun hin p hp => ?_⟩,
    fun h1 p hp => ?_⟩
  · rw [← inputRun_matchInput]
    exact (h.best (by omega)).2 k hk
  · have hcp : 1 ≤ matchCap s := by simp only [matchCap, maxMatch]; omega
    exact (h.none h0).2 p (by omega)
  · exact h.one h1 p hp

/-- A decoder's copy of a reproduced run is that run. -/
theorem copyList_of_reproduced {inp : Nat → Byte} {w : Window} {o n : Nat}
    (h : ∀ k < n, (w.appendAll (inputRun inp k)).read (o + k) = inp k) : copyList w o n = inputRun inp n := by
  induction n with
  | zero => rfl
  | succ n ih =>
    rw [copyList_succ, ih (fun k hk => h k (by omega)), inputRun_succ, h n (by omega)]

end Sys2Proof.Machine
end

