-- ==== Sys2Proof/Laws/Compressor.lean ====
section
/-!
SUPPORT. The compressor: what one token does, what the token loop leaves, and that a decoder run on the payload gives the
input back.
-/

namespace Sys2Proof.Machine

/-! ### One token -/

/-- The input between two positions. -/
def inRun (s : State) (a n : Nat) : List Byte := Memory.readBytes s.input a n

/-- A token as the encoder buffers it: its control bit, its bytes, how many input bytes it stands for. -/
structure TokenOf (s : State) (bit : Bool) (bytes : List Byte) (k : Nat) : Prop where
  pos : 1 ≤ k
  inside : s.enc.cur.toNat + k ≤ s.inLen.toNat
  short : bytes.length ≤ k
  size : bytes.length ≤ 2
  ref : bit = true → ∃ off lc, bytes = bytesBe16 (mkToken off lc) ∧ off ≠ s.win.wo ∧
    copyList s.win off.toNat (lc.toNat + 2) = inRun s s.enc.cur.toNat k
  lit : bit = false → bytes = [inByte s s.enc.cur.toNat] ∧ k = 1

theorem cur_add {s : State} {k : Nat} (h : s.enc.cur.toNat + k ≤ s.inLen.toNat) :
    (s.enc.cur + BitVec.ofNat 32 k).toNat = s.enc.cur.toNat + k := by
  have := s.inLen.isLt
  rw [BitVec.toNat_add, BitVec.toNat_ofNat]; omega

/-- The encoder registers after a token has joined the group and a full group has been flushed. -/
def joined (e : EncRegs) (bit : Bool) (bytes : List Byte) : EncRegs :=
  if (e.ebit + 1) = 8 then
    { e with
      payload := e.payload ++ (pushToken bytes bit e).ectrl :: (e.tokbuf ++ bytes)
      ectrl := 0, ebit := 0, tokbuf := [], toklen := 0 }
  else pushToken bytes bit e

/-- What one pass of the loop of R180 does: it takes a token's worth of input, appends it to the window and buffers the token. The
search registers `W0`, `DI`, `M`, `L`, `MOFF` are left out: the next pass writes them again. -/
theorem encodeToken_effect {s : State} (h : s.enc.cur.toNat < s.inLen.toNat) :
    ∃ bit bytes k e, TokenOf s bit bytes k ∧
      encodeToken s =
        { s with
          win := s.win.appendAll (inRun s s.enc.cur.toNat k)
          enc := { joined e bit bytes with cur := s.enc.cur + BitVec.ofNat 32 k } } ∧
      e = { s.enc with w0 := e.w0, di := e.di, m := e.m, l := e.l, moff := e.moff } := by
  obtain ⟨h1, h2, h3, h4, h5, h6, h7, h8⟩ := doMatch_facts s
  have hgen : ∀ u : State, (if u.enc.ebit = 8 then flush u else u) =
      { u with enc := if u.enc.ebit = 8 then (flush u).enc else u.enc } := by
    intro u; split_ifs <;> rfl
  by_cases hl : 2 ≤ (doMatch s).enc.l.toNat
  · have hoff : (BitVec.setWidth 12 (doMatch s).enc.moff).toNat = (doMatch s).enc.moff.toNat := by
      have := s.win.wo.isLt
      have := h4 (by omega)
      rw [BitVec.toNat_setWidth]; omega
    have hlc : (BitVec.setWidth 4 ((doMatch s).enc.l - 2)).toNat + 2 = (doMatch s).enc.l.toNat := by
      rw [BitVec.toNat_setWidth, BitVec.toNat_sub, show (2 : BitVec 5).toNat = 2 from rfl]
      omega
    refine ⟨true, bytesBe16 (mkToken ((doMatch s).enc.moff.setWidth 12) (((doMatch s).enc.l - 2).setWidth 4)),
      (doMatch s).enc.l.toNat, (doMatch s).enc, ⟨by omega, by omega, by simp; omega, by simp, fun _ => ?_, by simp⟩, ?_, rfl⟩
    · refine ⟨_, _, rfl, ?_, ?_⟩
      · intro hc
        have := congrArg BitVec.toNat hc
        rw [hoff] at this
        have := h4 (by omega)
        omega
      · rw [hoff, hlc]
        have hrep : ∀ k < (doMatch s).enc.l.toNat, (s.win.appendAll (inputRun (matchInput s) k)).read
            ((doMatch s).enc.moff.toNat + k) = matchInput s k := by
          intro k hk
          rw [inputRun_matchInput]; exact h6 k hk
        rw [copyList_of_reproduced hrep, inputRun_matchInput]; rfl
    · unfold encodeToken
      simp only [show minMatch ≤ (doMatch s).enc.l.toNat from hl, if_true]
      rw [hgen]
      have hcur : (doMatch s).enc.l.setWidth 32 = BitVec.ofNat 32 (doMatch s).enc.l.toNat := by
        apply BitVec.eq_of_toNat_eq; simp
      have hw : (emitRef (doMatch s)).win = s.win.appendAll (inRun s s.enc.cur.toNat (doMatch s).enc.l.toNat) := h3
      rw [← hw, ← hcur]
      unfold joined
      have hb : (emitRef (doMatch s)).enc.ebit = (doMatch s).enc.ebit + 1 := rfl
      rw [hb]
      split_ifs <;> rfl
  · have hin : inRun s s.enc.cur.toNat 1 = [inByte s s.enc.cur.toNat] := rfl
    refine ⟨false, [inByte s s.enc.cur.toNat], 1, (doMatch s).enc,
      ⟨le_rfl, by omega, by simp, by simp, by simp, fun _ => ⟨rfl, rfl⟩⟩, ?_, rfl⟩
    unfold encodeToken
    simp only [show ¬ minMatch ≤ (doMatch s).enc.l.toNat from hl, if_false]
    rw [hgen]
    have hw : (emitLit (doMatch s)).win = s.win.appendAll (inRun s s.enc.cur.toNat 1) := by
      unfold emitLit
      by_cases h0 : (doMatch s).enc.l = 0
      · simp only [h0, if_true]
        rw [dictAppend_win, h3, h0]; rfl
      · simp only [h0, if_false]
        have h0' : (doMatch s).enc.l.toNat ≠ 0 := fun e => h0 (BitVec.eq_of_toNat_eq e)
        rw [h3, show (doMatch s).enc.l.toNat = 1 by omega]; rfl
    have he : (emitLit (doMatch s)).enc =
        { pushToken [inByte s s.enc.cur.toNat] false (doMatch s).enc with cur := s.enc.cur + BitVec.ofNat 32 1 } := by
      unfold emitLit; split_ifs <;> rfl
    have hf : emitLit (doMatch s) = { s with win := (emitLit (doMatch s)).win, enc := (emitLit (doMatch s)).enc } := by
      unfold emitLit; split_ifs <;> rfl
    have hb : (emitLit (doMatch s)).enc.ebit = (doMatch s).enc.ebit + 1 := by rw [he]; rfl
    rw [hb, ← hw]
    unfold joined
    split_ifs with h8
    · rw [flush_enc, he, hf]; rfl
    · rw [he, hf]

/-! ### The token loop -/

/-- The loop invariant: the cursor within the input, a group with room, control bits of tokens not yet there still 0, the
token buffer within its bytes. -/
structure EncInv (s : State) : Prop where
  cur : s.enc.cur.toNat ≤ s.inLen.toNat
  room : s.enc.ebit.toNat < 8
  clear : ∀ j, s.enc.ebit.toNat ≤ j → s.enc.ectrl.getLsbD j = false
  toklen : s.enc.toklen.toNat = s.enc.tokbuf.length
  fits : s.enc.tokbuf.length ≤ 2 * s.enc.ebit.toNat

theorem ebit_succ {b : BitVec 4} (h : b.toNat < 8) : (b + 1).toNat = b.toNat + 1 := by
  rw [BitVec.toNat_add]; simp; omega

theorem ebit_full {b : BitVec 4} (h : b.toNat < 8) : b + 1 = 8 ↔ b.toNat = 7 := by
  constructor
  · intro e
    have := congrArg BitVec.toNat e
    rw [ebit_succ h] at this
    simpa using this
  · intro e
    apply BitVec.eq_of_toNat_eq
    rw [ebit_succ h, e]; rfl

/-- The control bits after a token: its own bit at `EBIT`, the others as before. -/
theorem pushToken_ectrl (bytes : List Byte) (bit : Bool) (e : EncRegs) (j : Nat) (hj : j < 8) :
    (pushToken bytes bit e).ectrl.getLsbD j = (e.ectrl.getLsbD j || (bit && decide (j = e.ebit.toNat))) := by
  cases bit
  · simp [pushToken]
  · have h1 : ((1#8 : BitVec 8) <<< e.ebit.toNat).getLsbD j = decide (j = e.ebit.toNat) := by
      rw [BitVec.getLsbD_shiftLeft, BitVec.getLsbD_one]
      by_cases h : j < e.ebit.toNat
      · simp [h]; omega
      · by_cases h' : j = e.ebit.toNat
        · subst h'; simp [hj]
        · have : j - e.ebit.toNat ≠ 0 := by omega
          simp [h', this]
    show (e.ectrl ||| ((1#8 : BitVec 8) <<< e.ebit.toNat)).getLsbD j = _
    rw [BitVec.getLsbD_or, h1]; simp

theorem pushToken_toklen {bytes : List Byte} {bit : Bool} {e : EncRegs} (h1 : e.toklen.toNat = e.tokbuf.length)
    (h2 : e.tokbuf.length ≤ 2 * e.ebit.toNat) (h3 : e.ebit.toNat < 8) (h4 : bytes.length ≤ 2) :
    (pushToken bytes bit e).toklen.toNat = (pushToken bytes bit e).tokbuf.length := by
  show (e.toklen + BitVec.ofNat 5 bytes.length).toNat = (e.tokbuf ++ bytes).length
  rw [BitVec.toNat_add, BitVec.toNat_ofNat, List.length_append]; omega

/-- A token that joins keeps what the loop invariant says of the group. -/
theorem joined_inv {e : EncRegs} {bit : Bool} {bytes : List Byte} (hroom : e.ebit.toNat < 8)
    (hclear : ∀ j, e.ebit.toNat ≤ j → e.ectrl.getLsbD j = false) (htok : e.toklen.toNat = e.tokbuf.length)
    (hfit : e.tokbuf.length ≤ 2 * e.ebit.toNat) (hsize : bytes.length ≤ 2) :
    (joined e bit bytes).ebit.toNat < 8 ∧
      (∀ j, (joined e bit bytes).ebit.toNat ≤ j → (joined e bit bytes).ectrl.getLsbD j = false) ∧
      (joined e bit bytes).toklen.toNat = (joined e bit bytes).tokbuf.length ∧
      (joined e bit bytes).tokbuf.length ≤ 2 * (joined e bit bytes).ebit.toNat := by
  unfold joined
  split_ifs with h
  · simp
  · rw [ebit_full hroom] at h
    have hb : (pushToken bytes bit e).ebit.toNat = e.ebit.toNat + 1 := ebit_succ hroom
    refine ⟨by omega, fun j hj => ?_, pushToken_toklen htok hfit hroom hsize, ?_⟩
    · by_cases h8 : j < 8
      · rw [pushToken_ectrl _ _ _ _ h8, hclear j (by omega)]
        rw [decide_eq_false (by omega)]; simp
      · exact BitVec.getLsbD_of_ge _ _ (by omega)
    · rw [hb]
      show (e.tokbuf ++ bytes).length ≤ _
      rw [List.length_append]; omega

theorem EncInv.token {s t : State} {bit : Bool} {bytes : List Byte} {k : Nat} {e : EncRegs} (h : EncInv s)
    (htok : TokenOf s bit bytes k)
    (ht : t = { s with
      win := s.win.appendAll (inRun s s.enc.cur.toNat k)
      enc := { joined e bit bytes with cur := s.enc.cur + BitVec.ofNat 32 k } })
    (he : e = { s.enc with w0 := e.w0, di := e.di, m := e.m, l := e.l, moff := e.moff }) : EncInv t := by
  have e1 : e.ebit = s.enc.ebit := by rw [he]
  have e2 : e.ectrl = s.enc.ectrl := by rw [he]
  have e3 : e.toklen = s.enc.toklen := by rw [he]
  have e4 : e.tokbuf = s.enc.tokbuf := by rw [he]
  obtain ⟨j1, j2, j3, j4⟩ := joined_inv (e := e) (bit := bit) (bytes := bytes) (by rw [e1]; exact h.room)
    (by rw [e1, e2]; exact h.clear) (by rw [e3, e4]; exact h.toklen) (by rw [e1, e4]; exact h.fits) htok.size
  subst ht
  refine ⟨?_, j1, j2, j3, j4⟩
  show (s.enc.cur + BitVec.ofNat 32 k).toNat ≤ s.inLen.toNat
  rw [cur_add htok.inside]; exact htok.inside

/-- The end of the loop: the end marker joins the group and the group is flushed (R192, R190). -/
theorem flush_emitEnd (s : State) :
    flush (emitEnd s) =
      { s with
        enc := { s.enc with
          payload := s.enc.payload ++
            (pushToken (bytesBe16 (mkToken s.win.wo 0)) true s.enc).ectrl ::
              (s.enc.tokbuf ++ bytesBe16 (mkToken s.win.wo 0))
          ectrl := 0, ebit := 0, tokbuf := [], toklen := 0 } } := rfl

/-- What the end of the loop leaves when the whole input has been passed. -/
theorem flush_emitEnd_effect {s : State} (h : EncInv s) (hc : s.inLen.toNat ≤ s.enc.cur.toNat) :
    ∃ e, flush (emitEnd s) =
        { s with
          win := s.win.appendAll (inRun s s.enc.cur.toNat (s.inLen.toNat - s.enc.cur.toNat)), enc := e } ∧
      e.cur = s.inLen ∧ e.ebit = 0 ∧ e.tokbuf = [] ∧ e.toklen = 0 ∧
      e.payload.length ≤ s.enc.payload.length + 1 + s.enc.tokbuf.length + (s.inLen.toNat - s.enc.cur.toNat) + 2 +
        (s.enc.ebit.toNat + (s.inLen.toNat - s.enc.cur.toNat)) / 8 := by
  have h0 : s.inLen.toNat - s.enc.cur.toNat = 0 := by omega
  refine ⟨_, by rw [flush_emitEnd, h0]; rfl, ?_, rfl, rfl, rfl, ?_⟩
  · apply BitVec.eq_of_toNat_eq
    show s.enc.cur.toNat = _
    have := h.cur; omega
  · simp only [List.length_append, List.length_cons, length_bytesBe16]; omega

/-- What the token loop leaves: `CUR` past the whole input, every byte of it from `CUR` on appended once (R195), a group just flushed, a
payload no longer than R196 says, and nothing outside the window and the encoder's registers changed. -/
theorem encodeLoop_effect (n : Nat) (s : State) (h : EncInv s) (hn : s.inLen.toNat ≤ s.enc.cur.toNat + n) :
    ∃ e, encodeLoop n s =
        { s with
          win := s.win.appendAll (inRun s s.enc.cur.toNat (s.inLen.toNat - s.enc.cur.toNat)), enc := e } ∧
      e.cur = s.inLen ∧ e.ebit = 0 ∧ e.tokbuf = [] ∧ e.toklen = 0 ∧
      e.payload.length ≤ s.enc.payload.length + 1 + s.enc.tokbuf.length + (s.inLen.toNat - s.enc.cur.toNat) + 2 +
        (s.enc.ebit.toNat + (s.inLen.toNat - s.enc.cur.toNat)) / 8 := by
  induction n generalizing s with
  | zero => exact flush_emitEnd_effect h (by omega)
  | succ n ih =>
    rw [encodeLoop]
    split_ifs with hc
    · exact flush_emitEnd_effect h hc
    · obtain ⟨bit, bytes, k, e, htok, ht, he⟩ := encodeToken_effect (s := s) (by omega)
      have h' := h.token htok ht he
      have hcur := cur_add htok.inside
      have hk := htok.pos
      have hin := htok.inside
      have hsh := htok.short
      have hroom := h.room
      have tcur : (encodeToken s).enc.cur = s.enc.cur + BitVec.ofNat 32 k := by rw [ht]
      have tlen : (encodeToken s).inLen = s.inLen := by rw [ht]
      have tenc : (encodeToken s).enc = { joined e bit bytes with cur := s.enc.cur + BitVec.ofNat 32 k } := by rw [ht]
      have tin : (encodeToken s).input = s.input := by rw [ht]
      have twin : (encodeToken s).win = s.win.appendAll (inRun s s.enc.cur.toNat k) := by rw [ht]
      obtain ⟨f, hf, f1, f2, f3, f4, f5⟩ := ih (encodeToken s) h' (by rw [tlen, tcur, hcur]; omega)
      · refine ⟨f, ?_, by rw [f1, tlen], f2, f3, f4, ?_⟩
        · have hrun : s.inLen.toNat - s.enc.cur.toNat = k + (s.inLen.toNat - (s.enc.cur.toNat + k)) := by omega
          have hw : (encodeToken s).win.appendAll (inRun (encodeToken s) (encodeToken s).enc.cur.toNat
              ((encodeToken s).inLen.toNat - (encodeToken s).enc.cur.toNat)) =
              s.win.appendAll (inRun s s.enc.cur.toNat (s.inLen.toNat - s.enc.cur.toNat)) := by
            rw [twin, tcur, hcur, tlen, hrun, inRun, inRun, inRun, tin, Memory.readBytes_add, Window.appendAll_append]
          rw [hf, hw, ht]
        · rw [tcur, hcur, tlen] at f5
          refine le_trans f5 ?_
          have e1 : e.ebit = s.enc.ebit := by rw [he]
          have e4 : e.tokbuf = s.enc.tokbuf := by rw [he]
          have e5 : e.payload = s.enc.payload := by rw [he]
          rw [tenc]
          unfold joined
          have hf8 := ebit_full hroom
          by_cases h8 : s.enc.ebit + 1 = 8
          · rw [e1, if_pos h8]
            rw [hf8] at h8
            simp only [List.length_append, List.length_cons, List.length_nil, e4, e5]
            have z : (0 : BitVec 4).toNat = 0 := rfl
            rw [z]
            omega
          · rw [e1, if_neg h8]
            rw [hf8] at h8
            show e.payload.length + 1 + (e.tokbuf ++ bytes).length + _ + 2 + ((e.ebit + 1).toNat + _) / 8 ≤ _
            rw [List.length_append, e1, e4, e5, ebit_succ hroom]
            omega

end Sys2Proof.Machine
end

