-- ==== Sys2Proof/Laws/RoundTrip.lean ====
section
/-!
SUPPORT. A decoder run on what the encoder buffered (R166, R195): token by token, then the whole payload.
-/

namespace Sys2Proof.Machine

/-! ### One element in front of a decoder -/

/-- The decoder has exactly `bytes` of the payload in front of it. -/
def Reads (d : State) (bytes : List Byte) : Prop :=
  d.dec.ip.toNat ≤ d.dec.pend.toNat ∧
    Memory.readBytes d.input d.dec.ip.toNat (d.dec.pend.toNat - d.dec.ip.toNat) = bytes

theorem Reads.length {d : State} {bytes : List Byte} (h : Reads d bytes) :
    d.dec.pend.toNat = d.dec.ip.toNat + bytes.length := by
  have := congrArg List.length h.2
  rw [Memory.length_readBytes] at this
  have := h.1
  omega

theorem Reads.split {d : State} {xs ys : List Byte} (h : Reads d (xs ++ ys)) :
    Memory.readBytes d.input d.dec.ip.toNat xs.length = xs ∧
      Memory.readBytes d.input (d.dec.ip.toNat + xs.length) ys.length = ys := by
  have hl := h.length
  have h2 := h.2
  rw [List.length_append] at hl
  rw [show d.dec.pend.toNat - d.dec.ip.toNat = xs.length + ys.length by omega, Memory.readBytes_add] at h2
  exact List.append_inj h2 (by simp)

/-- Moving `IP` past the first bytes. -/
theorem Reads.advance {d d' : State} {xs ys : List Byte} (h : Reads d (xs ++ ys)) (hi : d'.input = d.input)
    (hp : d'.dec.pend = d.dec.pend) (hip : d'.dec.ip = d.dec.ip + BitVec.ofNat 32 xs.length) : Reads d' ys := by
  have hl := h.length
  rw [List.length_append] at hl
  have e := ip_add d (k := xs.length) rfl (by omega)
  rw [← hip] at e
  refine ⟨by rw [hp]; omega, ?_⟩
  rw [hi, hp, e, show d.dec.pend.toNat - (d.dec.ip.toNat + xs.length) = ys.length by omega]
  exact h.split.2

theorem pass_ctl {d : State} {c : Byte} {rest : List Byte} (h8 : d.dec.bitc = 8) (h : Reads d (c :: rest)) :
    streamPass d = .more (ctl c d) ∧ Reads (ctl c d) rest := by
  have hl := h.length
  have hs := (Reads.split (xs := [c]) h).1
  simp only [List.length_cons] at hl
  have hb : inByte d d.dec.ip.toNat = c := List.head_eq_of_cons_eq hs
  constructor
  · unfold streamPass
    rw [nextElement_eq, if_pos h8, if_pos (by omega), hb]
  · exact Reads.advance (xs := [c]) h rfl rfl rfl

theorem pass_lit {d : State} {b : Byte} {rest : List Byte} (h8 : d.dec.bitc ≠ 8)
    (hbit : d.dec.ctrl.getLsbD d.dec.bitc.toNat = false) (h : Reads d (b :: rest)) :
    streamPass d = .more (nextBit (lit b d)) ∧ Reads (nextBit (lit b d)) rest := by
  have hl := h.length
  have hs := (Reads.split (xs := [b]) h).1
  simp only [List.length_cons] at hl
  have hb : inByte d d.dec.ip.toNat = b := List.head_eq_of_cons_eq hs
  constructor
  · unfold streamPass
    rw [nextElement_eq, if_neg h8, if_neg (by rw [hbit]; decide), if_pos (by omega), hb]
  · exact Reads.advance (xs := [b]) h rfl rfl rfl

theorem reads_token {d : State} {off : Pos} {lc : LenCode} {rest : List Byte} (h8 : d.dec.bitc ≠ 8)
    (hbit : d.dec.ctrl.getLsbD d.dec.bitc.toNat = true) (h : Reads d (bytesBe16 (mkToken off lc) ++ rest)) :
    nextElement d = some (if off = d.win.wo then .endMark off lc else .ref off lc) := by
  have hl := h.length
  have hs := h.split.1
  simp only [List.length_append, length_bytesBe16] at hl hs
  have hs' : [inByte d d.dec.ip.toNat, inByte d (d.dec.ip.toNat + 1)] =
      [(mkToken off lc).extractLsb' 8 8, (mkToken off lc).extractLsb' 0 8] := hs
  simp only [List.cons.injEq, and_true] at hs'
  rw [nextElement_eq, if_neg h8, if_pos hbit, if_pos (by omega), hs'.1, hs'.2, be16_bytes, decodeToken,
    tokOff_mkToken, tokLc_mkToken]

theorem pass_ref {d : State} {off : Pos} {lc : LenCode} {rest : List Byte} (h8 : d.dec.bitc ≠ 8)
    (hbit : d.dec.ctrl.getLsbD d.dec.bitc.toNat = true) (ho : off ≠ d.win.wo)
    (h : Reads d (bytesBe16 (mkToken off lc) ++ rest)) :
    streamPass d = .more (nextBit (ref off lc (latchToken off lc d))) ∧
      Reads (nextBit (ref off lc (latchToken off lc d))) rest := by
  constructor
  · unfold streamPass
    rw [reads_token h8 hbit h, if_neg ho]
  · rw [ref_eq]
    exact Reads.advance h rfl rfl rfl

theorem pass_end {d : State} {lc : LenCode} (h8 : d.dec.bitc ≠ 8)
    (hbit : d.dec.ctrl.getLsbD d.dec.bitc.toNat = true) (h : Reads d (bytesBe16 (mkToken d.win.wo lc))) :
    streamPass d = .stop (noteEnd (latchToken d.win.wo lc d)) := by
  unfold streamPass
  rw [reads_token (rest := []) h8 hbit (by rwa [List.append_nil]), if_pos rfl]

/-! ### One token of the encoder -/

/-- A decoder with the encoder's window takes the encoder's token for what it stands for (R195). -/
theorem TokenOf.decodes {s d : State} {bit : Bool} {bytes rest : List Byte} {k : Nat} (h : TokenOf s bit bytes k)
    (hw : d.win = s.win) (h8 : d.dec.bitc.toNat < 8) (hbit : d.dec.ctrl.getLsbD d.dec.bitc.toNat = bit)
    (hr : Reads d (bytes ++ rest)) :
    ∃ d', streamPass d = .more d' ∧ Reads d' rest ∧ d'.win = s.win.appendAll (inRun s s.enc.cur.toNat k) ∧
      d'.dec.bitc.toNat = d.dec.bitc.toNat + 1 ∧ d'.dec.ctrl = d.dec.ctrl ∧
      outBytes d' = outBytes d ++ inRun s s.enc.cur.toNat k ∧ d'.status = d.status := by
  have h8' : d.dec.bitc ≠ 8 := by rintro e; rw [e] at h8; exact absurd h8 (by decide)
  cases bit
  · obtain ⟨rfl, rfl⟩ := h.lit rfl
    obtain ⟨p1, p2⟩ := pass_lit h8' hbit hr
    refine ⟨_, p1, p2, ?_, ebit_succ h8, rfl, ?_, rfl⟩
    · show d.win.append _ = _; rw [hw]; rfl
    · exact outBytes_produce d [inByte s s.enc.cur.toNat] { d.dec with ip := d.dec.ip + 1 }
  · obtain ⟨off, lc, rfl, ho, hc⟩ := h.ref rfl
    obtain ⟨p1, p2⟩ := pass_ref h8' hbit (by rwa [hw]) hr
    have e := ref_produce off lc (latchToken off lc d)
    have hc' : copyList (latchToken off lc d).win off.toNat (lc.toNat + 2) = inRun s s.enc.cur.toNat k := by
      rw [← hc]; show copyList d.win _ _ = _; rw [hw]
    rw [hc'] at e
    refine ⟨_, p1, p2, ?_, ?_, ?_, ?_, ?_⟩
    · rw [nextBit_win, e]; show d.win.appendAll _ = _; rw [hw]
    · rw [nextBit_dec, e]; exact ebit_succ h8
    · rw [nextBit_dec, e]; rfl
    · show outBytes (Machine.ref off lc (latchToken off lc d)) = _
      rw [e, outBytes_produce]; rfl
    · rw [nextBit_status, e]; rfl

/-! ### The whole payload -/

/-- What the encoder's token loop adds to the payload after the finished groups: a control byte whose low bits are those of
the tokens already buffered, the buffered bytes, and `rest`; and a decoder that stands where the encoder stands, with that control
byte and `rest` in front of it, produces the rest of the input, has seen `END`, and has the encoder's window. -/
theorem encodeLoop_decodes (n : Nat) (s : State) (h : EncInv s) (hn : s.inLen.toNat ≤ s.enc.cur.toNat + n) :
    ∃ c rest, (encodeLoop n s).enc.payload = s.enc.payload ++ c :: (s.enc.tokbuf ++ rest) ∧
      (∀ j < s.enc.ebit.toNat, c.getLsbD j = s.enc.ectrl.getLsbD j) ∧
      ∀ (d : State) (m : Nat), d.win = s.win → d.dec.bitc = s.enc.ebit → d.dec.ctrl = c → Reads d rest →
        rest.length < m →
        (runStream m d).status = { d.status with endSeen := true } ∧
        outBytes (runStream m d) =
          outBytes d ++ inRun s s.enc.cur.toNat (s.inLen.toNat - s.enc.cur.toNat) ∧
        (runStream m d).win =
          s.win.appendAll (inRun s s.enc.cur.toNat (s.inLen.toNat - s.enc.cur.toNat)) := by
  have stop : ∀ s, EncInv s → s.inLen.toNat ≤ s.enc.cur.toNat →
      ∃ c rest, (flush (emitEnd s)).enc.payload = s.enc.payload ++ c :: (s.enc.tokbuf ++ rest) ∧
      (∀ j < s.enc.ebit.toNat, c.getLsbD j = s.enc.ectrl.getLsbD j) ∧
      ∀ (d : State) (m : Nat), d.win = s.win → d.dec.bitc = s.enc.ebit → d.dec.ctrl = c → Reads d rest →
        rest.length < m →
        (runStream m d).status = { d.status with endSeen := true } ∧
        outBytes (runStream m d) =
          outBytes d ++ inRun s s.enc.cur.toNat (s.inLen.toNat - s.enc.cur.toNat) ∧
        (runStream m d).win =
          s.win.appendAll (inRun s s.enc.cur.toNat (s.inLen.toNat - s.enc.cur.toNat)) := by
    intro s h hc
    have h0 : s.inLen.toNat - s.enc.cur.toNat = 0 := by omega
    have hroom := h.room
    refine ⟨(pushToken (bytesBe16 (mkToken s.win.wo 0)) true s.enc).ectrl, bytesBe16 (mkToken s.win.wo 0), rfl,
      fun j hj => ?_, fun d m hw hb hct hr hm => ?_⟩
    · rw [pushToken_ectrl _ _ _ _ (by omega), decide_eq_false (by omega)]; simp
    · rw [h0, inRun, Memory.readBytes, List.append_nil]
      have hbit : d.dec.ctrl.getLsbD d.dec.bitc.toNat = true := by
        rw [hct, hb, pushToken_ectrl _ _ _ _ hroom]; simp
      have h8 : d.dec.bitc ≠ 8 := by
        rw [hb]; rintro e; rw [e] at hroom; exact absurd hroom (by decide)
      rw [← hw] at hr
      have hp := pass_end h8 hbit hr
      obtain ⟨m, rfl⟩ : ∃ m', m = m' + 1 := ⟨m - 1, by omega⟩
      rw [runStream, hp]
      exact ⟨rfl, rfl, hw⟩
  induction n generalizing s with
  | zero => exact stop s h (by omega)
  | succ n ih =>
    rw [encodeLoop]
    split_ifs with hc
    · exact stop s h hc
    · obtain ⟨bit, bytes, k, e, htok, ht, he⟩ := encodeToken_effect (s := s) (by omega)
      have h' := h.token htok ht he
      have hcur := cur_add htok.inside
      have hk := htok.pos
      have hin := htok.inside
      have hroom := h.room
      have tcur : (encodeToken s).enc.cur = s.enc.cur + BitVec.ofNat 32 k := by rw [ht]
      have tlen : (encodeToken s).inLen = s.inLen := by rw [ht]
      have tenc : (encodeToken s).enc = { joined e bit bytes with cur := s.enc.cur + BitVec.ofNat 32 k } := by rw [ht]
      have tin : (encodeToken s).input = s.input := by rw [ht]
      have twin : (encodeToken s).win = s.win.appendAll (inRun s s.enc.cur.toNat k) := by rw [ht]
      have hrun : s.inLen.toNat - s.enc.cur.toNat = k + (s.inLen.toNat - (s.enc.cur.toNat + k)) := by omega
      have hsplit : inRun s s.enc.cur.toNat (s.inLen.toNat - s.enc.cur.toNat) =
          inRun s s.enc.cur.toNat k ++ inRun (encodeToken s) (encodeToken s).enc.cur.toNat
            ((encodeToken s).inLen.toNat - (encodeToken s).enc.cur.toNat) := by
        rw [tcur, hcur, tlen, hrun, inRun, inRun, inRun, tin, Memory.readBytes_add]
      obtain ⟨c, rest, hpay, hlow, hdec⟩ := ih (encodeToken s) h' (by rw [tlen, tcur, hcur]; omega)
      have e1 : e.ebit = s.enc.ebit := by rw [he]
      have e2 : e.ectrl = s.enc.ectrl := by rw [he]
      have e4 : e.tokbuf = s.enc.tokbuf := by rw [he]
      have e5 : e.payload = s.enc.payload := by rw [he]
      have hbl : 1 ≤ bytes.length := by
        by_cases hbb : bit = true
        · obtain ⟨_, _, hb2, _⟩ := htok.ref hbb; rw [hb2]; simp
        · rw [(htok.lit (by simpa using hbb)).1]; simp
      have own : (pushToken bytes bit e).ectrl.getLsbD s.enc.ebit.toNat = bit := by
        rw [pushToken_ectrl _ _ _ _ hroom, e2, h.clear _ le_rfl, e1]; simp
      have low : ∀ j < s.enc.ebit.toNat, (pushToken bytes bit e).ectrl.getLsbD j = s.enc.ectrl.getLsbD j := by
        intro j hj
        rw [pushToken_ectrl _ _ _ _ (by omega), e2, e1, decide_eq_false (by omega)]; simp
      rw [hsplit]
      unfold joined at tenc
      rw [e1] at tenc
      by_cases h8 : s.enc.ebit + 1 = 8
      · -- the group is full: its control byte is settled, and a new one follows its tokens
        rw [if_pos h8] at tenc
        rw [ebit_full hroom] at h8
        refine ⟨(pushToken bytes bit e).ectrl, bytes ++ c :: rest, ?_, low, fun d m hw hb hct hr hm => ?_⟩
        · rw [hpay, tenc]
          simp only [e4, e5, List.append_assoc, List.cons_append, List.nil_append]
        · obtain ⟨d', p1, p2, p3, p4, p5, p6, p7⟩ := htok.decodes (rest := c :: rest) hw (by rw [hb]; exact hroom)
            (by rw [hct, hb]; exact own) hr
          have b8 : d'.dec.bitc = 8 := by
            apply BitVec.eq_of_toNat_eq; rw [p4, hb, h8]; rfl
          obtain ⟨q1, q2⟩ := pass_ctl b8 p2
          simp only [List.length_append, List.length_cons] at hm
          obtain ⟨m, rfl⟩ : ∃ m', m = m' + 2 := ⟨m - 2, by omega⟩
          rw [runStream, p1]
          simp only
          rw [runStream, q1]
          simp only
          obtain ⟨r1, r2, r3⟩ := hdec (ctl c d') m (by rw [twin]; exact p3) (by rw [tenc]; rfl) rfl q2 (by omega)
          refine ⟨?_, ?_, ?_⟩
          · rw [r1, ctl_status, p7]
          · rw [r2]; show outBytes d' ++ _ = _; rw [p6, List.append_assoc]
          · rw [r3, twin, Window.appendAll_append]
      · -- the group goes on
        rw [if_neg h8] at tenc
        have tb : (encodeToken s).enc.ebit.toNat = s.enc.ebit.toNat + 1 := by
          rw [tenc]; show (e.ebit + 1).toNat = _; rw [e1, ebit_succ hroom]
        have hlow' : ∀ j < s.enc.ebit.toNat + 1, c.getLsbD j = (pushToken bytes bit e).ectrl.getLsbD j := by
          intro j hj
          rw [hlow j (by rw [tb]; exact hj), tenc]
        refine ⟨c, bytes ++ rest, ?_, fun j hj => ?_, fun d m hw hb hct hr hm => ?_⟩
        · rw [hpay, tenc]
          show e.payload ++ c :: (e.tokbuf ++ bytes ++ rest) = _
          rw [e4, e5, List.append_assoc]
        · rw [hlow' j (by omega), low j hj]
        · obtain ⟨d', p1, p2, p3, p4, p5, p6, p7⟩ := htok.decodes (rest := rest) hw (by rw [hb]; exact hroom)
            (by rw [hct, hb, hlow' _ (by omega)]; exact own) hr
          rw [List.length_append] at hm
          obtain ⟨m, rfl⟩ : ∃ m', m = m' + 1 := ⟨m - 1, by omega⟩
          rw [runStream, p1]
          simp only
          obtain ⟨r1, r2, r3⟩ := hdec d' m (by rw [twin]; exact p3)
            (by apply BitVec.eq_of_toNat_eq; rw [p4, tb, hb]) (by rw [p5, hct]) p2 (by omega)
          refine ⟨?_, ?_, ?_⟩
          · rw [r1, p7]
          · rw [r2, p6, List.append_assoc]
          · rw [r3, twin, Window.appendAll_append]

end Sys2Proof.Machine
end

