-- ==== Sys2Proof/Laws/Container.lean ====
section
/-!
SUPPORT. `COMPRESS` and `COMPRESS.S` whole: the state they leave, the container in `OUT`, and its reading back; and that nothing but
the command's input reaches the result.
-/

namespace Sys2Proof.Machine

/-! ### Building the container -/

/-- The header registers `HBUILD` writes (R142). -/
def builtHdr (tag : U32) (s : State) : Header :=
  ⟨builtCompSize s, s.inLen, tag, s.hdr.crc⟩

/-- The bytes `HBUILD` emits (R142). -/
def builtBytes (tag : U32) (s : State) : List Byte :=
  encodeHeader (builtHdr tag s).compSize (builtHdr tag s).rawSize tag (builtHdr tag s).crc ++ s.enc.payload

theorem length_builtBytes (tag : U32) (s : State) : (builtBytes tag s).length = 16 + s.enc.payload.length := by
  simp [builtBytes]

/-- `HBUILD` (R142): the header registers are written, and the header and the payload emitted. A free value is used up where
`COMP_SIZE` is one. -/
theorem hbuild_eq (tag : U32) (s : State) :
    hbuild tag s =
      { s with
        hdr := builtHdr tag s
        hdrDefined := true
        output := Memory.writeBytes s.output s.outLen (builtBytes tag s)
        outLen := s.outLen + (builtBytes tag s).length
        freeIndex := if compSizeFits s then s.freeIndex else s.freeIndex + 1 } := by
  rw [hbuild, emitAll_eq]; rfl

@[simp] theorem compSizeFits_iff {s : State} : compSizeFits s = true ↔ s.enc.payload.length + 12 < 2 ^ 32 :=
  decide_eq_true_iff

theorem builtCompSize_fits {s : State} (h : s.enc.payload.length + 12 < 2 ^ 32) :
    builtCompSize s = BitVec.ofNat 32 (s.enc.payload.length + 12) := if_pos (compSizeFits_iff.2 h)

/-- `HBUILD` where `COMP_SIZE` has room, as in both commands: no free value is used. -/
theorem hbuild_fits (tag : U32) {s : State} (h : s.enc.payload.length + 12 < 2 ^ 32) :
    hbuild tag s =
      { s with
        hdr := builtHdr tag s
        hdrDefined := true
        output := Memory.writeBytes s.output s.outLen (builtBytes tag s)
        outLen := s.outLen + (builtBytes tag s).length } := by
  rw [hbuild_eq, if_pos (compSizeFits_iff.2 h)]

theorem openEncoder_inv (P : Params) (s : State) : EncInv (openEncoder P s) := by
  refine ⟨Nat.zero_le _, by show (0 : BitVec 4).toNat < 8; decide, fun j _ => ?_, rfl, Nat.zero_le _⟩
  show (0 : BitVec 8).getLsbD j = false
  simp

/-- The compressor's registers when its token loop has ended. -/
def encoded (P : Params) (s : State) : EncRegs := (encodeLoop s.inLen.toNat (openEncoder P (startCommand s))).enc

theorem openEncoder_cur (P : Params) (s : State) : (openEncoder P (startCommand s)).enc.cur.toNat = 0 := rfl

/-- The compressor's token loop, run from its start. -/
theorem encoded_loop (P : Params) (s : State) :
    encodeLoop s.inLen.toNat (openEncoder P (startCommand s)) =
        { startCommand s with win := (Window.init P).appendAll (inBytes s), enc := encoded P s } ∧
      (encoded P s).cur = s.inLen ∧ (encoded P s).ebit = 0 ∧ (encoded P s).tokbuf = [] ∧ (encoded P s).toklen = 0 ∧
      (encoded P s).payload.length ≤ s.inLen.toNat + 2 + (s.inLen.toNat + 8) / 8 := by
  obtain ⟨e, h1, h2, h3, h4, h5, h6⟩ := encodeLoop_effect s.inLen.toNat (openEncoder P (startCommand s))
    (openEncoder_inv P (startCommand s)) (by
      show s.inLen.toNat ≤ 0 + s.inLen.toNat
      omega)
  have he : encoded P s = e := by unfold encoded; rw [h1]
  rw [he]
  refine ⟨h1, h2, h3, h4, h5, ?_⟩
  change e.payload.length ≤ 0 + 1 + 0 + (s.inLen.toNat - 0) + 2 + (0 + (s.inLen.toNat - 0)) / 8 at h6
  omega

/-- The header registers a compressing command leaves. -/
def packedHdr (P : Params) (s : State) (tag : U32) (payload : List Byte) : Header :=
  ⟨BitVec.ofNat 32 (payload.length + 12), s.inLen, tag, P.cksum payload⟩

/-- The container a compressing command builds. -/
def packed (P : Params) (s : State) (tag : U32) (payload : List Byte) : List Byte :=
  encodeHeader (BitVec.ofNat 32 (payload.length + 12)) s.inLen tag (P.cksum payload) ++ payload

/-- The payload of compressed mode leaves room for `COMP_SIZE` (R12, R196). -/
theorem encoded_fits (P : Params) {s : State} (hm : s.inLen.toNat ≤ maxIn) :
    (encoded P s).payload.length + 12 < 2 ^ 32 := by
  have := (encoded_loop P s).2.2.2.2.2
  simp only [maxIn] at hm
  omega

/-- `COMPRESS` (R180): the whole state it leaves. -/
theorem compress_eq (P : Params) {s : State} (hm : s.inLen.toNat ≤ maxIn) :
    compress P s =
      { s with
        status := ⟨.done, none, false, false⟩
        outLen := 0 + (packed P s tagLzfu (encoded P s).payload).length
        output := Memory.writeBytes s.output 0 (packed P s tagLzfu (encoded P s).payload)
        hdr := packedHdr P s tagLzfu (encoded P s).payload
        hdrDefined := true
        win := (Window.init P).appendAll (inBytes s)
        enc := encoded P s
        activity := .idle } := by
  have h := (encoded_loop P s).1
  unfold compress
  show finish (hbuild tagLzfu (ckgen P (encodeLoop s.inLen.toNat (openEncoder P (startCommand s))))) = _
  have hf := encoded_fits P hm
  rw [h, hbuild_fits, builtBytes, builtHdr, builtCompSize_fits]
  · rfl
  · exact hf
  · exact hf

/-- `COMPRESS.S` (R181): the whole state it leaves. -/
theorem compressStored_eq (P : Params) {s : State} (hm : s.inLen.toNat ≤ maxIn) :
    compressStored P s =
      { s with
        status := ⟨.done, none, false, false⟩
        outLen := 0 + (packed P s tagMela (inBytes s)).length
        output := Memory.writeBytes s.output 0 (packed P s tagMela (inBytes s))
        hdr := packedHdr P s tagMela (inBytes s)
        hdrDefined := true
        enc := { s.enc with payload := inBytes s }
        activity := .idle } := by
  have hf : (inBytes s).length + 12 < 2 ^ 32 := by
    simp only [maxIn] at hm
    simp only [inBytes, Memory.length_readBytes]; omega
  unfold compressStored
  simp only
  rw [hbuild_fits, builtBytes, builtHdr, builtCompSize_fits]
  · rfl
  · exact hf
  · exact hf

theorem outBytes_compress (P : Params) {s : State} (hm : s.inLen.toNat ≤ maxIn) :
    outBytes (compress P s) = packed P s tagLzfu (encoded P s).payload := by
  have : outBytes (compress P s) = outBytes { s with outLen := 0 } ++ packed P s tagLzfu (encoded P s).payload :=
    outBytes_of (by rw [compress_eq P hm]) (by rw [compress_eq P hm])
  rw [this]; rfl

theorem outBytes_compressStored (P : Params) {s : State} (hm : s.inLen.toNat ≤ maxIn) :
    outBytes (compressStored P s) = packed P s tagMela (inBytes s) := by
  have : outBytes (compressStored P s) = outBytes { s with outLen := 0 } ++ packed P s tagMela (inBytes s) :=
    outBytes_of (by rw [compressStored_eq P hm]) (by rw [compressStored_eq P hm])
  rw [this]; rfl

theorem length_packed (P : Params) (s : State) (tag : U32) (payload : List Byte) :
    (packed P s tag payload).length = 16 + payload.length := by simp [packed]

/-! ### Reading the container back -/

/-- `IN` holds the header of a container with these fields, and then `payload`, and nothing more. -/
theorem container_fields {s : State} {cs rs tag crc : U32} {payload : List Byte}
    (h : inBytes s = encodeHeader cs rs tag crc ++ payload) (hlen : payload.length + 12 = cs.toNat) :
    s.inLen.toNat = 16 + payload.length ∧ inLe32 s 0 = cs ∧ inLe32 s 4 = rs ∧ inLe32 s 8 = tag ∧ inLe32 s 12 = crc ∧
      payloadLenOf s = payload.length ∧ payloadOf s = payload := by
  have hl : s.inLen.toNat = 16 + payload.length := by
    have := congrArg List.length h
    simpa [inBytes] using this
  unfold inBytes at h
  rw [hl, Memory.readBytes_add] at h
  obtain ⟨h1, h2⟩ := List.append_inj h (by simp)
  rw [Nat.zero_add] at h2
  have hb : [inByte s 0, inByte s 1, inByte s 2, inByte s 3, inByte s 4, inByte s 5, inByte s 6, inByte s 7, inByte s 8,
      inByte s 9, inByte s 10, inByte s 11, inByte s 12, inByte s 13, inByte s 14, inByte s 15] =
      encodeHeader cs rs tag crc := h1
  simp only [encodeHeader, bytesLe32, List.cons_append, List.nil_append, List.cons.injEq, and_true] at hb
  obtain ⟨b0, b1, b2, b3, b4, b5, b6, b7, b8, b9, b10, b11, b12, b13, b14, b15⟩ := hb
  have f0 : inLe32 s 0 = cs := by rw [inLe32, b0, b1, b2, b3, le32_bytes]
  have f4 : inLe32 s 4 = rs := by rw [inLe32, b4, b5, b6, b7, le32_bytes]
  have f8 : inLe32 s 8 = tag := by rw [inLe32, b8, b9, b10, b11, le32_bytes]
  have f12 : inLe32 s 12 = crc := by rw [inLe32, b12, b13, b14, b15, le32_bytes]
  have fl : payloadLenOf s = payload.length := by
    unfold payloadLenOf compSizeOf; rw [f0, hl]; omega
  exact ⟨hl, f0, f4, f8, f12, fl, by unfold payloadOf; rw [fl]; exact h2⟩

/-- R166, compressed mode: a state whose `IN` is the container gives the input back. -/
theorem decompress_packed (P : Params) {s s' : State} (hmax : s.inLen.toNat ≤ maxIn)
    (h : inBytes s' = packed P s tagLzfu (encoded P s).payload) :
    (decompress P s').status = ⟨.done, none, true, false⟩ ∧ outBytes (decompress P s') = inBytes s ∧
      (decompress P s').win = (Window.init P).appendAll (inBytes s) := by
  obtain ⟨-, -, -, -, -, hbound⟩ := encoded_loop P s
  have hcs : (BitVec.ofNat 32 ((encoded P s).payload.length + 12)).toNat = (encoded P s).payload.length + 12 := by
    rw [BitVec.toNat_ofNat]; apply Nat.mod_eq_of_lt; simp only [maxIn] at hmax; omega
  obtain ⟨hl, f0, f4, f8, f12, fl, fp⟩ := container_fields h hcs.symm
  have hc : compSizeOf s' = (encoded P s).payload.length + 12 := by unfold compSizeOf; rw [f0, hcs]
  rw [decompress_lzfu (by omega) (by omega) f8 (by rw [fp, f12]), fl]
  obtain ⟨c, rest, hpay, hlow, hdec⟩ := encodeLoop_decodes s.inLen.toNat (openEncoder P (startCommand s))
    (openEncoder_inv P (startCommand s)) (by show s.inLen.toNat ≤ 0 + s.inLen.toNat; omega)
  change (encoded P s).payload = c :: rest at hpay
  have hr : Reads (openStream P (ready s')) (c :: rest) := by
    have hp := ready_pend (s := s') (by omega)
    refine ⟨by show 16 ≤ (ready s').dec.pend.toNat; omega, ?_⟩
    show Memory.readBytes s'.input 16 ((ready s').dec.pend.toNat - 16) = _
    rw [hp, Nat.add_sub_cancel_left, ← hpay, ← fp]; rfl
  obtain ⟨q1, q2⟩ := pass_ctl rfl hr
  rw [runStream, q1, hpay, List.length_cons]
  obtain ⟨r1, r2, r3⟩ := hdec (ctl c (openStream P (ready s'))) (rest.length + 1) rfl rfl rfl q2 (by omega)
  have hshort : decide (s'.inLen.toNat - 16 < compSizeOf s' - 12) = false := by
    rw [hl, hc]; simp
  refine ⟨?_, ?_, ?_⟩
  · simp only [finish]
    rw [r1]
    show (⟨.done, none, true, decide (s'.inLen.toNat - 16 < compSizeOf s' - 12)⟩ : Status) = _
    rw [hshort]
  · exact r2
  · exact r3

/-- R166, stored mode. -/
theorem decompress_packed_stored (P : Params) {s s' : State} (hmax : s.inLen.toNat ≤ maxIn)
    (h : inBytes s' = packed P s tagMela (inBytes s)) :
    (decompress P s').status = ⟨.done, none, false, false⟩ ∧ outBytes (decompress P s') = inBytes s := by
  have hlen : (inBytes s).length = s.inLen.toNat := by simp [inBytes]
  have hcs : (BitVec.ofNat 32 ((inBytes s).length + 12)).toNat = (inBytes s).length + 12 := by
    rw [BitVec.toNat_ofNat]; apply Nat.mod_eq_of_lt; simp only [maxIn] at hmax; omega
  obtain ⟨hl, f0, f4, f8, f12, fl, fp⟩ := container_fields h hcs.symm
  have hc : compSizeOf s' = (inBytes s).length + 12 := by unfold compSizeOf; rw [f0, hcs]
  have h16 : 16 ≤ s'.inLen.toNat := by omega
  rw [decompress_mela h16 (by omega) f8, f4]
  have hshort : decide (s'.inLen.toNat - 16 < compSizeOf s' - 12) = false := by
    rw [hl, hc]; simp
  constructor
  · rw [hdrMela_eq, ready_plen h16, fl, hlen]
    show (⟨.done, none, false, decide (s'.inLen.toNat - 16 < compSizeOf s' - 12) ||
      decide (s.inLen.toNat < s.inLen.toNat)⟩ : Status) = _
    rw [hshort]; simp
  · have : outBytes (finish (hdrMela s.inLen (ready s'))) =
        outBytes (ready s') ++ (payloadBytes (ready s')).take s.inLen.toNat := by
      apply outBytes_of <;> rw [hdrMela_eq] <;> rfl
    rw [this, ready_payload h16, fp, ← hlen, List.take_length]; rfl

/-! ### What the compressor reads -/

theorem scan_congr {inp inp' : Nat → Byte} {w0 cap : Nat} (h : ∀ k < cap, inp' k = inp k) (n : Nat) (sc : Scan)
    (hm : sc.m ≤ sc.l) : scan inp' w0 cap n sc = scan inp w0 cap n sc := by
  induction n generalizing sc with
  | zero => rfl
  | succ n ih =>
    rw [scan, scan]
    split_ifs with hc
    · have e : scanStep inp' sc = scanStep inp sc := by unfold scanStep; rw [h sc.m (by omega)]
      rw [e]
      apply ih
      unfold scanStep
      split_ifs
      · exact le_rfl
      · simp only; omega
      · exact Nat.zero_le _
    · rfl

/-- The same compression seen from two states: the input, the window and the group under construction. -/
structure SameEncoder (s s' : State) : Prop where
  len : s'.inLen = s.inLen
  bytes : ∀ i < s.inLen.toNat, inByte s' i = inByte s i
  win : s'.win = s.win
  cur : s'.enc.cur = s.enc.cur
  ectrl : s'.enc.ectrl = s.enc.ectrl
  ebit : s'.enc.ebit = s.enc.ebit
  tokbuf : s'.enc.tokbuf = s.enc.tokbuf
  payload : s'.enc.payload = s.enc.payload

theorem SameEncoder.search {s s' : State} (h : SameEncoder s s') : searchResult s' = searchResult s := by
  unfold searchResult matchCap
  rw [h.win, h.cur, h.len]
  apply scan_congr _ _ _ le_rfl
  intro k hk
  unfold matchInput
  rw [h.cur]
  apply h.bytes
  omega

theorem SameEncoder.token {s s' : State} (h : SameEncoder s s') (hc : s.enc.cur.toNat < s.inLen.toNat) :
    SameEncoder (encodeToken s) (encodeToken s') := by
  have hs := h.search
  have hl : (doMatch s').enc.l = (doMatch s).enc.l := by simp only [doMatch, hs]
  have hm : (doMatch s').enc.moff = (doMatch s).enc.moff := by simp only [doMatch, hs]
  have hw : (doMatch s').win = (doMatch s).win := by simp only [doMatch_win, hs]
  have h1 : SameEncoder (doMatch s) (doMatch s') :=
    ⟨h.len, h.bytes, hw, h.cur, h.ectrl, h.ebit, h.tokbuf, h.payload⟩
  have hflush : ∀ u u', SameEncoder u u' →
      SameEncoder (if u.enc.ebit = 8 then flush u else u) (if u'.enc.ebit = 8 then flush u' else u') := by
    intro u u' hu
    rw [hu.ebit]
    split_ifs
    · refine ⟨hu.len, hu.bytes, hu.win, hu.cur, rfl, rfl, rfl, ?_⟩
      simp only [flush_enc, hu.payload, hu.ectrl, hu.tokbuf]
    · exact hu
  unfold encodeToken
  apply hflush
  rw [hl]
  split_ifs with h2
  · refine ⟨h1.len, h1.bytes, hw, ?_, ?_, ?_, ?_, h1.payload⟩
    · simp only [emitRef, pushReference, pushToken, hl]; rw [h1.cur]
    · simp only [emitRef, pushReference, pushToken, h1.ectrl, h1.ebit]
    · simp only [emitRef, pushReference, pushToken, h1.ebit]
    · simp only [emitRef, pushReference, pushToken, hl, hm, h1.tokbuf]
  · have hb : inByte (doMatch s') (doMatch s').enc.cur.toNat = inByte (doMatch s) (doMatch s).enc.cur.toNat := by
      rw [h1.cur]; exact h.bytes _ hc
    unfold emitLit
    simp only [hl, hb]
    split_ifs
    · refine ⟨h1.len, h1.bytes, ?_, ?_, ?_, ?_, ?_, h1.payload⟩
      · show (doMatch s').win.append _ = (doMatch s).win.append _; rw [hw]
      · show (doMatch s').enc.cur + 1 = (doMatch s).enc.cur + 1; rw [h1.cur]
      · exact h1.ectrl
      · show (doMatch s').enc.ebit + 1 = (doMatch s).enc.ebit + 1; rw [h1.ebit]
      · show (doMatch s').enc.tokbuf ++ _ = (doMatch s).enc.tokbuf ++ _; rw [h1.tokbuf]
    · refine ⟨h1.len, h1.bytes, hw, ?_, h1.ectrl, ?_, ?_, h1.payload⟩
      · show (doMatch s').enc.cur + 1 = (doMatch s).enc.cur + 1; rw [h1.cur]
      · show (doMatch s').enc.ebit + 1 = (doMatch s).enc.ebit + 1; rw [h1.ebit]
      · show (doMatch s').enc.tokbuf ++ _ = (doMatch s).enc.tokbuf ++ _; rw [h1.tokbuf]

theorem SameEncoder.loop {s s' : State} (n : Nat) (h : SameEncoder s s') :
    (encodeLoop n s').enc.payload = (encodeLoop n s).enc.payload := by
  have stop : ∀ s s', SameEncoder s s' → (flush (emitEnd s')).enc.payload = (flush (emitEnd s)).enc.payload := by
    intro s s' h
    simp only [flush_enc, emitEnd_enc, pushToken, h.payload, h.ectrl, h.ebit, h.tokbuf, h.win]
  induction n generalizing s s' with
  | zero => exact stop s s' h
  | succ n ih =>
    rw [encodeLoop, encodeLoop, h.len, h.cur]
    split_ifs with hc
    · exact stop s s' h
    · exact ih (h.token (by omega))

/-- The payload of compressed mode is a function of the input (R252). -/
theorem encoded_congr (P : Params) {s s' : State} (h : SameInput s s') :
    (encoded P s').payload = (encoded P s).payload := by
  unfold encoded
  rw [h.1]
  exact SameEncoder.loop _ ⟨h.1, h.2, rfl, rfl, rfl, rfl, rfl, rfl⟩

theorem inBytes_congr {s s' : State} (h : SameInput s s') : inBytes s' = inBytes s := by
  unfold inBytes
  rw [h.1]
  exact Memory.readBytes_congr fun i hi => by rw [Nat.zero_add]; exact h.2 i hi

theorem compress_congr (P : Params) {s s' : State} (hm : s.inLen.toNat ≤ maxIn) (h : SameInput s s') :
    SameResult (compress P s) (compress P s') := by
  have hm' : s'.inLen.toNat ≤ maxIn := by rw [h.1]; exact hm
  refine ⟨?_, ?_, ?_, fun _ => ?_⟩
  · rw [compress_eq P hm', compress_eq P hm]
  · rw [outBytes_compress P hm', outBytes_compress P hm, encoded_congr P h, packed, packed, h.1]
  · rw [compress_eq P hm', compress_eq P hm]
  · rw [compress_eq P hm', compress_eq P hm]
    simp only [packedHdr, encoded_congr P h, h.1]

theorem compressStored_congr (P : Params) {s s' : State} (hm : s.inLen.toNat ≤ maxIn) (h : SameInput s s') :
    SameResult (compressStored P s) (compressStored P s') := by
  have hm' : s'.inLen.toNat ≤ maxIn := by rw [h.1]; exact hm
  refine ⟨?_, ?_, ?_, fun _ => ?_⟩
  · rw [compressStored_eq P hm', compressStored_eq P hm]
  · rw [outBytes_compressStored P hm', outBytes_compressStored P hm, inBytes_congr h, packed, packed, h.1]
  · rw [compressStored_eq P hm', compressStored_eq P hm]
  · rw [compressStored_eq P hm', compressStored_eq P hm]
    simp only [packedHdr, inBytes_congr h, h.1]

end Sys2Proof.Machine
end

