-- ==== Sys2Proof/Laws/Host.lean ====
section
/-!
SUPPORT. The host's moves, and how a command begins and ends for the host.
-/

namespace Sys2Proof.Machine

/-! ### Between commands and during one -/

theorem hostTurn_iff {s : State} : hostTurn s = true ↔ s.activity = .idle ∧ s.status.state ≠ .busy := by
  simp [hostTurn]

@[simp] theorem hostMove_turn {r : Host.Outcome State Fault Refusal} {s : State} (h : hostTurn s = true) :
    hostMove r s = r := if_pos h

@[simp] theorem hostMove_running {r : Host.Outcome State Fault Refusal} {s : State} (h : hostTurn s = false) :
    hostMove r s = .refused .hostDuringCommand := if_neg (by simp [h])

@[simp] theorem hostRead_running {α : Type} {p : Bool} {v : α} {s : State} (h : hostTurn s = false) :
    hostRead p v s = .error .hostDuringCommand := if_pos h

theorem hostRead_none {α : Type} {p : Bool} {v : α} {s : State} (h : hostTurn s = true)
    (hn : s.status.state = .idle ∨ p = false) : hostRead p v s = .error .readUndefined := by
  rw [hostRead, if_neg (by simp [h]), if_pos hn]

theorem hostRead_ok {α : Type} {v : α} {s : State} (h : hostTurn s = true) (hs : s.status.state ≠ .idle) :
    hostRead true v s = .ok v := by
  rw [hostRead, if_neg (by simp [h]), if_neg (by simp [hs])]

/-! ### A command's first line, and its end -/

@[simp] theorem placeCommand_status (v : Byte) (s : State) : (placeCommand v s).status = ⟨.busy, none, false, false⟩ := rfl
@[simp] theorem placeCommand_cmd (v : Byte) (s : State) : (placeCommand v s).cmd = v := rfl
@[simp] theorem placeCommand_inLen (v : Byte) (s : State) : (placeCommand v s).inLen = s.inLen := rfl
@[simp] theorem placeCommand_input (v : Byte) (s : State) : (placeCommand v s).input = s.input := rfl
@[simp] theorem placeCommand_outLen (v : Byte) (s : State) : (placeCommand v s).outLen = 0 := rfl
@[simp] theorem placeCommand_output (v : Byte) (s : State) : (placeCommand v s).output = s.output := rfl
@[simp] theorem placeCommand_win (v : Byte) (s : State) : (placeCommand v s).win = s.win := rfl
@[simp] theorem placeCommand_dec (v : Byte) (s : State) : (placeCommand v s).dec = s.dec := rfl
@[simp] theorem placeCommand_enc (v : Byte) (s : State) : (placeCommand v s).enc = s.enc := rfl
@[simp] theorem placeCommand_activity (v : Byte) (s : State) : (placeCommand v s).activity = .command := rfl

/-- A command begins with its first line (R38), so that it does not matter whether the host's write has done it already. -/
theorem exec_of_startCommand {i : Instr} {s s' : State} (hi : slotOf i = some .command)
    (h : startCommand s' = startCommand s) : exec i s' = exec i s := by
  have hl : s'.inLen = s.inLen := by simpa using congrArg State.inLen h
  cases i <;> simp only [slotOf, Option.some.injEq, reduceCtorEq] at hi <;>
    simp only [exec, execDecompress, execCompress, execCompressS, decompress, compress, compressStored, h, hl]

/-- Each of the three commands ends the engine's turn, `DONE` or `ERROR`; the header registers then describe a container, but for a
`DECOMPRESS` of fewer than 16 bytes (U6). -/
theorem command_ends {i : Instr} {s t : State} (hi : slotOf i = some .command) (ht : exec i s = .next t) :
    t.activity = .idle ∧ (t.status.state = .done ∨ t.status.state = .error) ∧
    (t.hdrDefined = false ↔ (∃ c, i = .decompress c) ∧ s.inLen.toNat < 16) := by
  rcases i with _ | _ | _ | _ | _ | _ | c | _ | _ | _ | _ | _ | _ | _ | _ | _ | _ | _ | _ | _ | _ | _ <;>
    simp only [slotOf, Option.some.injEq, reduceCtorEq] at hi
  · obtain rfl : decompress Config.params s = t := by simpa [exec, execDecompress] using ht
    have hd : ∃ c', Instr.decompress c = .decompress c' := ⟨c, rfl⟩
    simp only [hd, true_and]
    rcases decompress_cases Config.params s with ⟨k, h⟩ | ⟨k, -, -, h⟩ | ⟨k, -, -, h⟩ | ⟨k, -, -, h⟩ | ⟨k, -, -, -, h⟩ |
      ⟨k, -, -, -, h⟩
    · rw [h]; exact ⟨rfl, .inr rfl, by simp [k]⟩
    · rw [h]; exact ⟨rfl, .inr rfl, by simp [loaded, k]⟩
    · rw [h]; exact ⟨rfl, .inr rfl, by simp [loaded, k]⟩
    · rw [h, hdrMela_eq]; exact ⟨rfl, .inl rfl, by simp [ready, k]⟩
    · rw [h]; exact ⟨rfl, .inr rfl, by simp [ready, k]⟩
    · obtain ⟨p, d, e, h1, -⟩ := openStream_effect Config.params (payloadLenOf s + 1) (ready s)
        (by rw [ready_pend k]; omega)
      rw [h, h1]; exact ⟨rfl, .inl rfl, by simp [ready, k]⟩
  · simp only [exec, execCompress] at ht
    split_ifs at ht with hm
    obtain rfl : compress Config.params s = t := by simpa using ht
    rw [compress_eq _ hm]; exact ⟨rfl, .inl rfl, by simp⟩
  · simp only [exec, execCompressS] at ht
    split_ifs at ht with hm
    obtain rfl : compressStored Config.params s = t := by simpa using ht
    rw [compressStored_eq _ hm]; exact ⟨rfl, .inl rfl, by simp⟩

end Sys2Proof.Machine
end

