-- ==== Sys2Proof/Laws/Invariant.lean ====
section
/-!
SUPPORT. The ends of a command and the state invariant of Safety.lean.
-/

namespace Sys2Proof.Machine

theorem init_good (P : Params) (p : List Byte) : ((Window.init P).appendAll p).Good := Window.good_appendAll (Window.good_init P) p

theorem err_none {s : State} (h : State.Inv s) (hb : s.status.state = .busy) : s.status.err = none := by
  by_contra hne
  have := h.errIffError.1 hne
  rw [hb] at this; exact absurd this (by decide)

/-- Raising an error in a state whose command has produced nothing keeps the invariant. -/
theorem inv_raise {s u : State} (h : State.Inv s) (e : Exc) (hcmd : u.cmd = s.cmd)
    (h1 : u.input = s.input) (h2 : u.output = s.output) (h3 : u.win = s.win) (h4 : u.outLen = 0)
    (h5 : u.status.endSeen = false)
    (h6 : u.dec.bitc = s.dec.bitc) (h7 : u.enc = s.enc) : State.Inv (raise e u) := by
  refine ⟨?_, ?_, ?_, ?_, ?_, ?_, ?_, ?_, ?_, ?_, ?_, ?_, ?_, ?_⟩
  · rw [raise_input, h1]; exact h.inputWf
  · rw [raise_output, h2]; exact h.outputWf
  · rw [raise_win, h3]; exact h.dictWf
  · rw [raise_win, h3]; exact h.dictBounded
  · simp [raise]
  · intro _; exact ⟨h4, h5⟩
  · simp [raise]
  · simp [raise]
  · simp [raise]
  · rw [raise_cmd, hcmd]; exact h.cmdReserved
  · rw [raise_dec, h6]; exact h.bitcRange
  · rw [raise_enc, h7]; exact h.ebitRange
  · rw [raise_enc, h7]; exact h.toklenIsLength
  · rw [raise_enc, h7]; exact h.tokbufFits

/-- Ending a command successfully keeps the invariant. -/
theorem inv_finish {s u : State} (h : State.Inv s) (hcmd : u.cmd = s.cmd)
    (h1 : u.input = s.input) (h2 : Memory.wf u.output = true) (h3 : u.win.Good) (h4 : u.status.err = none)
    (h6 : u.dec.bitc.toNat ≤ 8) (h7 : u.enc = s.enc) : State.Inv (finish u) := by
  refine ⟨?_, h2, h3.1, h3.2, ?_, ?_, ?_, ?_, ?_, ?_, h6, ?_, ?_, ?_⟩
  · rw [finish_input, h1]; exact h.inputWf
  · simp [finish, h4]
  · simp [finish]
  · simp [finish]
  · simp [finish]
  · simp [finish]
  · rw [finish_cmd, hcmd]; exact h.cmdReserved
  · rw [finish_enc, h7]; exact h.ebitRange
  · rw [finish_enc, h7]; exact h.toklenIsLength
  · rw [finish_enc, h7]; exact h.tokbufFits

/-- `DECOMPRESS` after its first line keeps the invariant. -/
theorem inv_runHeader {s : State} (P : Params) (h : State.Inv s) (hb : s.status.state = .busy) (he : s.status.err = none) (h0 : s.outLen = 0)
    (h1 : s.status.endSeen = false) :
    State.Inv (runHeader P s) := by
  rcases runHeader_cases P s with ⟨k1, k2⟩ | ⟨k1, k2, k3, k4⟩ | ⟨k1, k2, k3, k4⟩ | ⟨k1, k2, k3, k4⟩ | ⟨k1, k2, k3, k4⟩
  · rw [k2]; exact inv_raise h _ rfl rfl rfl rfl h0 h1 rfl rfl
  · rw [k4, hparse_ok k1]; exact inv_raise h _ rfl rfl rfl rfl h0 h1 rfl rfl
  · rw [k4, hparse_ok k1]; exact inv_raise h _ rfl rfl rfl rfl h0 h1 rfl rfl
  · rw [k4, settle_busy (by rw [hdrMela_eq, parsed_eq k1]; exact hb), hdrMela_eq, parsed_eq k1]
    exact inv_finish h rfl rfl (Memory.wf_writeBytes _ _ _ h.outputWf) ⟨h.dictWf, h.dictBounded⟩ he h.bitcRange rfl
  · by_cases hk : P.cksum (payloadBytes (parsed s)) = inLe32 s 12
    · have hp : 16 ≤ (parsed s).dec.pend.toNat := by
        unfold parsed; rw [setExtent_pend (by rw [hparse_ok k1]; exact k1)]; omega
      obtain ⟨p, d, e, q1, q2, q3, q4, q5, q6⟩ := openStream_effect P (plen (parsed s) + 1) (parsed s) hp
      rw [k4, hdrLzfu_ok hk, settle_busy (by rw [q1, parsed_eq k1]; exact hb), q1]
      refine inv_finish h ?_ ?_ ?_ (init_good P p) ?_ q6 ?_
      · rw [parsed_eq k1]
      · rw [parsed_eq k1]
      · rw [parsed_eq k1]; exact Memory.wf_writeBytes _ _ _ h.outputWf
      · rw [parsed_eq k1]; exact he
      · rw [parsed_eq k1]
    · rw [k4, hdrLzfu_bad hk]
      have : settle (raise .corruptData (parsed s)) = raise .corruptData (parsed s) := by unfold settle; rw [if_neg (by simp [raise])]
      rw [this, parsed_eq k1]
      exact inv_raise h _ rfl rfl rfl rfl h0 h1 rfl rfl

/-- One element of the stream that goes on keeps the invariant. -/
theorem inv_more {s t : State} (h : State.Inv s) (ha : s.activity = .stream) (hp : streamPass s = .more t) :
    State.Inv t := by
  have hb : s.status.state = .busy := h.busyIffRunning.2 (by rw [ha]; decide)
  obtain ⟨r1, r2⟩ := h.streamRange ha
  obtain ⟨p, q1, q2, q3, q4, q5, q6, q7⟩ := streamPass_more hp
  have g := Window.good_appendAll (w := s.win) ⟨h.dictWf, h.dictBounded⟩ p
  have b := q7 h.bitcRange
  generalize t.dec = d at *
  subst q1
  refine ⟨h.inputWf, Memory.wf_writeBytes _ _ _ h.outputWf, g.1, g.2, h.errIffError, ?_, h.busyIffRunning, ?_, ?_,
    h.cmdReserved, b, h.ebitRange, h.toklenIsLength, h.tokbufFits⟩
  · intro e
    have e' : s.status.state = .error := e
    rw [hb] at e'; cases e'
  · intro e
    have e' : s.activity = .header := e
    rw [ha] at e'; cases e'
  · intro _
    exact ⟨by show d.ip.toNat ≤ d.pend.toNat; rw [q2]; exact q4, by show d.pend.toNat ≤ _; rw [q2]; exact r2⟩

end Sys2Proof.Machine
end

