-- ==== Sys2Proof/Laws/Reference.lean ====
section
/-!
SUPPORT. The table computation of R123 is eight shifts of the register with the byte added, and is injective in the register.
-/

namespace Sys2Proof.Machine

theorem crcShift_inj : ∀ a b : U32, crcShift a = crcShift b → a = b := by
  intro a b h
  have bit31 : ∀ c : U32, (crcShift c).getLsbD 31 = c.getLsbD 0 := by
    intro c; unfold crcShift
    by_cases h : c.getLsbD 0 = true
    · rw [if_pos h, BitVec.getLsbD_xor, BitVec.getLsbD_ushiftRight, h]
      simp
    · rw [if_neg h, BitVec.getLsbD_ushiftRight]; simp at h; simp [h]
  have h0 : a.getLsbD 0 = b.getLsbD 0 := by rw [← bit31, ← bit31, h]
  have hs : a >>> 1 = b >>> 1 := by
    unfold crcShift at h
    rw [h0] at h
    split_ifs at h
    · have := congrArg (· ^^^ (0xEDB88320 : U32)) h
      simpa [BitVec.xor_assoc] using this
    · exact h
  apply BitVec.eq_of_getLsbD_eq
  intro i hi
  rcases i with _ | i
  · exact h0
  · have := congrArg (fun v : U32 => v.getLsbD i) hs
    simpa [BitVec.getLsbD_ushiftRight, Nat.add_comm] using this

def sh8 (c : U32) : U32 := crcShift (crcShift (crcShift (crcShift (crcShift (crcShift (crcShift (crcShift c)))))))

theorem sh8_inj (a b : U32) (h : sh8 a = sh8 b) : a = b := by
  unfold sh8 at h
  exact crcShift_inj _ _ (crcShift_inj _ _ (crcShift_inj _ _ (crcShift_inj _ _ (crcShift_inj _ _ (crcShift_inj _ _ (crcShift_inj _ _ (crcShift_inj _ _ h)))))))

theorem crcShift_xor (a b : U32) : crcShift (a ^^^ b) = crcShift a ^^^ crcShift b := by
  unfold crcShift
  have e : (a ^^^ b) >>> 1 = (a >>> 1) ^^^ (b >>> 1) := by
    apply BitVec.eq_of_getLsbD_eq; intro i hi; simp [BitVec.getLsbD_ushiftRight]
  rw [BitVec.getLsbD_xor, e]
  generalize a >>> 1 = x
  generalize b >>> 1 = y
  generalize (0xEDB88320 : U32) = z
  have ac : ∀ p q r : U32, p ^^^ q ^^^ r = p ^^^ r ^^^ q := by intro p q r; rw [BitVec.xor_assoc, BitVec.xor_comm q r, ← BitVec.xor_assoc]
  cases a.getLsbD 0 <;> cases b.getLsbD 0 <;> simp
  · rw [BitVec.xor_assoc]
  · rw [ac]
  · rw [BitVec.xor_assoc, BitVec.xor_comm y z, ← BitVec.xor_assoc z z y]; simp

theorem crcShift_even (a : U32) (h : a.getLsbD 0 = false) : crcShift a = a >>> 1 := by
  unfold crcShift; rw [h]; simp

theorem sh8_xor (a b : U32) : sh8 (a ^^^ b) = sh8 a ^^^ sh8 b := by
  unfold sh8; simp only [crcShift_xor]

theorem sh8_high (a : U32) (h : ∀ i < 8, a.getLsbD i = false) : sh8 a = a >>> 8 := by
  have s : ∀ k < 8, crcShift (a >>> k) = a >>> (k+1) := by
    intro k hk
    rw [crcShift_even _ (by rw [BitVec.getLsbD_ushiftRight]; simpa using h k hk), BitVec.shiftRight_add]
  unfold sh8
  have := s 0 (by omega)
  rw [BitVec.ushiftRight_zero] at this
  rw [this, s 1 (by omega), s 2 (by omega), s 3 (by omega), s 4 (by omega), s 5 (by omega), s 6 (by omega), s 7 (by omega)]

theorem crcByte_eq (c : U32) (b : Byte) : crcByte c b = sh8 (c ^^^ b.setWidth 32) := by
  have split : c ^^^ b.setWidth 32 = (c.setWidth 8 ^^^ b).setWidth 32 ^^^ ((c >>> 8) <<< 8) := by
    apply BitVec.eq_of_getLsbD_eq
    intro i hi
    simp only [BitVec.getLsbD_xor, BitVec.getLsbD_setWidth, BitVec.getLsbD_shiftLeft, BitVec.getLsbD_ushiftRight]
    by_cases h8 : i < 8
    · simp [h8, hi]
    · have : b.getLsbD i = false := BitVec.getLsbD_of_ge _ _ (by omega)
      simp [h8, hi, this, show 8 + (i - 8) = i by omega]
  rw [split, sh8_xor, sh8_high ((c >>> 8) <<< 8) (by intro i hi; simp [BitVec.getLsbD_shiftLeft, hi])]
  have : ((c >>> 8) <<< 8) >>> 8 = c >>> 8 := by
    apply BitVec.eq_of_getLsbD_eq
    intro i hi
    simp only [BitVec.getLsbD_shiftLeft, BitVec.getLsbD_ushiftRight]
    by_cases h : 8 + i < 32
    · simp [h]
    · have : c.getLsbD (8 + i) = false := BitVec.getLsbD_of_ge _ _ (by omega)
      simp [this]
  rw [this]; rfl

theorem foldl_inj (bs : List Byte) (a b : U32) (h : bs.foldl crcByte a = bs.foldl crcByte b) : a = b := by
  induction bs generalizing a b with
  | nil => exact h
  | cons x xs ih =>
    have := ih _ _ h
    rw [crcByte_eq, crcByte_eq] at this
    have := sh8_inj _ _ this
    have := congrArg (· ^^^ x.setWidth 32) this
    simpa [BitVec.xor_assoc] using this

end Sys2Proof.Machine
end

