-- ==== Sys2Proof/Tests/Slice0.lean ====
section
/-!
SUPPORT. The model's own tests and the witnesses of the statements' hypotheses. Expected values come from the spec: the words
from spec/30_encoding.md, the runs from the vectors of spec/95_test_vectors.md (named in each docstring) or by hand from the rule.
A run that a vector gives for a seed its bytes do not occur in is made with a seed of `FILL`, which they do not occur in either.
-/

namespace Sys2Proof.Tests

open Sys2Proof Sys2Proof.Machine

/-! ### Small states -/

/-- After power-on, with these bytes in `IN`. -/
def load (bs : List Byte) : State :=
  { State.reset with input := Memory.writeBytes [] 0 bs, inLen := BitVec.ofNat 32 bs.length }

/-- Inside a token stream: `bs` are the payload, `IP` at its first byte. -/
def inStream (bs : List Byte) (ctrl : Byte) (bitc : BitVec 4) (win : Window) : State :=
  { State.reset with
    status := ⟨.busy, none, false, false⟩
    input := Memory.writeBytes [] 16 bs
    inLen := BitVec.ofNat 32 (16 + bs.length)
    win := win
    dec := { State.reset.dec with ctrl := ctrl, bitc := bitc, pend := BitVec.ofNat 32 (16 + bs.length) }
    activity := .stream }

/-- An encoder at its first input byte, with a window of these bytes at positions 0, 1, … -/
def encoder (seed bs : List Byte) : State :=
  { load bs with win := ⟨Memory.writeBytes [] 0 seed, BitVec.ofNat 12 seed.length⟩ }

/-- A seed of `FILL` and the reference checksum. -/
def blankParams : Params := ⟨Vector.replicate 207 fill, cksumRef⟩

/-- The next state an outcome holds, or the state given. -/
def after (o : Host.Outcome State Fault Refusal) (s : State) : State :=
  match o with
  | .next t => t
  | .fault _ => s
  | .refused _ => s

/-- The fault an outcome holds. -/
def faultOf (o : Host.Outcome State Fault Refusal) : Option Fault :=
  match o with
  | .next _ => none
  | .fault r => some r
  | .refused _ => none

/-- The refusal an outcome holds. -/
def refusalOf (o : Host.Outcome State Fault Refusal) : Option Refusal :=
  match o with
  | .next _ => none
  | .fault _ => none
  | .refused r => some r

/-- What a decoder's answer decodes to. -/
def decoded (x : Except Reject (Instr × List Byte)) : Option (Instr × List Byte) := x.toOption

/-! ### Well-formedness -/

theorem test_wf_ref_at_write_offset_refused : (Instr.ref 207 5).wellFormed 207 = false := by decide

theorem test_wf_ref_elsewhere : (Instr.ref 207 5).wellFormed 208 = true := by decide

theorem test_wf_end_off_write_offset_refused : (Instr.endMark 206 0).wellFormed 207 = false := by decide

theorem test_wf_end_at_write_offset : (Instr.endMark 207 0).wellFormed 207 = true := by decide

theorem test_wf_hbuild_unknown_tag_refused : (Instr.hbuild 0x20202020).wellFormed 0 = false := by decide

theorem test_wf_hbuild_known_tags :
    (Instr.hbuild 0x75465A4C).wellFormed 0 = true ∧ (Instr.hbuild 0x414C454D).wellFormed 0 = true := by decide

/-! ### Decoding: words written out from R91 to R97 -/

theorem test_decode_decompress : decoded (decode .command 0 [0b00000000]) = some (.decompress false, []) := by decide

theorem test_decode_decompress_bit1 : decoded (decode .command 0 [0b00000010]) = some (.decompress true, []) := by decide

theorem test_decode_compress : decoded (decode .command 0 [0b00000011]) = some (.compress, []) := by decide

theorem test_decode_compress_s : decoded (decode .command 0 [0b00000001]) = some (.compressS, []) := by decide

theorem test_decode_command_reserved :
    decode .command 0 [0b00000100] = .error .reservedCommandBits ∧
      decode .command 0 [0b10000011] = .error .reservedCommandBits := ⟨rfl, rfl⟩

theorem test_decode_ctl : decoded (decode .control 207 [0x0E, 0x61]) = some (.ctl 0b00001110, [0x61]) := by decide

theorem test_decode_lit : decoded (decode .literal 207 [0x48]) = some (.lit 0x48, []) := by decide

/-- R96, R99: `12 C1` is offset 300, length code 1. -/
theorem test_decode_ref : decoded (decode .reference 207 [0x12, 0xC1]) = some (.ref 300 1, []) := by decide

/-- Vectors D6 and D19: `0C F0` is `END` at write offset 207 and a reference at 209. -/
theorem test_decode_end_depends_on_write_offset :
    decoded (decode .reference 207 [0x0C, 0xF0]) = some (.endMark 207 0, []) ∧
      decoded (decode .reference 209 [0x0C, 0xF0]) = some (.ref 207 0, []) := by decide

theorem test_decode_token_too_short : decode .reference 207 [0x0C] = .error .tooFewBytes := rfl

/-- Vector E2's header. -/
theorem test_decode_header_lzfu :
    decoded (decode .header 0 [0x11, 0, 0, 0, 0x02, 0, 0, 0, 0x4C, 0x5A, 0x46, 0x75, 0x94, 0x48, 0x3F, 0x44, 4]) =
      some (.hdrLzfu 17 2 0x443F4894, [4]) := by decide

/-- Vector T1's header. -/
theorem test_decode_header_mela :
    decoded (decode .header 0 [0x0E, 0, 0, 0, 0x02, 0, 0, 0, 0x4D, 0x45, 0x4C, 0x41, 0xF1, 0x1C, 0xCE, 0x0C]) =
      some (.hdrMela 14 2 0x0CCE1CF1, []) := by decide

theorem test_decode_header_unknown_tag :
    decode .header 0 [0, 0, 0, 0, 0, 0, 0, 0, 0x4C, 0x5A, 0x46, 0x55, 0, 0, 0, 0] = .error .unknownTag := rfl

theorem test_decode_header_too_short :
    decode .header 0 [0, 0, 0, 0, 0, 0, 0, 0, 0x4C, 0x5A, 0x46, 0x75, 0, 0, 0] = .error .tooFewBytes := rfl

/-- R100: offset 207, length code 15 is the word `0C FF`. -/
theorem test_encode_token : encode (.ref 207 15) = [0x0C, 0xFF] := by decide

theorem test_encode_header :
    encode (.hdrMela 14 2 0x0CCE1CF1) =
      [0x0E, 0, 0, 0, 0x02, 0, 0, 0, 0x4D, 0x45, 0x4C, 0x41, 0xF1, 0x1C, 0xCE, 0x0C] := by decide

/-! ### Table words and the fetch -/

theorem test_table_word_commands :
    decodeTableWord 8 0 = some (.decompress false) ∧ decodeTableWord 8 1 = some .compressS ∧
      decodeTableWord 8 3 = some .compress ∧ decodeTableWord 8 4 = none := by decide

theorem test_table_word_tokens :
    decodeTableWord 16 0x12C1 = some (.ref 300 1) ∧ decodeTableWord 16 0x0CF0 = some (.endMark 207 0) := by decide

theorem test_table_word_headers :
    decodeTableWord 128 (0x75465A4C * 2 ^ 64) = some (.hdrLzfu 0 0 0) ∧
      decodeTableWord 128 (0x414C454D * 2 ^ 64) = some (.hdrMela 0 0 0) := by decide

theorem test_fetch_command :
    step (State.reset.withFetchWord 8 1) = exec .compressS { State.reset with cmd := 1 } := rfl

/-- `00 00` copies positions 0 and 1. -/
theorem test_fetch_ref :
    (after (step (State.reset.withFetchWord 16 0)) State.reset).win.wo = 209 ∧
      (after (step (State.reset.withFetchWord 16 0)) State.reset).dec.ip = 18 := by decide

theorem test_fetch_end :
    (after (step (State.reset.withFetchWord 16 0x0CF0)) State.reset).status = ⟨.done, none, true, false⟩ := by decide

/-- R152: a header with `comp_size` 0 raises. -/
theorem test_fetch_header :
    (after (step (State.reset.withFetchWord 128 (0x414C454D * 2 ^ 64))) State.reset).status =
      ⟨.error, some .truncatedInput, false, false⟩ := by decide

/-! ### Elements of the token stream -/

theorem test_ctl_loads : (ctl 0x0E State.reset).dec = { State.reset.dec with ctrl := 0x0E, ip := 17, bitc := 0 } := by
  decide

/-- R156's corner case: at write offset 4095 the append wraps. -/
theorem test_lit_wraps :
    let t := lit 0x48 { State.reset with win := ⟨[], 4095⟩ }
    t.win = ⟨[(4095, 0x48)], 0⟩ ∧ outBytes t = [0x48] := by decide

/-- R157: offset `WO` − 2 repeats the last two bytes (vector D15, moved to position 0). -/
theorem test_ref_self_overlap :
    outBytes (ref 0 3 { State.reset with win := ⟨[(0, 0x61), (1, 0x62)], 2⟩ }) = [0x61, 0x62, 0x61, 0x62, 0x61] := by
  decide

/-- R157: a copy that starts at 4095 goes on at 0 (as vector D5). -/
theorem test_ref_read_wraps :
    outBytes (ref 4095 1 { State.reset with win := ⟨[(0, 0x7B), (1, 0x5C)], 207⟩ }) = [0x20, 0x7B, 0x5C] := by decide

theorem test_end_only_flags : noteEnd State.reset = { State.reset with status := ⟨.idle, none, true, false⟩ } := by decide

/-! ### Commands -/

/-- Vector E2 read back: `LIT`, `LIT`, `END`. -/
theorem test_decompress_hi :
    let t := decompress refParams (load [0x11, 0, 0, 0, 2, 0, 0, 0, 0x4C, 0x5A, 0x46, 0x75, 0x94, 0x48, 0x3F, 0x44,
      0x04, 0x48, 0x69, 0x0D, 0x10])
    outBytes t = [0x48, 0x69] ∧ t.status = ⟨.done, none, true, false⟩ ∧ t.win.wo = 209 ∧ t.dec.ip = 21 := by
  decide +kernel

/-- The same container with one payload bit flipped. -/
theorem test_decompress_corrupt :
    (decompress refParams (load [0x11, 0, 0, 0, 2, 0, 0, 0, 0x4C, 0x5A, 0x46, 0x75, 0x94, 0x48, 0x3F, 0x44,
      0x04, 0x48, 0x69, 0x0D, 0x11])).status = ⟨.error, some .corruptData, false, false⟩ := by
  decide +kernel

/-- Vector D10: a control byte alone ends by exhaustion (c). -/
theorem test_hdr_lzfu_exhaustion :
    let s := load [0x0D, 0, 0, 0, 0, 0, 0, 0, 0x4C, 0x5A, 0x46, 0x75, 0x8D, 0xEF, 0x02, 0x2D, 0xFF]
    let t := decompress blankParams s
    t.status = ⟨.done, none, false, false⟩ ∧ t.outLen = 0 ∧ t.win.wo = 207 ∧ t.dec.ip = 17 := by decide +kernel

/-- R153: `raw_size` beyond the payload returns all of it and says `SHORT`. -/
theorem test_hdr_mela_short :
    let s := load [0x0E, 0, 0, 0, 3, 0, 0, 0, 0x4D, 0x45, 0x4C, 0x41, 0, 0, 0, 0, 0x48, 0x69]
    let t := decompress blankParams s
    outBytes t = [0x48, 0x69] ∧ t.status = ⟨.done, none, false, true⟩ := by decide

/-- Vector E7. -/
theorem test_compress_ties :
    (compress blankParams (load [0x51, 0x5A, 0x57, 0x51, 0x5A, 0x56, 0x51, 0x5A])).enc.payload =
      [0x68, 0x51, 0x5A, 0x57, 0x0C, 0xF0, 0x56, 0x0C, 0xF0, 0x0D, 0x70] := by decide +kernel

/-- Vector E1. -/
theorem test_compress_empty :
    outBytes (compress blankParams (load [])) =
      [0x0F, 0, 0, 0, 0, 0, 0, 0, 0x4C, 0x5A, 0x46, 0x75, 0x27, 0xD7, 0xCA, 0x10, 0x01, 0x0C, 0xF0] := by decide +kernel

/-- Vector T1. -/
theorem test_compress_s_hi :
    outBytes (compressStored refParams (load [0x48, 0x69])) =
      [0x0E, 0, 0, 0, 0x02, 0, 0, 0, 0x4D, 0x45, 0x4C, 0x41, 0xF1, 0x1C, 0xCE, 0x0C, 0x48, 0x69] := by decide +kernel

theorem test_compress_too_long :
    refusalOf (exec .compress { State.reset with inLen := 0x80000000 }) = some .inputTooLong := by decide

theorem test_compress_s_too_long :
    refusalOf (exec .compressS { State.reset with inLen := 0x80000000 }) = some .inputTooLong := by decide

/-! ### Internal operations -/

/-- R123's check value. -/
theorem test_cksum_check : cksumRef [0x31, 0x32, 0x33, 0x34, 0x35, 0x36, 0x37, 0x38, 0x39] = 0x2DFD2D88 := by
  decide +kernel

theorem test_ckchk_out_of_range :
    faultOf (exec .ckchk { State.reset with dec := { State.reset.dec with pend := 17 }, inLen := 16 }) =
      some .inputOutOfRange := by decide

/-- Vector T1's `crc`. -/
theorem test_ckgen_hi :
    (ckgen refParams { State.reset with enc := { State.reset.enc with payload := [0x48, 0x69] } }).hdr.crc =
      0x0CCE1CF1 := by decide +kernel

/-- R133's example, R132's spot values at 0 and 206. -/
theorem test_dinit_reference :
    let w := (dictInit refParams State.reset).win
    w.read 0 = 0x7B ∧ w.read 206 = 0x78 ∧ w.read 207 = 0x20 ∧ w.wo = 207 := by decide +kernel

/-- R134's example, offset 4097 is position 1. -/
theorem test_dread_reduces :
    (after (exec (.dread 4097) { State.reset with win := ⟨[(1, 0x5C)], 207⟩ }) State.reset).byteOut = 0x5C := by decide

theorem test_dappend_wraps :
    (after (exec (.dappend 0x48) { State.reset with win := ⟨[(0, 0x7B)], 4095⟩ }) State.reset).win =
      ⟨[(0, 0x7B), (4095, 0x48)], 0⟩ := by decide

theorem test_dappend_fill_is_unlisted :
    (after (exec (.dappend 0x20) { State.reset with win := ⟨[(0, 0x7B)], 0⟩ }) State.reset).win = ⟨[], 1⟩ := by decide

theorem test_hparse_short :
    (after (exec .hparse (load [1, 2, 3])) State.reset).status = ⟨.error, some .truncatedInput, false, false⟩ := by decide

theorem test_hparse_fields :
    (after (exec .hparse (load [0x0E, 0, 0, 0, 2, 1, 0, 0, 0x4D, 0x45, 0x4C, 0x41, 0xF1, 0x1C, 0xCE, 0x0C]))
      State.reset).hdr = ⟨14, 258, 0x414C454D, 0x0CCE1CF1⟩ := by decide

/-- R142's example. -/
theorem test_hbuild_example :
    outBytes (after (exec (.hbuild tagMela) { State.reset with
      inLen := 2
      hdr := { State.reset.hdr with crc := 0x0CCE1CF1 }
      enc := { State.reset.enc with payload := [0x48, 0x69] } }) State.reset) =
      [0x0E, 0, 0, 0, 2, 0, 0, 0, 0x4D, 0x45, 0x4C, 0x41, 0xF1, 0x1C, 0xCE, 0x0C, 0x48, 0x69] := by decide

/-- Vector E6's fourth search, moved to position 0: "QZ" in the window "QQZ" is missed, because the scan does not go back. -/
theorem test_match_does_not_backtrack :
    let t := doMatch (encoder [0x51, 0x51, 0x5A] [0x51, 0x5A])
    t.enc.l = 1 ∧ t.enc.moff = 0 ∧ t.win.wo = 4 := by decide

/-- Vector E3's second search, moved to position 0: a match that runs into the bytes it appends, up to 17. -/
theorem test_match_runs_into_itself :
    let t := doMatch (encoder [0x61] (List.replicate 19 0x61))
    t.enc.l = 17 ∧ t.enc.moff = 0 ∧ t.win.wo = 18 := by decide

/-- R188's example: offset 207, length 17 is `0C FF`. -/
theorem test_emitref_example :
    (after (exec .emitref { State.reset with enc := { State.reset.enc with moff := 207, l := 17, ebit := 1 } })
      State.reset).enc = { State.reset.enc with
        moff := 207, l := 17, ebit := 2, ectrl := 2, tokbuf := [0x0C, 0xFF], toklen := 2, cur := 17 } := by decide

/-- An `L` outside R188's operands, 0 at reset: only `L − 2` is unstated, every other effect of the rule happens. -/
theorem test_emitref_length_free :
    let t := after (exec .emitref State.reset) { State.reset with activity := .stream }
    t.activity = .idle ∧ t.enc.tokbuf.length = 2 ∧ t.enc.toklen = 2 ∧ t.enc.ectrl = 1 ∧ t.enc.ebit = 1 ∧ t.enc.cur = 0 ∧
      t.win.wo = 207 ∧ t.freeIndex = 1 := by decide

/-- R189: with `L` = 1 the byte is not appended again. -/
theorem test_emitlit_appends_once :
    (emitLit { load [0x69] with enc := { State.reset.enc with l := 1 } }).win.wo = 207 ∧
      (emitLit (load [0x69])).win.wo = 208 := by decide

theorem test_emitlit_group_full :
    faultOf (exec .emitlit { load [0x69] with enc := { State.reset.enc with ebit := 8 } }) = some .groupFull := by decide

/-- R190's example. -/
theorem test_flush_example :
    (flush { State.reset with enc := { State.reset.enc with
      ectrl := 0b00001110, ebit := 4, toklen := 7, tokbuf := [0x61, 0x0C, 0xFF, 0x0C, 0xF0, 0x0E, 0x30] } }).enc =
      { State.reset.enc with payload := [0x0E, 0x61, 0x0C, 0xFF, 0x0C, 0xF0, 0x0E, 0x30] } := by decide

/-- R192's example: write offset 227 gives `0E 30`. -/
theorem test_emitend_example :
    (emitEnd { State.reset with win := ⟨[], 227⟩ }).enc.tokbuf = [0x0E, 0x30] := by decide

/-! ### STATUS and the host -/

/-- R34: `DONE` with `END_SEEN` and `SHORT` is 0x32; `ERROR` with `CorruptDataError` is 0x0F. -/
theorem test_status_word :
    (Status.mk .done none true true).word = 0x32 ∧ (Status.mk .error (some .corruptData) false false).word = 0x0F := by
  decide

/-- R256: from the write of `CMD` on `STATUS` reads `BUSY`, also after a command that ended in an error. -/
theorem test_status_busy_from_the_write :
    let s := { State.reset with status := ⟨.error, some .corruptData, false, true⟩ }
    hostReadStatus (after (hostWriteCmd 3 s) s) = 0x01 := by decide

theorem test_host_command_while_busy :
    refusalOf (hostWriteCmd 0 { State.reset with activity := .stream, status := ⟨.busy, none, false, false⟩ }) =
      some .hostDuringCommand := by decide

/-! ### Witnesses: a concrete state and operands that meet the hypotheses of each statement that has any -/

theorem witness_DecodeOfEncodeIsIdentity :
    slotOf (.ref 0 15) = some .reference ∧ (Instr.ref 0 15).wellFormed 4095 = true ∧
      slotOf (.endMark 4095 0) = some .reference ∧ (Instr.endMark 4095 0).wellFormed 4095 = true := by decide

theorem witness_EncodeOfDecodeIsIdentity : decode .control 0 [0xFF, 0x61] = .ok (.ctl 0xFF, [0x61]) := rfl

theorem witness_CommandByteFields :
    ((0x04 : Byte) &&& 0xFC ≠ 0) ∧
    ((0x02 : Byte) &&& 0xFC = 0 ∧ (0x02 : Byte).getLsbD 0 = false) ∧
    ((0x03 : Byte) &&& 0xFC = 0 ∧ (0x03 : Byte).getLsbD 0 = true ∧ (0x03 : Byte).getLsbD 1 = true) ∧
    ((0x01 : Byte) &&& 0xFC = 0 ∧ (0x01 : Byte).getLsbD 0 = true ∧ (0x01 : Byte).getLsbD 1 = false) := by decide

theorem witness_StepRunsTheCommand :
    (placeCommand 3 State.reset).activity = .command ∧ decodeCmd (placeCommand 3 State.reset).cmd = .ok .compress ∧
      (placeCommand 4 State.reset).activity = .command ∧ (placeCommand 4 State.reset).cmd &&& 0xFC ≠ 0 :=
  ⟨rfl, rfl, rfl, by decide⟩

theorem witness_StepRunsTheStreamElement_ctl :
    let s := inStream [0xFF] 0 8 ⟨[], 207⟩
    s.activity = .stream ∧ s.dec.pend.toNat ≤ s.inLen.toNat ∧
      decode (streamSlot s) s.win.wo (Memory.readBytes s.input s.dec.ip.toNat (s.dec.pend.toNat - s.dec.ip.toNat)) =
        .ok ((Element.ctl 0xFF).instr, []) ∧
      exec (Element.ctl 0xFF).instr s = .next (ctl 0xFF s) := ⟨rfl, by decide, rfl, rfl⟩

theorem witness_StepRunsTheStreamElement_lit :
    let s := inStream [0x61] 0x80 0 ⟨[], 4095⟩
    s.activity = .stream ∧ s.dec.pend.toNat ≤ s.inLen.toNat ∧
      decode (streamSlot s) s.win.wo (Memory.readBytes s.input s.dec.ip.toNat (s.dec.pend.toNat - s.dec.ip.toNat)) =
        .ok ((Element.lit 0x61).instr, []) ∧
      exec (Element.lit 0x61).instr s = .next (lit 0x61 s) := ⟨rfl, by decide, rfl, rfl⟩

theorem witness_StepRunsTheStreamElement_ref :
    let s := inStream [0x0C, 0xF0] 0x80 7 ⟨[], 209⟩
    s.activity = .stream ∧ s.dec.pend.toNat ≤ s.inLen.toNat ∧
      decode (streamSlot s) s.win.wo (Memory.readBytes s.input s.dec.ip.toNat (s.dec.pend.toNat - s.dec.ip.toNat)) =
        .ok ((Element.ref 207 0).instr, []) ∧
      exec (Element.ref 207 0).instr (latchToken 207 0 s) = .next (ref 207 0 (latchToken 207 0 s)) :=
  ⟨rfl, by decide, rfl, rfl⟩

theorem witness_StepRunsTheStreamElement_end :
    let s := inStream [0x0C, 0xF0, 0x99] 1 0 ⟨[], 207⟩
    s.activity = .stream ∧ s.dec.pend.toNat ≤ s.inLen.toNat ∧
      decode (streamSlot s) s.win.wo (Memory.readBytes s.input s.dec.ip.toNat (s.dec.pend.toNat - s.dec.ip.toNat)) =
        .ok ((Element.endMark 207 0).instr, [0x99]) ∧
      exec (Element.endMark 207 0).instr (latchToken 207 0 s) = .next (noteEnd (latchToken 207 0 s)) :=
  ⟨rfl, by decide, rfl, rfl⟩

/-- The three cases of exhaustion at their boundaries (no byte left, and one byte of two), and a payload past `IN_LEN`. -/
theorem witness_ExhaustionEndsTheStream :
    (let s := inStream [] 0 8 ⟨[], 207⟩
     s.activity = .stream ∧ s.dec.pend.toNat ≤ s.inLen.toNat ∧ s.dec.bitc = 8 ∧ s.dec.pend.toNat ≤ s.dec.ip.toNat) ∧
    (let s := inStream [] 0 7 ⟨[], 207⟩
     s.activity = .stream ∧ s.dec.pend.toNat ≤ s.inLen.toNat ∧ s.dec.bitc ≠ 8 ∧
       s.dec.ctrl.getLsbD s.dec.bitc.toNat = false ∧ s.dec.pend.toNat ≤ s.dec.ip.toNat) ∧
    (let s := inStream [0x0C] 1 0 ⟨[], 207⟩
     s.activity = .stream ∧ s.dec.pend.toNat ≤ s.inLen.toNat ∧ s.dec.bitc ≠ 8 ∧
       s.dec.ctrl.getLsbD s.dec.bitc.toNat = true ∧ s.dec.pend.toNat < s.dec.ip.toNat + 2) ∧
    (let s := { inStream [] 0 8 ⟨[], 207⟩ with inLen := 15 }
     s.activity = .stream ∧ s.inLen.toNat < s.dec.pend.toNat) := by decide

/-- A `DECOMPRESS` at its header, with these bytes as `IN`. -/
def atHeader (bs : List Byte) : State :=
  { load bs with status := ⟨.busy, none, false, false⟩, activity := .header }

theorem witness_StepRunsTheHeader_runs :
    let s := atHeader [12, 0, 0, 0, 0, 0, 0, 0, 0x4D, 0x45, 0x4C, 0x41, 0, 0, 0, 0]
    s.activity = .header ∧ s.status.state = .busy ∧ 16 ≤ s.inLen.toNat ∧
      decode .header s.win.wo (Memory.readBytes s.input 0 16) = .ok (.hdrMela 12 0 0, []) ∧ 12 ≤ compSizeOf s ∧
      exec (.hdrMela 12 0 0) (setExtent (hparse s)) = .next (hdrMela 0 (setExtent (hparse s))) :=
  ⟨rfl, rfl, by decide, rfl, by decide, rfl⟩

theorem witness_StepRunsTheHeader_errors :
    (let s := atHeader [12, 0, 0, 0, 0, 0, 0, 0, 0x4D, 0x45, 0x4C, 0x41, 0, 0, 0]
     s.activity = .header ∧ s.status.state = .busy ∧ s.inLen.toNat < 16) ∧
    (let s := atHeader [0, 0, 0, 0, 0, 0, 0, 0, 0x4C, 0x5A, 0x46, 0x55, 0, 0, 0, 0]
     s.activity = .header ∧ s.status.state = .busy ∧ 16 ≤ s.inLen.toNat ∧
       decode .header s.win.wo (Memory.readBytes s.input 0 16) = .error .unknownTag) ∧
    (let s := atHeader [11, 0, 0, 0, 0, 0, 0, 0, 0x4C, 0x5A, 0x46, 0x75, 0, 0, 0, 0]
     s.activity = .header ∧ s.status.state = .busy ∧ 16 ≤ s.inLen.toNat ∧
       decode .header s.win.wo (Memory.readBytes s.input 0 16) = .ok (.hdrLzfu 11 0 0, []) ∧ compSizeOf s < 12) :=
  ⟨⟨rfl, rfl, by decide⟩, ⟨rfl, rfl, by decide, rfl⟩, ⟨rfl, rfl, by decide, rfl, by decide⟩⟩

theorem witness_IdleEngineChangesNothing : State.reset.activity = .idle := rfl

/-- The last byte of the payload, taken as a control byte. -/
theorem witness_ControlByteLoads :
    let s := inStream [0xFF] 0 8 ⟨[], 207⟩
    s.activity = .stream ∧ s.dec.pend.toNat ≤ s.inLen.toNat ∧ s.dec.ip.toNat < s.dec.pend.toNat ∧ s.dec.bitc = 8 := by
  decide

/-- The last byte of the payload as a literal, at the last control bit. -/
theorem witness_LiteralEmitsAndAppends :
    let s := inStream [0x61] 0x7F 7 ⟨[], 4095⟩
    s.activity = .stream ∧ s.dec.pend.toNat ≤ s.inLen.toNat ∧ s.dec.ip.toNat < s.dec.pend.toNat ∧ s.dec.bitc ≠ 8 ∧
      s.dec.ctrl.getLsbD s.dec.bitc.toNat = false := by decide

/-- The offset next to `WO`, the farthest, and a token at the end of the payload with an offset next to `WO`. -/
theorem witness_ReferenceCopies :
    (206 : Pos) ≠ State.reset.win.wo ∧ (208 : Pos) ≠ State.reset.win.wo ∧
    (let s := inStream [0x0C, 0xFF] 0x80 7 ⟨[], 208⟩
     s.activity = .stream ∧ s.dec.pend.toNat ≤ s.inLen.toNat ∧ s.dec.bitc ≠ 8 ∧
       s.dec.ctrl.getLsbD s.dec.bitc.toNat = true ∧ s.dec.ip.toNat + 2 ≤ s.dec.pend.toNat ∧
       (0x0CFF : Token) = be16 (inByte s s.dec.ip.toNat) (inByte s (s.dec.ip.toNat + 1)) ∧
       tokOff 0x0CFF ≠ s.win.wo) := by decide

theorem witness_EndMarkerEndsTheStream :
    let s := inStream [0x0C, 0xFF] 1 0 ⟨[], 207⟩
    s.activity = .stream ∧ s.dec.pend.toNat ≤ s.inLen.toNat ∧ s.dec.bitc ≠ 8 ∧
      s.dec.ctrl.getLsbD s.dec.bitc.toNat = true ∧ s.dec.ip.toNat + 2 ≤ s.dec.pend.toNat ∧
      (0x0CFF : Token) = be16 (inByte s s.dec.ip.toNat) (inByte s (s.dec.ip.toNat + 1)) ∧
      tokOff 0x0CFF = s.win.wo := by decide

/-- `PEND` = `IN_LEN`, and `PEND` one past it. -/
theorem witness_StoredHeaderCopies :
    (inStream [0x48] 0 8 ⟨[], 0⟩).dec.pend.toNat ≤ (inStream [0x48] 0 8 ⟨[], 0⟩).inLen.toNat ∧
      ({ inStream [0x48] 0 8 ⟨[], 0⟩ with inLen := 16 } : State).inLen.toNat <
        ({ inStream [0x48] 0 8 ⟨[], 0⟩ with inLen := 16 } : State).dec.pend.toNat := by decide

theorem witness_CompressedHeaderGuards :
    let s := inStream [0x48] 0 8 ⟨[], 0⟩
    let crc := ~~~Config.params.cksum (Memory.readBytes s.input 16 (s.dec.pend.toNat - 16))
    s.dec.pend.toNat ≤ s.inLen.toNat ∧
      Config.params.cksum (Memory.readBytes s.input 16 (s.dec.pend.toNat - 16)) ≠ crc ∧
      ({ s with inLen := 16 } : State).inLen.toNat < ({ s with inLen := 16 } : State).dec.pend.toNat := by
  refine ⟨by decide, ?_, by decide⟩
  generalize Config.params.cksum _ = c
  intro h
  have := congrArg (fun v : U32 => v.getLsbD 0) h
  simp at this

theorem witness_CompressedHeaderRuns :
    let s := inStream [0x00, 0x48] 0 8 ⟨[], 0⟩
    s.dec.pend.toNat ≤ s.inLen.toNat ∧ 16 ≤ s.dec.pend.toNat ∧
      Config.params.cksum (Memory.readBytes s.input 16 (s.dec.pend.toNat - 16)) =
        Config.params.cksum [0x00, 0x48] := ⟨by decide, by decide, rfl⟩

theorem witness_TokenStepsReachTheWholeRun :
    let s := inStream [] 0 8 ⟨[], 0⟩
    s.dec.pend.toNat ≤ s.inLen.toNat ∧ 16 ≤ s.dec.pend.toNat ∧
      Config.params.cksum (Memory.readBytes s.input 16 (s.dec.pend.toNat - 16)) = Config.params.cksum [] :=
  ⟨by decide, by decide, rfl⟩

/-- A container header with an unknown tag. -/
def unknownTag : State := load [0, 0, 0, 0, 0, 0, 0, 0, 0x4C, 0x5A, 0x46, 0x55, 0, 0, 0, 0]

theorem witness_ErrorsLeaveNoOutput :
    (exec (.decompress false) State.reset = .next (decompress Config.params State.reset) ∧
      (decompress Config.params State.reset).status.state = .error ∧ State.reset.inLen.toNat < 16) ∧
    (exec (.decompress false) unknownTag = .next (decompress Config.params unknownTag) ∧
      (decompress Config.params unknownTag).status.state = .error ∧ 16 ≤ unknownTag.inLen.toNat) :=
  ⟨⟨rfl, rfl, by decide⟩, ⟨rfl, rfl, by decide⟩⟩

/-- A stored container: `comp_size` 14, `raw_size` 2, no `crc`, payload `48 69`. -/
def stored : List Byte := [14, 0, 0, 0, 2, 0, 0, 0, 0x4D, 0x45, 0x4C, 0x41, 0, 0, 0, 0, 0x48, 0x69]

theorem witness_DecompressStored :
    (16 ≤ (load stored).inLen.toNat ∧ inLe32 (load stored) 8 = tagMela ∧ 12 ≤ compSizeOf (load stored)) ∧
    (let s := load [12, 0, 0, 0, 0, 0, 0, 0, 0x4D, 0x45, 0x4C, 0x41, 0, 0, 0, 0]
     16 ≤ s.inLen.toNat ∧ inLe32 s 8 = tagMela ∧ 12 ≤ compSizeOf s) := by decide

/-- A compressed container with an empty payload and whatever checksum the engine computes for it. -/
def emptyPayload : List Byte := encodeHeader 12 0 tagLzfu (Config.params.cksum [])

theorem inBytes_emptyPayload : inBytes (load emptyPayload) = encodeHeader 12 0 tagLzfu (Config.params.cksum []) ++ [] := by
  rw [List.append_nil]
  exact Memory.readBytes_writeBytes [] 0 emptyPayload

theorem witness_DecompressCompressed :
    16 ≤ (load emptyPayload).inLen.toNat ∧ inLe32 (load emptyPayload) 8 = tagLzfu ∧
      12 ≤ compSizeOf (load emptyPayload) ∧
      Config.params.cksum (payloadOf (load emptyPayload)) = inLe32 (load emptyPayload) 12 := by
  obtain ⟨h1, h2, h3, h4, h5, h6, h7⟩ := container_fields inBytes_emptyPayload rfl
  refine ⟨by rw [h1]; simp, h4, ?_, by rw [h5, h7]⟩
  unfold compSizeOf; rw [h2]; decide

/-- Another byte behind the container. -/
theorem witness_DecompressReadsOnlyTheContainer :
    let s := { load stored with inLen := 19 }
    let s' : State := { s with input := Memory.write s.input 18 0x77 }
    16 ≤ s.inLen.toNat ∧ s'.inLen = s.inLen ∧ (∀ i < 16 + payloadLenOf s, inByte s' i = inByte s i) ∧
      inByte s' 18 ≠ inByte s 18 ∧
      exec (.decompress false) s = .next (decompress Config.params s) ∧
      exec (.decompress false) s' = .next (decompress Config.params s') :=
  ⟨by decide, rfl, by decide, by decide, rfl, rfl⟩

/-- Another `raw_size`. -/
theorem witness_RawSizeUnreadOnCompressedPath :
    let s := load [12, 0, 0, 0, 0, 0, 0, 0, 0x4C, 0x5A, 0x46, 0x75, 0, 0, 0, 0]
    let s' : State := { s with input := Memory.write s.input 4 0xFF }
    s'.inLen = s.inLen ∧ inLe32 s 8 = tagLzfu ∧
      (∀ i < s.inLen.toNat, i < 4 ∨ 8 ≤ i → inByte s' i = inByte s i) ∧ inLe32 s' 4 ≠ inLe32 s 4 ∧
      exec (.decompress false) s = .next (decompress Config.params s) ∧
      exec (.decompress false) s' = .next (decompress Config.params s') :=
  ⟨rfl, by decide, by decide, by decide, rfl, rfl⟩

/-- Another `crc`. -/
theorem witness_StoredPathIgnoresTheChecksum :
    let s := load stored
    let s' : State := { s with input := Memory.write s.input 15 0xFF }
    inLe32 s 8 = tagMela ∧ exec (.decompress false) s = .next (decompress Config.params s) ∧ 16 ≤ s.inLen.toNat ∧
      12 ≤ compSizeOf s ∧ s'.inLen = s.inLen ∧
      (∀ i < s.inLen.toNat, i < 12 ∨ 16 ≤ i → inByte s' i = inByte s i) ∧ inLe32 s' 12 ≠ inLe32 s 12 ∧
      exec (.decompress false) s' = .next (decompress Config.params s') :=
  ⟨by decide, rfl, by decide, by decide, rfl, by decide, by decide, rfl⟩

/-- Two states with the same input and another window, output and header, for each command. -/
theorem witness_NoStateCrossesCommands :
    let s := load [0x61]
    let s' : State := { s with win := ⟨[(0, 1)], 5⟩, outLen := 7, hdr := ⟨1, 2, 3, 4⟩, input := Memory.write s.input 1 9 }
    SameInput s s' ∧
      (slotOf (.decompress true) = some .command ∧
        exec (.decompress true) s = .next (decompress Config.params s) ∧
        exec (.decompress true) s' = .next (decompress Config.params s')) ∧
      (slotOf .compress = some .command ∧ exec .compress s = .next (compress Config.params s) ∧
        exec .compress s' = .next (compress Config.params s')) ∧
      (slotOf .compressS = some .command ∧ exec .compressS s = .next (compressStored Config.params s) ∧
        exec .compressS s' = .next (compressStored Config.params s')) :=
  ⟨⟨rfl, by decide⟩, ⟨rfl, rfl, rfl⟩, ⟨rfl, rfl, rfl⟩, ⟨rfl, rfl, rfl⟩⟩

/-- `IN_LEN` = `MAX_IN`, and one more. -/
theorem witness_CompressBuildsTheContainer :
    ({ State.reset with inLen := 0x7FFFFFFF } : State).inLen.toNat ≤ 2 ^ 31 - 1 ∧
      2 ^ 31 - 1 < ({ State.reset with inLen := 0x80000000 } : State).inLen.toNat := by decide

theorem witness_CompressStoredBuildsTheContainer :
    (load []).inLen.toNat ≤ 2 ^ 31 - 1 ∧
      2 ^ 31 - 1 < ({ State.reset with inLen := 0xFFFFFFFF } : State).inLen.toNat := by decide

theorem witness_CompressRunsItsOperations : (load [0x48, 0x69]).inLen.toNat ≤ 2 ^ 31 - 1 := by decide

theorem witness_HeaderTellsTheLengths :
    exec .compress (load [0x48]) = .next (compress Config.params (load [0x48])) ∧
      exec .compressS (load [0x48]) = .next (compressStored Config.params (load [0x48])) := ⟨rfl, rfl⟩

theorem witness_CompressedSizeIsBounded :
    exec .compress (load []) = .next (compress Config.params (load [])) ∧
      exec .compressS (load []) = .next (compressStored Config.params (load [])) := ⟨rfl, rfl⟩

/-- The engine with a container handed back to it as its input. -/
def handBack (t : State) : State := { t with input := t.output, inLen := BitVec.ofNat 32 t.outLen }

theorem witness_RoundTripCompressed :
    let t := compress Config.params (load [])
    exec .compress (load []) = .next t ∧ (handBack t).inLen.toNat = t.outLen ∧
      ∀ i < t.outLen, inByte (handBack t) i = Memory.read t.output i := ⟨rfl, rfl, fun _ _ => rfl⟩

theorem witness_RoundTripStored :
    let t := compressStored Config.params (load [0x48, 0x69])
    exec .compressS (load [0x48, 0x69]) = .next t ∧ (handBack t).inLen.toNat = t.outLen ∧
      ∀ i < t.outLen, inByte (handBack t) i = Memory.read t.output i := ⟨rfl, rfl, fun _ _ => rfl⟩

/-- `CUR` at the last input byte, and at its end. -/
theorem witness_MatchAppendsItsLength :
    (load [0x61]).enc.cur.toNat < (load [0x61]).inLen.toNat ∧ (load []).inLen.toNat ≤ (load []).enc.cur.toNat := by
  decide

theorem witness_MatchFollowsItsLoop : (load [0x61]).enc.cur.toNat < (load [0x61]).inLen.toNat := by decide

theorem witness_MatchIsReproducible :
    exec .matchOp (encoder [0x61] [0x61, 0x61]) = .next (doMatch (encoder [0x61] [0x61, 0x61])) ∧
      1 < (doMatch (encoder [0x61] [0x61, 0x61])).enc.l.toNat := ⟨rfl, by decide⟩

theorem witness_MatchFindsTheFirstByte :
    (exec .matchOp (encoder [0x61] [0x62]) = .next (doMatch (encoder [0x61] [0x62])) ∧
      (doMatch (encoder [0x61] [0x62])).enc.l = 0) ∧
    (exec .matchOp (encoder [0x61] [0x61]) = .next (doMatch (encoder [0x61] [0x61])) ∧
      (doMatch (encoder [0x61] [0x61])).enc.l = 1) := ⟨⟨rfl, by decide⟩, ⟨rfl, by decide⟩⟩

theorem witness_EncoderAndDecoderInLockStep :
    (let s := encoder [0x61] (List.replicate 18 0x61)
     exec .matchOp s = .next (doMatch s) ∧ s.win = s.win ∧ 2 ≤ (doMatch s).enc.l.toNat) ∧
    (let s := encoder [0x61] [0x61]
     exec .matchOp s = .next (doMatch s) ∧ s.win = s.win ∧ (doMatch s).enc.l.toNat < 2 ∧ s.enc.ebit.toNat < 8) :=
  ⟨⟨rfl, rfl, by decide⟩, ⟨rfl, rfl, by decide, by decide⟩⟩

/-- A group of `ebit` tokens and a match of length `l` found. -/
def group (ebit : BitVec 4) (l : BitVec 5) : State :=
  { load [0x61] with enc := { State.reset.enc with ebit := ebit, l := l } }

theorem witness_EmitReferenceToken :
    ((group 7 2).enc.ebit.toNat < 8 ∧ 2 ≤ (group 7 2).enc.l.toNat ∧ (group 7 2).enc.l.toNat ≤ 17) ∧
    ((group 0 17).enc.ebit.toNat < 8 ∧ 2 ≤ (group 0 17).enc.l.toNat ∧ (group 0 17).enc.l.toNat ≤ 17) ∧
    8 ≤ (group 8 2).enc.ebit.toNat ∧
    ((group 7 1).enc.ebit.toNat < 8 ∧ (group 7 1).enc.l.toNat < 2) ∧
    ((group 7 18).enc.ebit.toNat < 8 ∧ 17 < (group 7 18).enc.l.toNat) := by decide

theorem witness_EmitLiteralToken :
    ((group 7 0).enc.ebit.toNat < 8 ∧ (group 7 0).enc.cur.toNat < (group 7 0).inLen.toNat ∧ (group 7 0).enc.l = 0) ∧
    ((group 7 1).enc.ebit.toNat < 8 ∧ (group 7 1).enc.cur.toNat < (group 7 1).inLen.toNat ∧ (group 7 1).enc.l ≠ 0) ∧
    8 ≤ (group 8 0).enc.ebit.toNat ∧
    (State.reset.enc.ebit.toNat < 8 ∧ State.reset.inLen.toNat ≤ State.reset.enc.cur.toNat) := by decide

theorem witness_EmitEndMarker : (group 7 0).enc.ebit.toNat < 8 ∧ 8 ≤ (group 8 0).enc.ebit.toNat := by decide

/-- The edges of the seed and of the dictionary. -/
theorem witness_DictInitSeedsTheWindow : 0 < 207 ∧ 206 < 207 ∧ 207 ≤ 207 ∧ 207 < 4096 ∧ 207 ≤ 4095 ∧ 4095 < 4096 := by
  decide

theorem witness_DictAppendStoresAndAdvances : 4095 < 4096 ∧ 4095 ≠ State.reset.win.wo.toNat := by decide

/-- A payload that leaves room for `COMP_SIZE`, and the shortest that does not. -/
theorem witness_HeaderBuild :
    State.reset.enc.payload.length + 12 < 2 ^ 32 ∧
    (let s := { State.reset with enc := { State.reset.enc with payload := List.replicate (2 ^ 32 - 12) 0 } }
     2 ^ 32 ≤ s.enc.payload.length + 12) := by
  refine ⟨by decide, ?_⟩
  simp only [List.length_replicate]; decide

theorem witness_HeaderParse :
    (load stored).inLen.toNat ≥ 16 ∧ (load (stored.take 16)).inLen.toNat ≥ 16 ∧ (load (stored.take 15)).inLen.toNat < 16 := by
  decide

theorem witness_ChecksumGuard :
    (inStream [] 0 8 ⟨[], 0⟩).dec.pend.toNat ≤ (inStream [] 0 8 ⟨[], 0⟩).inLen.toNat ∧
      ({ State.reset with inLen := 15 } : State).inLen.toNat < ({ State.reset with inLen := 15 } : State).dec.pend.toNat := by
  decide

/-- A checksum that detects single-bit errors: the exclusive-or of all bytes. -/
def xorSum (bs : List Byte) : U32 := bs.foldr (fun b c => c ^^^ b.setWidth 32) 0

theorem xorSum_detects : DetectsSingleBit xorSum := by
  intro p i j hi hj
  induction p generalizing i with
  | nil => simp at hi
  | cons b p ih =>
    cases i with
    | zero =>
      intro h
      have hone : ((1#8 : BitVec 8) <<< j).getLsbD j = true := by rw [BitVec.getLsbD_shiftLeft]; simp [hj]
      have := congrArg (fun v : U32 => v.getLsbD j) h
      simp only [xorSum, List.set_cons_zero, List.foldr_cons, List.getElem_cons_zero, BitVec.getLsbD_xor,
        BitVec.getLsbD_setWidth, hone, show j < 32 by omega, decide_true, Bool.true_and] at this
      simp at this
    | succ i =>
      intro h
      refine ih i (by simpa using hi) ?_
      have h' : xorSum (p.set i ((p[i]'(by simpa using hi)) ^^^ (1#8 <<< j))) ^^^ b.setWidth 32 =
          xorSum p ^^^ b.setWidth 32 := h
      have := congrArg (· ^^^ b.setWidth 32) h'
      simpa [BitVec.xor_assoc] using this

/-- The first and the last bit of the payload `01 0C F0`. -/
theorem witness_FlippedPayloadBitIsCaught :
    let s := load [15, 0, 0, 0, 0, 0, 0, 0, 0x4C, 0x5A, 0x46, 0x75, 0xFD, 0, 0, 0, 0x01, 0x0C, 0xF0]
    DetectsSingleBit (Params.mk blankParams.initDict xorSum).cksum ∧ 16 ≤ s.inLen.toNat ∧ inLe32 s 8 = tagLzfu ∧
      12 ≤ compSizeOf s ∧ xorSum (payloadOf s) = inLe32 s 12 ∧ 16 ≤ 16 ∧ 18 < 16 + payloadLenOf s ∧ 7 < 8 :=
  ⟨xorSum_detects, by decide, by decide, by decide, by decide, by decide, by decide, by decide⟩

theorem witness_HostWriteStartsTheCommand :
    hostTurn State.reset = true ∧ (0x80 : Byte) &&& 0xFC ≠ 0 ∧ (0x03 : Byte) &&& 0xFC = 0 ∧
      hostTurn (placeCommand 0 State.reset) = false := by decide

/-- The longest load that `IN_LEN` can say needs no list written out: one byte, and 2^32 of them. -/
theorem witness_HostLoadsTheInput :
    hostTurn State.reset = true ∧ [0x41].length < 2 ^ 32 ∧ 2 ^ 32 ≤ (List.replicate (2 ^ 32) (0x41 : Byte)).length ∧
      hostTurn (placeCommand 0 State.reset) = false := by
  rw [List.length_replicate]; decide

theorem witness_HostReadsWhatIsDefined :
    hostTurn (placeCommand 0 State.reset) = false ∧
    (hostTurn State.reset = true ∧ State.reset.status.state = .idle ∧ State.reset.outLen ≤ 0) ∧
    (slotOf (.decompress false) = some .command ∧
      exec (.decompress false) (load stored) = .next (decompress Config.params (load stored)) ∧
      0 < (decompress Config.params (load stored)).outLen ∧ 16 ≤ (load stored).inLen.toNat) ∧
    (exec (.decompress false) State.reset = .next (decompress Config.params State.reset) ∧
      State.reset.inLen.toNat < 16) ∧
    (slotOf .compressS = some .command ∧ exec .compressS State.reset = .next (compressStored Config.params State.reset) ∧
      ∀ c, Instr.compressS ≠ .decompress c) :=
  ⟨rfl, ⟨rfl, rfl, by decide⟩, ⟨rfl, rfl, by decide, by decide⟩, ⟨rfl, by decide⟩, ⟨rfl, rfl, by decide⟩⟩

theorem witness_HostMovesKeepTheInvariant :
    let s := load [0x41]
    State.Inv s ∧ hostWriteIn 1 0x42 s = .next { s with input := [(0, 0x41), (1, 0x42)] } ∧
      hostWriteInLen 2 s = .next { s with inLen := 2 } ∧
      hostLoad [0x42] s = .next { s with input := [(0, 0x42)], inLen := 1 } ∧
      hostWriteCmd 3 s = .next (placeCommand 3 s) := by
  refine ⟨⟨rfl, rfl, rfl, ?_, ?_, ?_, ?_, ?_, ?_, rfl, ?_, ?_, rfl, ?_⟩, rfl, rfl, rfl, rfl⟩ <;> decide

/-- A state inside a token stream that meets the invariant, and its step. -/
theorem witness_StepKeepsTheInvariant :
    let s := inStream [0x61] 0 0 ⟨[], 207⟩
    State.Inv s ∧ step s = .next (nextBit (lit 0x61 s)) := by
  refine ⟨⟨rfl, rfl, rfl, ?_, ?_, ?_, ?_, ?_, ?_, rfl, ?_, ?_, rfl, ?_⟩, rfl⟩ <;> decide

end Sys2Proof.Tests
end

section
/-!
The checksum guard on the stored path: `DECOMPRESS` of a container tagged `MELA` does not read `crc` (R125).
-/

namespace Sys2Proof.Machine

/-! ### The outcomes of `DECOMPRESS` on a stored container -/

theorem exec_decompress_next {c : Bool} {s t : State} (h : exec (.decompress c) s = .next t) :
    t = decompress Config.params s :=
  (Host.Outcome.next.inj h).symm

/-- R153 whole: the `STATUS` that a stored container leaves. -/
theorem status_decompress_mela {P : Params} {s : State} (h1 : 16 ≤ s.inLen.toNat) (h2 : 12 ≤ compSizeOf s)
    (h3 : inLe32 s 8 = tagMela) :
    (decompress P s).status = ⟨.done, none, false,
      decide (s.inLen.toNat - 16 < compSizeOf s - 12) || decide (payloadLenOf s < (inLe32 s 4).toNat)⟩ := by
  rw [decompress_mela h1 h2 h3, hdrMela_eq, ready_plen h1]
  rfl

/-- R153 whole: the output of a stored container. -/
theorem outBytes_decompress_mela {P : Params} {s : State} (h1 : 16 ≤ s.inLen.toNat) (h2 : 12 ≤ compSizeOf s)
    (h3 : inLe32 s 8 = tagMela) :
    outBytes (decompress P s) = (payloadOf s).take (inLe32 s 4).toNat := by
  have houtput : outBytes (decompress P s) =
      outBytes (ready s) ++ (payloadBytes (ready s)).take (inLe32 s 4).toNat := by
    rw [decompress_mela h1 h2 h3]
    apply outBytes_of <;> rw [hdrMela_eq] <;> rfl
  rw [houtput, ready_payload h1]
  rfl

theorem outBytes_eq_nil {s : State} (h : s.outLen = 0) : outBytes s = [] :=
  List.length_eq_zero_iff.1 ((length_outBytes s).trans h)

/-- The input that `DECOMPRESS` calls truncated before it takes a stored payload (R150, R152): fewer bytes than a header, or a
stored container whose `comp_size` is below 12. -/
def StoredCutShort (s : State) : Prop :=
  s.inLen.toNat < 16 ∨ (16 ≤ s.inLen.toNat ∧ inLe32 s 8 = tagMela ∧ compSizeOf s < 12)

/-- Nothing that such an input holds reaches `STATUS` or the output. -/
theorem decompress_storedCutShort {P : Params} {s : State} (h : StoredCutShort s) :
    (decompress P s).status = ⟨.error, some .truncatedInput, false, false⟩ ∧ outBytes (decompress P s) = [] := by
  obtain h16 | ⟨h16, htag, h12⟩ := h
  · rw [decompress_short h16]
    exact ⟨rfl, outBytes_eq_nil rfl⟩
  · rw [decompress_small h16 (.inr htag) h12]
    exact ⟨rfl, outBytes_eq_nil rfl⟩

theorem storedCutShort_or_whole {s : State} (htag : inLe32 s 8 = tagMela) :
    StoredCutShort s ∨ (16 ≤ s.inLen.toNat ∧ 12 ≤ compSizeOf s) := by
  simp only [StoredCutShort, htag, true_and]
  omega

/-! ### Two containers that differ in `crc` alone -/

/-- The same input but for the container's bytes 12 to 15, which hold `crc` (R63). -/
def SameButCrc (s s' : State) : Prop :=
  s'.inLen = s.inLen ∧ ∀ i < s.inLen.toNat, i < 12 ∨ 16 ≤ i → inByte s' i = inByte s i

namespace SameButCrc

variable {s s' : State} (h : SameButCrc s s')
include h

/-- A header field before `crc` is the same. -/
theorem inLe32_eq (h16 : 16 ≤ s.inLen.toNat) {a : Nat} (ha : a + 4 ≤ 12) : inLe32 s' a = inLe32 s a := by
  have hb : ∀ i < 12, inByte s' i = inByte s i := fun i hi => h.2 i (by omega) (.inl hi)
  unfold inLe32
  rw [hb a (by omega), hb (a + 1) (by omega), hb (a + 2) (by omega), hb (a + 3) (by omega)]

theorem compSizeOf_eq (h16 : 16 ≤ s.inLen.toNat) : compSizeOf s' = compSizeOf s := by
  unfold compSizeOf; rw [h.inLe32_eq h16 (by omega)]

theorem payloadLenOf_eq (h16 : 16 ≤ s.inLen.toNat) : payloadLenOf s' = payloadLenOf s := by
  unfold payloadLenOf; rw [h.compSizeOf_eq h16, h.1]

theorem payloadOf_eq (h16 : 16 ≤ s.inLen.toNat) : payloadOf s' = payloadOf s := by
  unfold payloadOf
  rw [h.payloadLenOf_eq h16]
  apply Memory.readBytes_congr
  intro i hi
  have hend : payloadLenOf s ≤ s.inLen.toNat - 16 := Nat.min_le_right _ _
  exact h.2 (16 + i) (by omega) (.inr (by omega))

/-- R125: `crc` reaches neither `STATUS` nor the output of a stored container. -/
theorem decompress_mela_eq (P : Params) (htag : inLe32 s 8 = tagMela) :
    (decompress P s').status = (decompress P s).status ∧ outBytes (decompress P s') = outBytes (decompress P s) := by
  have htag' (h16 : 16 ≤ s.inLen.toNat) : inLe32 s' 8 = tagMela := by rw [h.inLe32_eq h16 (by omega), htag]
  obtain hcut | ⟨h16, h12⟩ := storedCutShort_or_whole htag
  · have hcut' : StoredCutShort s' := by
      rw [StoredCutShort, h.1]
      exact hcut.imp_right fun ⟨h16, _, h12⟩ => ⟨h16, htag' h16, by rwa [h.compSizeOf_eq h16]⟩
    obtain ⟨hst, hout⟩ := decompress_storedCutShort (P := P) hcut
    obtain ⟨hst', hout'⟩ := decompress_storedCutShort (P := P) hcut'
    exact ⟨hst'.trans hst.symm, hout'.trans hout.symm⟩
  · have h16' : 16 ≤ s'.inLen.toNat := by rwa [h.1]
    have hsize := h.compSizeOf_eq h16
    have h12' : 12 ≤ compSizeOf s' := by rwa [hsize]
    have hraw : inLe32 s' 4 = inLe32 s 4 := h.inLe32_eq h16 (by omega)
    constructor
    · rw [status_decompress_mela h16' h12' (htag' h16), status_decompress_mela h16 h12 htag, h.1, hsize,
        h.payloadLenOf_eq h16, hraw]
    · rw [outBytes_decompress_mela h16' h12' (htag' h16), outBytes_decompress_mela h16 h12 htag, h.payloadOf_eq h16, hraw]

end SameButCrc

/-- Settles O26: a stored container ends `DONE` or with `TruncatedInputError`, and neither its `STATUS` nor its output
depends on `crc`. -/
theorem storedPathIgnoresTheChecksum : Obligations.StoredPathIgnoresTheChecksum := by
  unfold Obligations.StoredPathIgnoresTheChecksum
  intro compressed s t htag ht
  obtain rfl := exec_decompress_next ht
  refine ⟨?_, ?_, ?_⟩
  · obtain hcut | ⟨h16, h12⟩ := storedCutShort_or_whole htag
    · rw [(decompress_storedCutShort hcut).1]; decide
    · rw [status_decompress_mela h16 h12 htag]; simp
  · intro h16 h12
    rw [status_decompress_mela h16 h12 htag]
  · intro s' t' hlen hbytes ht'
    obtain rfl := exec_decompress_next ht'
    exact SameButCrc.decompress_mela_eq ⟨hlen, hbytes⟩ Config.params htag

end Sys2Proof.Machine
end

section
/-!
The dictionary window executed by itself: what `DINIT` and `DAPPEND` make of the 4096 positions and of `WO` (R131, R133, R135).
-/

namespace Sys2Proof.Machine

/-! ### What each window position holds after the two operations -/

namespace Window

/-- The seeded positions (R131). -/
theorem read_init_of_lt (P : Params) {i : Nat} (h : i < 207) : (Window.init P).read i = P.initDict[i] := by
  rw [read_init P i (by omega), dif_pos h]

/-- The filled positions (R131). -/
theorem read_init_of_le (P : Params) {i : Nat} (h : 207 ≤ i) (hi : i < 4096) : (Window.init P).read i = fill := by
  rw [read_init P i hi, dif_neg (by omega)]

theorem read_append_wo (w : Window) (b : Byte) : (w.append b).read w.wo.toNat = b := by
  have hwo : w.wo.toNat % 4096 = w.wo.toNat := Nat.mod_eq_of_lt w.wo.isLt
  rw [read_append, if_pos hwo]

theorem read_append_ne (w : Window) (b : Byte) {i : Nat} (hi : i < 4096) (hne : i ≠ w.wo.toNat) :
    (w.append b).read i = w.read i := by
  have hmod : i % 4096 ≠ w.wo.toNat := by rwa [Nat.mod_eq_of_lt hi]
  rw [read_append, if_neg hmod]

end Window

/-! ### The two instructions -/

theorem exec_dinit (s : State) : exec .dinit s = .next (dictInit Config.params s) := rfl

theorem exec_dappend (b : Byte) (s : State) : exec (.dappend b) s = .next (dictAppend b s) := rfl

theorem dictInit_frame (P : Params) (s : State) : dictInit P s = { s with win := (dictInit P s).win } := rfl

theorem dictAppend_frame (b : Byte) (s : State) : dictAppend b s = { s with win := (dictAppend b s).win } := rfl

/-- Settles O44: the position splits at 207 into the seed and the fill, whatever the window held before. -/
theorem dictInitSeedsTheWindow : Obligations.DictInitSeedsTheWindow := by
  unfold Obligations.DictInitSeedsTheWindow
  intro s
  refine ⟨dictInit Config.params s, exec_dinit s, ?_, ?_, ?_, dictInit_frame Config.params s⟩
  · rw [dictInit_win, Window.init_wo]; rfl
  · intro i hi
    rw [dictInit_win]; exact Window.read_init_of_lt Config.params hi
  · intro i hle hi
    rw [dictInit_win]; exact Window.read_init_of_le Config.params hle hi

/-- Settles O46: the store goes to the `WO` from before the increment, so only that position changes. -/
theorem dictAppendStoresAndAdvances : Obligations.DictAppendStoresAndAdvances := by
  unfold Obligations.DictAppendStoresAndAdvances
  intro b s
  refine ⟨dictAppend b s, exec_dappend b s, ?_, ?_, ?_, dictAppend_frame b s⟩
  · rw [dictAppend_win]; exact Window.append_wo_toNat s.win b
  · rw [dictAppend_win]; exact Window.read_append_wo s.win b
  · intro i hi hne
    rw [dictAppend_win]; exact Window.read_append_ne s.win b hi hne

end Sys2Proof.Machine
end

section
/-!
The header codec in the two compressing commands: the header that `COMPRESS` and `COMPRESS.S` build tells the two lengths (R144).
-/

namespace Sys2Proof.Machine

/-! ### The end of a compressing command -/

/-- The only way past a guard that refuses. -/
theorem next_of_guard {c : Prop} [Decidable c] {t u : State} {r : Refusal}
    (h : (if c then .next u else .refused r : Host.Outcome State Fault Refusal) = .next t) : c ∧ t = u := by
  split at h
  case isTrue hc => exact ⟨hc, (Host.Outcome.next.inj h).symm⟩
  case isFalse => cases h

theorem exec_compress_next {s t : State} (h : exec .compress s = .next t) :
    s.inLen.toNat ≤ maxIn ∧ t = compress Config.params s := next_of_guard h

theorem exec_compressS_next {s t : State} (h : exec .compressS s = .next t) :
    s.inLen.toNat ≤ maxIn ∧ t = compressStored Config.params s := next_of_guard h

theorem length_inBytes (s : State) : (inBytes s).length = s.inLen.toNat := Memory.length_readBytes _ _ _

/-- The state `t` holds the container built from the input of `s`: its registers and `OUT` are those of `HBUILD` (R142) on the
payload, and `COMP_SIZE` has room for the payload's length. -/
structure HoldsContainer (P : Params) (s : State) (tag : U32) (t : State) : Prop where
  hdr : t.hdr = packedHdr P s tag t.enc.payload
  out : outBytes t = packed P s tag t.enc.payload
  fits : t.enc.payload.length + 12 < 2 ^ 32

theorem compress_holdsContainer (P : Params) {s : State} (hm : s.inLen.toNat ≤ maxIn) :
    HoldsContainer P s tagLzfu (compress P s) := by
  have hpayload : (compress P s).enc.payload = (encoded P s).payload := by rw [compress_eq P hm]
  constructor <;> rw [hpayload]
  case hdr => rw [compress_eq P hm]
  case out => exact outBytes_compress P hm
  case fits => exact encoded_fits P hm

theorem compressStored_holdsContainer (P : Params) {s : State} (hm : s.inLen.toNat ≤ maxIn) :
    HoldsContainer P s tagMela (compressStored P s) := by
  have hpayload : (compressStored P s).enc.payload = inBytes s := by rw [compressStored_eq P hm]
  constructor <;> rw [hpayload]
  case hdr => rw [compressStored_eq P hm]
  case out => exact outBytes_compressStored P hm
  case fits =>
    simp only [maxIn] at hm
    rw [length_inBytes]; omega

/-! ### The two lengths in the header -/

namespace HoldsContainer

variable {P : Params} {s t : State} {tag : U32} (h : HoldsContainer P s tag t)
include h

theorem rawSize_toNat : t.hdr.rawSize.toNat = (inBytes s).length := by
  rw [h.hdr, length_inBytes]; rfl

theorem compSize_toNat : t.hdr.compSize.toNat = t.enc.payload.length + 12 := by
  rw [h.hdr]; exact (BitVec.toNat_ofNat _ _).trans (Nat.mod_eq_of_lt h.fits)

/-- The container begins with the two length fields (R91). -/
theorem outBytes_eq_lengths_append :
    outBytes t = bytesLe32 t.hdr.compSize ++ bytesLe32 t.hdr.rawSize ++
      (bytesLe32 tag ++ bytesLe32 (P.cksum t.enc.payload) ++ t.enc.payload) := by
  rw [h.out, h.hdr]
  simp only [packed, packedHdr, encodeHeader, List.append_assoc]

end HoldsContainer

theorem exec_compressing_holdsContainer {i : Instr} {s t : State} (hi : i = .compress ∨ i = .compressS)
    (h : exec i s = .next t) : ∃ tag, HoldsContainer Config.params s tag t := by
  obtain rfl | rfl := hi
  · obtain ⟨hm, rfl⟩ := exec_compress_next h
    exact ⟨tagLzfu, compress_holdsContainer Config.params hm⟩
  · obtain ⟨hm, rfl⟩ := exec_compressS_next h
    exact ⟨tagMela, compressStored_holdsContainer Config.params hm⟩

/-- Settles O31: both commands leave a container in the registers and in `OUT`, and the bound on the input (R12) keeps
`COMP_SIZE` from wrapping. -/
theorem headerTellsTheLengths : Obligations.HeaderTellsTheLengths := by
  unfold Obligations.HeaderTellsTheLengths
  intro i s t hi ht
  obtain ⟨tag, h⟩ := exec_compressing_holdsContainer hi ht
  exact ⟨h.rawSize_toNat, h.compSize_toNat, _, h.outBytes_eq_lengths_append⟩

end Sys2Proof.Machine
end

section
/-!
The compressor run by its instructions: `MATCH` is the loop of R186 in the registers, and `COMPRESS` is the sequence of its
operations (R180).
-/

namespace Sys2Proof.Machine

/-! ### `MATCH` as its loop -/

/-- The state that shows a search of `s` in progress: its window, and its variables in the registers. -/
def searchState (s : State) (sc : Scan) : State :=
  { s with
    win := sc.win
    enc := { s.enc with
      w0 := s.win.wo
      di := BitVec.ofNat 13 sc.di
      m := BitVec.ofNat 5 sc.m
      l := BitVec.ofNat 5 sc.l
      moff := BitVec.ofNat 13 sc.moff } }

theorem doMatch_eq_searchState (s : State) : doMatch s = searchState s (searchResult s) := rfl

theorem exec_matchOp {s : State} (h : s.enc.cur.toNat < s.inLen.toNat) : exec .matchOp s = .next (doMatch s) :=
  if_pos (decide_eq_true h)

/-- One pass of the loop of R186 in the registers of `u`, comparing with the input of `s` from its `CUR` on. -/
def matchPass (s u : State) : State :=
  if u.win.read u.enc.di.toNat = inByte s (s.enc.cur.toNat + u.enc.m.toNat) then
    if u.enc.m + 1 > u.enc.l then
      { u with
        win := u.win.append (inByte s (s.enc.cur.toNat + u.enc.m.toNat))
        enc := { u.enc with
          m := u.enc.m + 1, moff := u.enc.di - u.enc.m.setWidth 13, l := u.enc.m + 1, di := u.enc.di + 1 } }
    else { u with enc := { u.enc with m := u.enc.m + 1, di := u.enc.di + 1 } }
  else { u with enc := { u.enc with m := 0, di := u.enc.di + 1 } }

/-- The registers of a search in progress hold its variables: none has passed its width. -/
theorem searchState_toNat {s : State} {sc : Scan} (h : ScanInv (matchInput s) s.win (matchCap s) sc) :
    (searchState s sc).enc.di.toNat = sc.di ∧ (searchState s sc).enc.m.toNat = sc.m ∧
      (searchState s sc).enc.l.toNat = sc.l := by
  have hcap := matchCap_le s
  have hwo := s.win.wo.isLt
  have hl := h.lLeCap
  have hm := h.mLeL
  have hdi := h.diLe
  refine ⟨?_, ?_, ?_⟩ <;> refine (BitVec.toNat_ofNat _ _).trans (Nat.mod_eq_of_lt ?_) <;> omega

/-- The offset of a candidate, `DI − M`, at the width of `MOFF`. -/
theorem ofNat_candidate {di m : Nat} (hle : m ≤ di) (hm : m < 32) :
    BitVec.ofNat 13 (di + 1 - (m + 1)) = BitVec.ofNat 13 di - (BitVec.ofNat 5 m).setWidth 13 := by
  have hwidth : (BitVec.ofNat 5 m).setWidth 13 = BitVec.ofNat 13 m := by
    apply BitVec.eq_of_toNat_eq
    simp only [BitVec.toNat_setWidth, BitVec.toNat_ofNat]
    omega
  rw [hwidth, Nat.add_sub_add_right, BitVec.ofNat_sub_ofNat_of_le _ _ (by omega) hle]

/-- A pass on the registers is a step of the scan on the variables. -/
theorem matchPass_searchState {s : State} {sc : Scan} (h : ScanInv (matchInput s) s.win (matchCap s) sc)
    (hl : sc.l < matchCap s) :
    matchPass s (searchState s sc) = searchState s (scanStep (matchInput s) sc) := by
  obtain ⟨hdi, hm, hll⟩ := searchState_toNat h
  have hcap := matchCap_le s
  have hml := h.mLeL
  have hlonger : (searchState s sc).enc.m + 1 > (searchState s sc).enc.l ↔ sc.m + 1 > sc.l := by
    rw [gt_iff_lt, BitVec.lt_def, BitVec.toNat_add, hm, hll, show (1 : BitVec 5).toNat = 1 from rfl,
      Nat.mod_eq_of_lt (by omega)]
  have hwin : (searchState s sc).win = sc.win := rfl
  have hinput : inByte s (s.enc.cur.toNat + sc.m) = matchInput s sc.m := rfl
  rw [matchPass, hdi, hm, hwin, hinput, scanStep]
  by_cases hbyte : sc.win.read sc.di = matchInput s sc.m
  · rw [if_pos hbyte, if_pos hbyte]
    by_cases hlong : sc.m + 1 > sc.l
    · rw [if_pos hlong, if_pos (hlonger.2 hlong)]
      simp only [searchState, BitVec.ofNat_add, ofNat_candidate h.mLeDi (show sc.m < 32 by omega)]
      rfl
    · rw [if_neg hlong, if_neg (mt hlonger.1 hlong)]
      simp only [searchState, BitVec.ofNat_add]
      rfl
  · rw [if_neg hbyte, if_neg hbyte]
    simp only [searchState, BitVec.ofNat_add]
    rfl

/-- The guard of R186 on the registers is the guard of the scan. -/
theorem searchState_guard_iff {s : State} {sc : Scan} (h : ScanInv (matchInput s) s.win (matchCap s) sc) :
    ((searchState s sc).enc.di.toNat < (searchState s sc).enc.w0.toNat + (searchState s sc).enc.l.toNat ∧
      (searchState s sc).enc.l.toNat < min 17 (s.inLen.toNat - s.enc.cur.toNat)) ↔
    sc.di < s.win.wo.toNat + sc.l ∧ sc.l < matchCap s := by
  obtain ⟨hdi, -, hl⟩ := searchState_toNat h
  rw [hdi, hl]; rfl

/-- Settles O36: the states of the model's scan, shown in the registers, are the states of the loop. -/
theorem matchFollowsItsLoop : Obligations.MatchFollowsItsLoop := by
  unfold Obligations.MatchFollowsItsLoop
  intro s hs
  have hcap := matchCap_le s
  have hwo := s.win.wo.isLt
  obtain ⟨n, g, hstart, hpass, hinv, hend, hresult⟩ :=
    scan_states hcap (maxDictSize + maxMatch) _ (ScanInv.start (matchInput s) s.win (matchCap s))
      (by simp only [maxDictSize, maxMatch]; omega)
  refine ⟨n, fun k => searchState s (g k), ?_, ?_, ?_, ?_⟩
  · show searchState s (g 0) = _
    rw [hstart]; rfl
  · intro k hk
    obtain ⟨hk_inv, hdi, hl, hnext⟩ := hpass k hk
    obtain ⟨hguard_di, hguard_l⟩ := (searchState_guard_iff hk_inv).2 ⟨hdi, hl⟩
    refine ⟨hguard_di, hguard_l, ?_⟩
    show searchState s (g (k + 1)) = matchPass s (searchState s (g k))
    rw [hnext, matchPass_searchState hk_inv hl]
  · exact mt (searchState_guard_iff hinv).1 hend
  · rw [exec_matchOp hs, doMatch_eq_searchState, searchResult, hresult]

/-! ### `COMPRESS` as its operations -/

theorem exec_emitref {s : State} (hroom : s.enc.ebit.toNat < 8) (hmin : 2 ≤ s.enc.l.toNat) (hmax : s.enc.l.toNat ≤ 17) :
    exec .emitref s = .next (emitRef s) := by
  have hg : groupHasRoom s = true := decide_eq_true hroom
  show execEmitref s = _
  rw [execEmitref, if_neg (not_not.2 hg), if_pos ⟨hmin, hmax⟩]

theorem exec_emitlit {s : State} (hroom : s.enc.ebit.toNat < 8) (hcur : s.enc.cur.toNat < s.inLen.toNat) :
    exec .emitlit s = .next (emitLit s) := by
  have hg : groupHasRoom s = true := decide_eq_true hroom
  have hc : curInRange s = true := decide_eq_true hcur
  show execEmitlit s = _
  rw [execEmitlit, if_neg (not_not.2 hg), if_pos hc]

theorem exec_emitend {s : State} (hroom : s.enc.ebit.toNat < 8) : exec .emitend s = .next (emitEnd s) :=
  if_pos (decide_eq_true hroom)

theorem exec_compress {s : State} (hm : s.inLen.toNat ≤ maxIn) : exec .compress s = .next (compress Config.params s) :=
  if_pos hm

/-- The instruction that emits the result of a search in `t`, as the loop of R180 chooses it. -/
theorem exec_emit {t : State} (hroom : t.enc.ebit.toNat < 8) (hcur : t.enc.cur.toNat < t.inLen.toNat)
    (hmax : t.enc.l.toNat ≤ 17) :
    exec (if 2 ≤ t.enc.l.toNat then .emitref else .emitlit) t =
      .next (if minMatch ≤ t.enc.l.toNat then emitRef t else emitLit t) := by
  by_cases hl : 2 ≤ t.enc.l.toNat
  · rw [if_pos hl, if_pos hl]; exact exec_emitref hroom hl hmax
  · rw [if_neg hl, if_neg hl]; exact exec_emitlit hroom hcur

/-- `FLUSH` where the group is full, as the loop of R180 runs it. -/
theorem flush_of_full (u : State) :
    (if u.enc.ebit = 8 then exec .flush u else .next u) = .next (if u.enc.ebit = 8 then flush u else u) :=
  (apply_ite Host.Outcome.next _ _ _).symm

/-- A pass made of instructions is the token of the model's loop. -/
theorem compressPass_eq {s : State} (hroom : s.enc.ebit.toNat < 8) (hcur : s.enc.cur.toNat < s.inLen.toNat) :
    compressPass s = .next (encodeToken s) := by
  obtain ⟨hmax, -⟩ := doMatch_facts s
  have hemit := exec_emit (t := doMatch s) hroom hcur hmax
  rw [compressPass, exec_matchOp hcur]
  simp only [hemit]
  exact flush_of_full _

/-- One token keeps the loop invariant and brings `CUR` forward. -/
theorem encodeToken_inv {s : State} (h : EncInv s) (hcur : s.enc.cur.toNat < s.inLen.toNat) :
    EncInv (encodeToken s) ∧ (encodeToken s).inLen = s.inLen ∧ s.enc.cur.toNat < (encodeToken s).enc.cur.toNat := by
  obtain ⟨bit, bytes, k, e, htok, ht, he⟩ := encodeToken_effect hcur
  have hpos := htok.pos
  refine ⟨h.token htok ht he, by rw [ht], ?_⟩
  rw [ht]
  show _ < (s.enc.cur + BitVec.ofNat 32 k).toNat
  rw [cur_add htok.inside]; omega

/-- The passes all complete and use up the input; the model's loop is these passes and then the end marker and the last flush. -/
theorem compressPasses_eq (n : Nat) (s : State) (h : EncInv s) (hn : s.inLen.toNat ≤ s.enc.cur.toNat + n) :
    ∃ t, compressPasses n s = .next t ∧ EncInv t ∧ t.inLen.toNat ≤ t.enc.cur.toNat ∧
      encodeLoop n s = flush (emitEnd t) := by
  induction n generalizing s with
  | zero => exact ⟨s, rfl, h, hn, rfl⟩
  | succ n ih =>
    rw [compressPasses, encodeLoop]
    by_cases hdone : s.inLen.toNat ≤ s.enc.cur.toNat
    · rw [if_pos hdone, if_pos hdone]; exact ⟨s, rfl, h, hdone, rfl⟩
    · have hcur : s.enc.cur.toNat < s.inLen.toNat := by omega
      obtain ⟨hinv, hlen, hadv⟩ := encodeToken_inv h hcur
      rw [if_neg hdone, if_neg hdone, compressPass_eq h.room hcur]
      exact ih (encodeToken s) hinv (by rw [hlen]; omega)

/-- R180 after its loop: the checksum, the header and the payload, `DONE`. -/
theorem compress_eq_finish_hbuild (P : Params) (s : State) :
    compress P s =
      finish (hbuild tagLzfu (ckgen P (encodeLoop s.inLen.toNat (openEncoder P (startCommand s))))) := rfl

/-- Settles O30: `IN_LEN` passes are enough, since each brings `CUR` forward, and the group has room when the end marker comes. -/
theorem compressRunsItsOperations : Obligations.CompressRunsItsOperations := by
  unfold Obligations.CompressRunsItsOperations
  intro s hm
  obtain ⟨t, hpasses, hinv, hdone, hloop⟩ :=
    compressPasses_eq s.inLen.toNat (openEncoder Config.params (startCommand s)) (openEncoder_inv _ _)
      (Nat.le_add_left _ _)
  refine ⟨s.inLen.toNat, t, _, _, _, _, le_rfl, hpasses, hdone, exec_emitend hinv.room, rfl, rfl, rfl, ?_⟩
  rw [exec_compress hm, compress_eq_finish_hbuild, hloop]; rfl

end Sys2Proof.Machine
end

section
/-!
The error of `DECOMPRESS`: its four tests in the order of R226, and the `STATUS` that the first failing one leaves.
-/

namespace Sys2Proof.Machine

/-- The error that the first failing test of R226 reports, if one fails (R221 to R223). -/
def firstFailure (P : Params) (s : State) : Option Exc :=
  if s.inLen.toNat < 16 then some .truncatedInput
  else if inLe32 s 8 ≠ tagLzfu ∧ inLe32 s 8 ≠ tagMela then some .unsupportedFormat
  else if compSizeOf s < 12 then some .truncatedInput
  else if inLe32 s 8 = tagLzfu ∧ P.cksum (payloadOf s) ≠ inLe32 s 12 then some .corruptData
  else none

/-- A command has ended with the error `e`, or with success for `none`. -/
def EndedWith (t : State) (e : Option Exc) : Prop :=
  t.status.err = e ∧ t.status.state = if e = none then .done else .error

theorem endedWith_raise (e : Exc) (s : State) : EndedWith (raise e s) (some e) := ⟨rfl, rfl⟩

theorem endedWith_finish {s : State} (h : s.status.err = none) : EndedWith (finish s) none := ⟨h, rfl⟩

theorem err_hdrMela_ready (r : U32) (s : State) : (hdrMela r (ready s)).status.err = none := by
  rw [hdrMela_eq]; rfl

theorem err_runStream_ready (P : Params) (n : Nat) {s : State} (h16 : 16 ≤ s.inLen.toNat) :
    (runStream n (openStream P (ready s))).status.err = none := by
  have hpend : 16 ≤ (ready s).dec.pend.toNat := by rw [ready_pend h16]; omega
  obtain ⟨p, d, e, hrun, -⟩ := openStream_effect P n (ready s) hpend
  rw [hrun]; rfl

/-- Past every test either path succeeds (R228). -/
theorem decompress_endedWith_none (P : Params) {s : State} (h16 : 16 ≤ s.inLen.toNat)
    (htag : inLe32 s 8 = tagLzfu ∨ inLe32 s 8 = tagMela) (h12 : 12 ≤ compSizeOf s)
    (hcrc : inLe32 s 8 = tagLzfu → P.cksum (payloadOf s) = inLe32 s 12) : EndedWith (decompress P s) none := by
  obtain hlzfu | hmela := htag
  · rw [decompress_lzfu h16 h12 hlzfu (hcrc hlzfu)]
    exact endedWith_finish (err_runStream_ready P _ h16)
  · rw [decompress_mela h16 h12 hmela]
    exact endedWith_finish (err_hdrMela_ready _ s)

/-- R226: one case for each test, with the tests before it passed. -/
theorem decompress_endedWith_firstFailure (P : Params) (s : State) :
    EndedWith (decompress P s) (firstFailure P s) := by
  unfold firstFailure
  split_ifs with hshort hunknown hsmall hcorrupt
  · rw [decompress_short hshort]
    exact endedWith_raise _ _
  · rw [decompress_unsupported (by omega) hunknown.1 hunknown.2]
    exact endedWith_raise _ _
  · rw [decompress_small (by omega) (by tauto) hsmall]
    exact endedWith_raise _ _
  · rw [decompress_corrupt (by omega) (by omega) hcorrupt.1 hcorrupt.2]
    exact endedWith_raise _ _
  · exact decompress_endedWith_none P (by omega) (by tauto) (by omega) (by tauto)

/-- Settles O19: the whole command ends with the error of the first failing test, and `DONE` when none fails. -/
theorem decompressErrorOrder : Obligations.DecompressErrorOrder := by
  unfold Obligations.DecompressErrorOrder
  intro compressed s
  obtain ⟨herr, hstate⟩ := decompress_endedWith_firstFailure Config.params s
  exact ⟨decompress Config.params s, rfl, herr, by rw [herr, hstate]⟩

end Sys2Proof.Machine
end

section
/-!
The encoding: the decoder and the encoder are inverse on the well-formed instructions that have a slot (R90 to R104).
-/

namespace Sys2Proof

open Machine

/-! ### Decoding what was encoded -/

/-- The bits of a back-reference token, read at a write offset (R96, R101). -/
theorem decode_reference_encode (wo off : Pos) (lc : LenCode) (rest : List Byte) :
    decode .reference wo (bytesBe16 (mkToken off lc) ++ rest) =
      .ok ((decodeToken wo (mkToken off lc)).instr, rest) := by
  simp only [bytesBe16, List.cons_append, List.nil_append, decode, decodeStream, be16_bytes]

theorem decodeToken_of_ne {wo off : Pos} (lc : LenCode) (h : off ≠ wo) :
    decodeToken wo (mkToken off lc) = .ref off lc := by
  rw [decodeToken, tokOff_mkToken, tokLc_mkToken, if_neg h]

theorem decodeToken_self (wo : Pos) (lc : LenCode) : decodeToken wo (mkToken wo lc) = .endMark wo lc := by
  rw [decodeToken, tokOff_mkToken, tokLc_mkToken, if_pos rfl]

/-- Settles O2: one case for each instruction with a slot; the two token instructions turn on `OFF` = `WO` (R101). -/
theorem decodeOfEncodeIsIdentity : Obligations.DecodeOfEncodeIsIdentity := by
  unfold Obligations.DecodeOfEncodeIsIdentity
  intro wo i slot rest hslot hwf
  cases i <;> cases hslot
  case hdrLzfu => exact decodeHeader_encodeHeader _ _ tagLzfu _ _
  case hdrMela => exact decodeHeader_encodeHeader _ _ tagMela _ _
  case ctl => rfl
  case lit => rfl
  case ref off lc =>
    have hne : off ≠ wo := by simpa [Instr.wellFormed] using hwf
    rw [encode, decode_reference_encode, decodeToken_of_ne lc hne]; rfl
  case endMark off lc =>
    obtain rfl : off = wo := by simpa [Instr.wellFormed] using hwf
    rw [encode, decode_reference_encode, decodeToken_self]; rfl
  case decompress c => cases c <;> rfl
  case compress => rfl
  case compressS => rfl

/-! ### Encoding what was decoded -/

/-- An instruction is what the bytes `bytes`, followed by `rest`, encode at a position. -/
def EncodedAs (wo : Pos) (slot : Slot) (i : Instr) (rest bytes : List Byte) : Prop :=
  slotOf i = some slot ∧ i.wellFormed wo = true ∧ encode i ++ rest = bytes

/-- A host command has no operand that the write offset could make ill-formed. -/
theorem wellFormed_of_command (wo : Pos) {i : Instr} (h : slotOf i = some .command) : i.wellFormed wo = true := by
  cases i <;> cases h <;> rfl

theorem decodeCmd_encodedAs {wo : Pos} {b : Byte} {i : Instr} (rest : List Byte) (h : decodeCmd b = .ok i) :
    EncodedAs wo .command i rest (b :: rest) := by
  obtain ⟨hslot, henc⟩ := decodeCmd_encode h
  exact ⟨hslot, wellFormed_of_command wo hslot, by rw [henc]; rfl⟩

/-- Format H (R91) has the four fields in its sixteen bytes. -/
theorem encodeHeader_le32 (c0 c1 c2 c3 r0 r1 r2 r3 t0 t1 t2 t3 k0 k1 k2 k3 : Byte) :
    encodeHeader (le32 c0 c1 c2 c3) (le32 r0 r1 r2 r3) (le32 t0 t1 t2 t3) (le32 k0 k1 k2 k3) =
      [c0, c1, c2, c3, r0, r1, r2, r3, t0, t1, t2, t3, k0, k1, k2, k3] := by
  simp only [encodeHeader, bytesLe32_le32, List.cons_append, List.nil_append]

theorem decodeHeader_encodedAs {wo : Pos} {bytes : List Byte} {i : Instr} {rest : List Byte}
    (h : decodeHeader bytes = .ok (i, rest)) : EncodedAs wo .header i rest bytes := by
  unfold decodeHeader at h
  split at h
  next c0 c1 c2 c3 r0 r1 r2 r3 t0 t1 t2 t3 k0 k1 k2 k3 rest' =>
    have hbytes := encodeHeader_le32 c0 c1 c2 c3 r0 r1 r2 r3 t0 t1 t2 t3 k0 k1 k2 k3
    obtain ⟨htag, hkind⟩ | ⟨htag, hkind⟩ | ⟨-, -, hkind⟩ := decodeTag_cases (le32 t0 t1 t2 t3)
    · rw [hkind] at h; cases h
      exact ⟨rfl, rfl, by rw [encode, ← htag, hbytes]; rfl⟩
    · rw [hkind] at h; cases h
      exact ⟨rfl, rfl, by rw [encode, ← htag, hbytes]; rfl⟩
    · rw [hkind] at h; cases h
  next => cases h

theorem decodeToken_encodedAs (wo : Pos) (b0 b1 : Byte) (rest : List Byte) :
    EncodedAs wo .reference (decodeToken wo (be16 b0 b1)).instr rest (b0 :: b1 :: rest) := by
  have hbytes : bytesBe16 (mkToken (tokOff (be16 b0 b1)) (tokLc (be16 b0 b1))) = [b0, b1] := by
    rw [mkToken_fields, bytesBe16_be16]
  unfold decodeToken
  split_ifs with hoff
  · exact ⟨rfl, by simpa [Element.instr, Instr.wellFormed] using hoff, by rw [Element.instr, encode, hbytes]; rfl⟩
  · exact ⟨rfl, by simpa [Element.instr, Instr.wellFormed] using hoff, by rw [Element.instr, encode, hbytes]; rfl⟩

theorem decodeStream_encodedAs {wo : Pos} {slot : Slot} {bytes : List Byte} {e : Element} {rest : List Byte}
    (h : decodeStream slot wo bytes = some (e, rest)) : EncodedAs wo slot e.instr rest bytes := by
  unfold decodeStream at h
  split at h <;> cases h
  · exact ⟨rfl, rfl, rfl⟩
  · exact ⟨rfl, rfl, rfl⟩
  · exact decodeToken_encodedAs wo _ _ rest

/-- A position of the stream takes what `decodeStream` takes. -/
theorem decodeStream_of_decode {wo : Pos} {slot : Slot} {bytes : List Byte} {i : Instr} {rest : List Byte}
    (hslot : slot = .control ∨ slot = .literal ∨ slot = .reference) (h : decode slot wo bytes = .ok (i, rest)) :
    ∃ e, decodeStream slot wo bytes = some (e, rest) ∧ e.instr = i := by
  obtain rfl | rfl | rfl := hslot <;>
  · simp only [decode] at h
    split at h
    next he => cases h; exact ⟨_, he, rfl⟩
    next => cases h

/-- Settles O3: one case for each kind of position. -/
theorem encodeOfDecodeIsIdentity : Obligations.EncodeOfDecodeIsIdentity := by
  unfold Obligations.EncodeOfDecodeIsIdentity
  intro wo slot bytes i rest h
  have stream (hslot : slot = .control ∨ slot = .literal ∨ slot = .reference) : EncodedAs wo slot i rest bytes := by
    obtain ⟨e, he, rfl⟩ := decodeStream_of_decode hslot h
    exact decodeStream_encodedAs he
  cases slot with
  | command =>
    cases bytes with
    | nil => cases h
    | cons b bs =>
      simp only [decode] at h
      cases hcmd : decodeCmd b with
      | error _ => rw [hcmd] at h; cases h
      | ok j => rw [hcmd] at h; cases h; exact decodeCmd_encodedAs _ hcmd
  | header => exact decodeHeader_encodedAs h
  | control => exact stream (.inl rfl)
  | literal => exact stream (.inr (.inl rfl))
  | reference => exact stream (.inr (.inr rfl))

/-! ### The formats on fixed words and bytes -/

/-- Settles O1: each word is evaluated by the decoder. -/
theorem writtenOutWordsDecode : Obligations.WrittenOutWordsDecode := by
  unfold Obligations.WrittenOutWordsDecode
  decide

/-- Settles O4: the reserved bits are tested first, then bit 0 selects the operation. -/
theorem commandByteFields : Obligations.CommandByteFields := by
  unfold Obligations.CommandByteFields
  intro b
  refine ⟨decodeCmd_reserved b, fun hres h0 => ?_, fun hres h0 h1 => ?_, fun hres h0 h1 => ?_⟩
  · rw [decodeCmd_fields b hres, h0]; rfl
  · rw [decodeCmd_fields b hres, h0, h1]; rfl
  · rw [decodeCmd_fields b hres, h0, h1]; rfl

end Sys2Proof
end

section
/-!
The step: what it runs in each activity, and where the token stream ends by exhaustion (R150 to R154, R159, R165, R257).
-/

namespace Sys2Proof.Machine

/-! ### The step by the activity -/

theorem step_idle {s : State} (h : s.activity = .idle) : step s = .next s := by
  unfold step; rw [h]

theorem step_command {s : State} {i : Instr} (h : s.activity = .command) (hcmd : decodeCmd s.cmd = .ok i) :
    step s = exec i { s with activity := .idle } := by
  unfold step; simp only [h, hcmd]

theorem step_command_reserved {s : State} {r : Reject} (h : s.activity = .command) (hcmd : decodeCmd s.cmd = .error r) :
    step s = .refused .reservedCommand := by
  unfold step; simp only [h, hcmd]

theorem step_header {s : State} (h : s.activity = .header) : step s = .next (runHeader Config.params s) := by
  unfold step; rw [h]

theorem payloadInRange_of_le {s : State} (h : s.dec.pend.toNat ≤ s.inLen.toNat) : payloadInRange s = true :=
  decide_eq_true h

theorem payloadInRange_of_lt {s : State} (h : s.inLen.toNat < s.dec.pend.toNat) : ¬ payloadInRange s = true := by
  simpa [payloadInRange] using h

theorem step_stream_more {s t : State} (ha : s.activity = .stream) (hp : s.dec.pend.toNat ≤ s.inLen.toNat)
    (h : streamPass s = .more t) : step s = .next t := by
  rw [step_stream ha (payloadInRange_of_le hp), h]

theorem step_stream_stop {s t : State} (ha : s.activity = .stream) (hp : s.dec.pend.toNat ≤ s.inLen.toNat)
    (h : streamPass s = .stop t) : step s = .next (finish t) := by
  rw [step_stream ha (payloadInRange_of_le hp), h]

theorem step_stream_fault {s : State} (ha : s.activity = .stream) (hp : s.inLen.toNat < s.dec.pend.toNat) :
    step s = .fault .inputOutOfRange := by
  unfold step; simp only [ha]
  exact if_neg (payloadInRange_of_lt hp)

/-! ### An element of the stream by what stands at `IP` -/

theorem streamPass_none {s : State} (h : nextElement s = none) : streamPass s = .stop s := by
  unfold streamPass; rw [h]

theorem streamPass_ctl {s : State} {b : Byte} (h : nextElement s = some (.ctl b)) : streamPass s = .more (ctl b s) := by
  unfold streamPass; rw [h]

theorem streamPass_lit {s : State} {b : Byte} (h : nextElement s = some (.lit b)) :
    streamPass s = .more (nextBit (lit b s)) := by
  unfold streamPass; rw [h]

theorem streamPass_ref {s : State} {off : Pos} {lc : LenCode} (h : nextElement s = some (.ref off lc)) :
    streamPass s = .more (nextBit (ref off lc (latchToken off lc s))) := by
  unfold streamPass; rw [h]

theorem streamPass_endMark {s : State} {off : Pos} {lc : LenCode} (h : nextElement s = some (.endMark off lc)) :
    streamPass s = .stop (noteEnd (latchToken off lc s)) := by
  unfold streamPass; rw [h]

theorem nextElement_ctl {s : State} (h8 : s.dec.bitc = 8) (hip : s.dec.ip.toNat < s.dec.pend.toNat) :
    nextElement s = some (.ctl (inByte s s.dec.ip.toNat)) := by
  rw [nextElement_eq, if_pos h8, if_pos hip]

theorem nextElement_lit {s : State} (h8 : s.dec.bitc ≠ 8) (hbit : s.dec.ctrl.getLsbD s.dec.bitc.toNat = false)
    (hip : s.dec.ip.toNat < s.dec.pend.toNat) : nextElement s = some (.lit (inByte s s.dec.ip.toNat)) := by
  rw [nextElement_eq, if_neg h8, if_neg (by rw [hbit]; exact Bool.false_ne_true), if_pos hip]

theorem nextElement_token {s : State} (h8 : s.dec.bitc ≠ 8) (hbit : s.dec.ctrl.getLsbD s.dec.bitc.toNat = true)
    (hip : s.dec.ip.toNat + 2 ≤ s.dec.pend.toNat) :
    nextElement s =
      some (decodeToken s.win.wo (be16 (inByte s s.dec.ip.toNat) (inByte s (s.dec.ip.toNat + 1)))) := by
  rw [nextElement_eq, if_neg h8, if_pos hbit, if_pos hip]

/-! ### What a step runs -/

/-- Settles O9: an idle engine is a case of `step` of its own. -/
theorem idleEngineChangesNothing : Obligations.IdleEngineChangesNothing := by
  unfold Obligations.IdleEngineChangesNothing
  exact fun s => step_idle

/-- Settles O5: by what the command byte decodes to. -/
theorem stepRunsTheCommand : Obligations.StepRunsTheCommand := by
  unfold Obligations.StepRunsTheCommand
  exact fun s ha => ⟨fun i => step_command ha, fun hres => step_command_reserved ha (decodeCmd_reserved _ hres)⟩

/-- Settles O6: the element that the decoder reads is the one at `IP` (`nextElement_decode`), and each kind has its
own pass. -/
theorem stepRunsTheStreamElement : Obligations.StepRunsTheStreamElement := by
  unfold Obligations.StepRunsTheStreamElement
  intro s e rest ha hp hdec
  have hnext := nextElement_decode hdec
  refine ⟨?_, ?_, ?_, ?_⟩
  · rintro b _ rfl ⟨⟩
    exact step_stream_more ha hp (streamPass_ctl hnext)
  · rintro b _ rfl ⟨⟩
    exact step_stream_more ha hp (streamPass_lit hnext)
  · rintro off lc _ rfl ⟨⟩
    exact step_stream_more ha hp (streamPass_ref hnext)
  · rintro off lc _ rfl ⟨⟩
    exact step_stream_stop ha hp (streamPass_endMark hnext)

/-! ### The header by its tests -/

theorem tagLzfu_ne_tagMela : tagLzfu ≠ tagMela := by decide

theorem runHeader_short {P : Params} {s : State} (h : s.inLen.toNat < 16) :
    runHeader P s = raise .truncatedInput { s with hdrDefined := false } := by
  obtain ⟨-, k⟩ | ⟨h16, -⟩ | ⟨h16, -⟩ | ⟨h16, -⟩ | ⟨h16, -⟩ := runHeader_cases P s
  · exact k
  all_goals omega

theorem runHeader_unsupported {P : Params} {s : State} (h16 : 16 ≤ s.inLen.toNat) (hl : inLe32 s 8 ≠ tagLzfu)
    (hm : inLe32 s 8 ≠ tagMela) : runHeader P s = raise .unsupportedFormat (hparse s) := by
  obtain ⟨h, -⟩ | ⟨-, -, -, k⟩ | ⟨-, htag, -⟩ | ⟨-, -, htag, -⟩ | ⟨-, -, htag, -⟩ := runHeader_cases P s
  · omega
  · exact k
  · exact (htag.elim hl hm).elim
  · exact absurd htag hm
  · exact absurd htag hl

theorem runHeader_small {P : Params} {s : State} (h16 : 16 ≤ s.inLen.toNat)
    (htag : inLe32 s 8 = tagLzfu ∨ inLe32 s 8 = tagMela) (hsmall : compSizeOf s < 12) :
    runHeader P s = raise .truncatedInput (hparse s) := by
  unfold compSizeOf at hsmall
  obtain ⟨h, -⟩ | ⟨-, hl, hm, -⟩ | ⟨-, -, -, k⟩ | ⟨-, h, -⟩ | ⟨-, h, -⟩ := runHeader_cases P s
  · omega
  · exact (htag.elim hl hm).elim
  · exact k
  · omega
  · omega

theorem runHeader_mela {P : Params} {s : State} (h16 : 16 ≤ s.inLen.toNat) (h12 : 12 ≤ compSizeOf s)
    (htag : inLe32 s 8 = tagMela) : runHeader P s = settle (hdrMela (inLe32 s 4) (parsed s)) := by
  unfold compSizeOf at h12
  obtain ⟨h, -⟩ | ⟨-, -, hm, -⟩ | ⟨-, -, h, -⟩ | ⟨-, -, -, k⟩ | ⟨-, -, hl, -⟩ := runHeader_cases P s
  · omega
  · exact absurd htag hm
  · omega
  · exact k
  · exact absurd (hl.symm.trans htag) tagLzfu_ne_tagMela

theorem runHeader_lzfu {P : Params} {s : State} (h16 : 16 ≤ s.inLen.toNat) (h12 : 12 ≤ compSizeOf s)
    (htag : inLe32 s 8 = tagLzfu) : runHeader P s = settle (hdrLzfu P (inLe32 s 12) (parsed s)) := by
  unfold compSizeOf at h12
  obtain ⟨h, -⟩ | ⟨-, hl, -⟩ | ⟨-, -, h, -⟩ | ⟨-, -, hm, -⟩ | ⟨-, -, -, k⟩ := runHeader_cases P s
  · omega
  · exact absurd htag hl
  · omega
  · exact absurd (htag.symm.trans hm) tagLzfu_ne_tagMela
  · exact k

/-- What the decoder makes of the first 16 bytes of `IN`, by the tag (R92, R104). -/
theorem decode_header_cases (s : State) :
    (inLe32 s 8 = tagLzfu ∧ decode .header s.win.wo (Memory.readBytes s.input 0 16) =
      .ok (.hdrLzfu (inLe32 s 0) (inLe32 s 4) (inLe32 s 12), [])) ∨
    (inLe32 s 8 = tagMela ∧ decode .header s.win.wo (Memory.readBytes s.input 0 16) =
      .ok (.hdrMela (inLe32 s 0) (inLe32 s 4) (inLe32 s 12), [])) ∨
    (inLe32 s 8 ≠ tagLzfu ∧ inLe32 s 8 ≠ tagMela ∧
      decode .header s.win.wo (Memory.readBytes s.input 0 16) = .error .unknownTag) := by
  rw [decode_header_in]
  obtain ⟨htag, hkind⟩ | ⟨htag, hkind⟩ | ⟨hl, hm, hkind⟩ := decodeTag_cases (inLe32 s 8) <;> rw [hkind]
  · exact .inl ⟨htag, rfl⟩
  · exact .inr (.inl ⟨htag, rfl⟩)
  · exact .inr (.inr ⟨hl, hm, rfl⟩)

theorem parsed_inRange {s : State} (h16 : 16 ≤ s.inLen.toNat) : payloadInRange (parsed s) = true :=
  setExtent_inRange (by rw [hparse_ok h16]; exact h16)

theorem exec_hdrLzfu {compSize rawSize crc : U32} {s : State} (h : payloadInRange s = true) :
    exec (.hdrLzfu compSize rawSize crc) s = .next (hdrLzfu Config.params crc s) := if_pos h

/-- A header that decodes and promises enough is run on the parsed state. -/
theorem runHeader_of_decode {s t : State} {i : Instr} (h16 : 16 ≤ s.inLen.toNat) (h12 : 12 ≤ compSizeOf s)
    (hdec : decode .header s.win.wo (Memory.readBytes s.input 0 16) = .ok (i, []))
    (ht : exec i (parsed s) = .next t) : runHeader Config.params s = settle t := by
  have hrange := parsed_inRange h16
  obtain ⟨htag, h⟩ | ⟨htag, h⟩ | ⟨-, -, h⟩ := decode_header_cases s <;> rw [hdec] at h <;> cases h
  · rw [runHeader_lzfu h16 h12 htag, Host.Outcome.next.inj ((exec_hdrLzfu hrange).symm.trans ht)]
  · have hexec : exec (.hdrMela (inLe32 s 0) (inLe32 s 4) (inLe32 s 12)) (parsed s) =
        .next (hdrMela (inLe32 s 4) (parsed s)) := if_pos hrange
    rw [runHeader_mela h16 h12 htag, Host.Outcome.next.inj (hexec.symm.trans ht)]

/-- Settles O8: one clause for each outcome of `runHeader_cases`. -/
theorem stepRunsTheHeader : Obligations.StepRunsTheHeader := by
  unfold Obligations.StepRunsTheHeader
  intro s ha _
  rw [step_header ha]
  refine ⟨fun i t h16 hdec h12 ht => ?_, fun hshort => ?_, fun h16 hdec => ?_, fun i h16 hdec hsmall => ?_⟩
  · rw [runHeader_of_decode h16 h12 hdec ht]
  · rw [runHeader_short hshort]
  · obtain ⟨-, h⟩ | ⟨-, h⟩ | ⟨hl, hm, -⟩ := decode_header_cases s
    · rw [hdec] at h; cases h
    · rw [hdec] at h; cases h
    · rw [runHeader_unsupported h16 hl hm]
  · obtain ⟨htag, -⟩ | ⟨htag, -⟩ | ⟨-, -, h⟩ := decode_header_cases s
    · rw [runHeader_small h16 (.inl htag) hsmall]
    · rw [runHeader_small h16 (.inr htag) hsmall]
    · rw [hdec] at h; cases h

/-! ### The end by exhaustion -/

/-- The bytes of the next element are not all there: the three places of R159. -/
theorem nextElement_none {s : State}
    (h : (s.dec.bitc = 8 ∧ s.dec.pend.toNat ≤ s.dec.ip.toNat) ∨
      (s.dec.bitc ≠ 8 ∧ s.dec.ctrl.getLsbD s.dec.bitc.toNat = false ∧ s.dec.pend.toNat ≤ s.dec.ip.toNat) ∨
      (s.dec.bitc ≠ 8 ∧ s.dec.ctrl.getLsbD s.dec.bitc.toNat = true ∧ s.dec.pend.toNat < s.dec.ip.toNat + 2)) :
    nextElement s = none := by
  rw [nextElement_eq]
  obtain ⟨h8, hip⟩ | ⟨h8, hbit, hip⟩ | ⟨h8, hbit, hip⟩ := h
  · rw [if_pos h8, if_neg (Nat.not_lt.2 hip)]
  · rw [if_neg h8, if_neg (by rw [hbit]; exact Bool.false_ne_true), if_neg (Nat.not_lt.2 hip)]
  · rw [if_neg h8, if_pos hbit, if_neg (Nat.not_le.2 hip)]

/-- Settles O7: with no element at `IP` the stream stops where it stands. -/
theorem exhaustionEndsTheStream : Obligations.ExhaustionEndsTheStream := by
  unfold Obligations.ExhaustionEndsTheStream
  refine fun s ha => ⟨fun hp hnone => ?_, step_stream_fault ha⟩
  exact step_stream_stop ha hp (streamPass_none (nextElement_none hnone))

end Sys2Proof.Machine
end

section
/-!
The elements of the token stream: what `CTL`, `LIT`, `REF` and `END` do and leave unchanged, executed by themselves
and in the step they are fetched in (R155 to R158).
-/

namespace Sys2Proof.Machine

/-- Settles O10: where `BITC` = 8 the byte at `IP` is a control byte. -/
theorem controlByteLoads : Obligations.ControlByteLoads := by
  unfold Obligations.ControlByteLoads
  refine ⟨fun b s => rfl, fun s ha hp hip h8 => ?_⟩
  exact step_stream_more ha hp (streamPass_ctl (nextElement_ctl h8 hip))

theorem outBytes_lit (b : Byte) (d : State) : outBytes (lit b d) = outBytes d ++ [b] := by
  rw [lit_produce, outBytes_produce]

/-- Settles O11: the byte goes to `OUT_LEN` of `OUT` and to `WO` of `DICT`. -/
theorem literalEmitsAndAppends : Obligations.LiteralEmitsAndAppends := by
  unfold Obligations.LiteralEmitsAndAppends
  refine ⟨fun b s => ?_, fun s ha hp hip h8 hbit => ?_⟩
  · exact ⟨lit b s, rfl, outBytes_lit b s, rfl, fun a => Memory.read_write_ne s.output b, rfl,
      Window.read_append s.win b, rfl⟩
  · exact ⟨_, rfl, step_stream_more ha hp (streamPass_lit (nextElement_lit h8 hbit hip))⟩

/-- The bytes that a back-reference of `n` bytes copies, written at `a`: byte `k` of them. -/
theorem read_writeBytes_copyList (m : Memory) (a : Nat) (w : Window) {o n k : Nat} (ho : o < 4096)
    (hne : o ≠ w.wo.toNat) (hn : n ≤ 17) (hk : k < n) :
    Memory.read (Memory.writeBytes m a (copyList w o n)) (a + k) =
      w.read (o + k % ((w.wo.toNat + 4096 - o) % 4096)) := by
  have hlen := length_copyList w o n
  rw [Memory.read_writeBytes, dif_pos (by omega)]
  simp only [Nat.add_sub_cancel_left]
  exact copyList_closed w o n ho hne hn k (by omega)

/-- The same bytes in the window, from the old `WO` on. -/
theorem read_appendAll_copyList (w : Window) {o n k : Nat} (ho : o < 4096) (hne : o ≠ w.wo.toNat) (hn : n ≤ 17)
    (hk : k < n) :
    (w.appendAll (copyList w o n)).read (w.wo.toNat + k) = w.read (o + k % ((w.wo.toNat + 4096 - o) % 4096)) := by
  have hlen := length_copyList w o n
  have hat : (w.wo.toNat + k + 4096 - w.wo.toNat) % 4096 = k := by omega
  rw [Window.read_appendAll _ _ (by omega), dif_pos (by omega)]
  simp only [hat]
  exact copyList_closed w o n ho hne hn k (by omega)

/-- What a copy leaves alone in the window. -/
theorem read_appendAll_outside (w : Window) {bs : List Byte} (hn : bs.length ≤ 4096) {o : Nat}
    (h : bs.length ≤ (o + 4096 - w.wo.toNat) % 4096) : (w.appendAll bs).read o = w.read o := by
  rw [Window.read_appendAll _ _ hn, dif_neg (by omega)]

/-- `TOK`, `OFF`, `LC` and `IP` as the loop of R154 sets them from a token's two bytes. -/
theorem latchToken_fields (s : State) (tok : Token) :
    latchToken (tokOff tok) (tokLc tok) s =
      { s with dec := { s.dec with tok := tok, ip := s.dec.ip + 2, off := tokOff tok, lc := tokLc tok } } := by
  rw [latchToken, mkToken_fields]

/-- Settles O12: `copyList_closed` is the closed form, in `OUT` and in `DICT`. -/
theorem referenceCopies : Obligations.ReferenceCopies := by
  unfold Obligations.ReferenceCopies
  constructor
  · intro off lc s hne
    have hoff := off.isLt
    have hne' : off.toNat ≠ s.win.wo.toNat := fun h => hne (BitVec.eq_of_toNat_eq h)
    have hn : lc.toNat + 2 ≤ 17 := by have := lc.isLt; omega
    have hlen := length_copyList s.win off.toNat (lc.toNat + 2)
    refine ⟨ref off lc s, rfl, ?_⟩
    rw [ref_eq]
    refine ⟨rfl, fun k hk => ⟨?_, ?_⟩, ?_, fun a ha => ?_, fun o ho => ?_, rfl⟩
    · exact read_writeBytes_copyList s.output s.outLen s.win hoff hne' hn hk
    · exact read_appendAll_copyList s.win hoff hne' hn hk
    · rw [Window.appendAll_wo, hlen]
    · exact Memory.read_writeBytes_outside _ _ _ (by rwa [hlen])
    · exact read_appendAll_outside s.win (by omega) (by omega)
  · rintro s tok ha hp h8 hbit hip rfl hne
    have hnext := nextElement_token h8 hbit hip
    rw [decodeToken, if_neg hne] at hnext
    refine ⟨_, rfl, ?_⟩
    rw [← latchToken_fields]
    exact step_stream_more ha hp (streamPass_ref hnext)

/-- Settles O13: `ref_eq` gives `STEP`, whose five bits hold `LC + 2`. -/
theorem stepCountsTheCopiedBytes : Obligations.StepCountsTheCopiedBytes := by
  unfold Obligations.StepCountsTheCopiedBytes
  intro off lc s
  have hlc := lc.isLt
  refine ⟨ref off lc s, rfl, ?_⟩
  rw [ref_eq]
  exact (BitVec.toNat_ofNat _ _).trans (Nat.mod_eq_of_lt (by omega))

/-- Settles O14: a token whose offset is `WO` decodes to `END`. -/
theorem endMarkerEndsTheStream : Obligations.EndMarkerEndsTheStream := by
  unfold Obligations.EndMarkerEndsTheStream
  refine ⟨fun off lc s => rfl, ?_⟩
  rintro s tok ha hp h8 hbit hip rfl heq
  have hnext := nextElement_token h8 hbit hip
  rw [decodeToken, if_pos heq] at hnext
  rw [step_stream_stop ha hp (streamPass_endMark hnext), latchToken_fields]
  rfl

end Sys2Proof.Machine
end

section
/-!
The two headers executed by themselves: the stored copy, the checksum test, and the token stream whole and a token a
step (R121, R153, R154, R162, R165).
-/

namespace Sys2Proof.Machine

/-! ### `HDR.MELA` -/

theorem exec_hdrMela {compSize rawSize crc : U32} {s : State} (h : s.dec.pend.toNat ≤ s.inLen.toNat) :
    exec (.hdrMela compSize rawSize crc) s = .next (hdrMela rawSize s) := if_pos (payloadInRange_of_le h)

theorem exec_hdrMela_fault {compSize rawSize crc : U32} {s : State} (h : s.inLen.toNat < s.dec.pend.toNat) :
    exec (.hdrMela compSize rawSize crc) s = .fault .inputOutOfRange := if_neg (payloadInRange_of_lt h)

/-- Settles O15, by the whole state of `hdrMela_eq`. -/
theorem storedHeaderCopies : Obligations.StoredHeaderCopies := by
  unfold Obligations.StoredHeaderCopies
  refine fun compSize rawSize crc s => ⟨fun hp => ⟨_, exec_hdrMela hp, ?_⟩, exec_hdrMela_fault⟩
  rw [hdrMela_eq]
  exact ⟨outBytes_of rfl rfl, fun a => Memory.read_writeBytes_outside _ _ _, rfl⟩

/-! ### `HDR.LZFU` -/

theorem exec_hdrLzfu_fault {compSize rawSize crc : U32} {s : State} (h : s.inLen.toNat < s.dec.pend.toNat) :
    exec (.hdrLzfu compSize rawSize crc) s = .fault .inputOutOfRange := if_neg (payloadInRange_of_lt h)

/-- Settles O16: the checksum is tested before the stream is opened. -/
theorem compressedHeaderGuards : Obligations.CompressedHeaderGuards := by
  unfold Obligations.CompressedHeaderGuards
  refine fun compSize rawSize crc s => ⟨fun hp hsum => ?_, exec_hdrLzfu_fault⟩
  rw [exec_hdrLzfu (payloadInRange_of_le hp), hdrLzfu_bad hsum]
  rfl

/-- Settles O17: the effect of the token loop from the state that `HDR.LZFU` opens. -/
theorem compressedHeaderRuns : Obligations.CompressedHeaderRuns := by
  unfold Obligations.CompressedHeaderRuns
  intro compSize rawSize crc s hp h16 hsum
  obtain ⟨p, d, e, hrun, hpend, hlo, hhi, hlen, -⟩ := openStream_effect Config.params (plen s + 1) s h16
  refine ⟨_, p, exec_hdrLzfu (payloadInRange_of_le hp), ?_⟩
  rw [hdrLzfu_ok hsum, hrun]
  exact ⟨outBytes_of rfl rfl, rfl, hlen, hlo, hhi, fun a => Memory.read_writeBytes_outside _ _ _, by rw [← hpend]⟩

/-- The end of a command does not show which activity it ended. -/
theorem finish_activity_eq (s : State) (a : Activity) : finish { s with activity := a } = finish s := rfl

/-- Settles O18: the loop needs no more elements than there are payload bytes and one, and each is a step. -/
theorem tokenStepsReachTheWholeRun : Obligations.TokenStepsReachTheWholeRun := by
  unfold Obligations.TokenStepsReachTheWholeRun
  intro compSize rawSize crc s hp h16 hsum
  have hsteps := core_run_stream (plen s + 1) { openStream Config.params s with activity := .stream } rfl
    (payloadInRange_of_le hp) h16 (by
      show s.dec.pend.toNat < 16 + (s.dec.pend.toNat - 16 + 1)
      omega)
  refine ⟨plen s + 1, _, le_rfl, exec_hdrLzfu (payloadInRange_of_le hp), ?_⟩
  rw [hdrLzfu_ok hsum, hsteps, runStream_activity, finish_activity_eq]

end Sys2Proof.Machine
end

section
/-!
`DECOMPRESS` whole: its frame, what an error leaves, its two paths, and what it reads of the input (R150 to R163, R226
to R228).
-/

namespace Sys2Proof.Machine

theorem exec_decompress (c : Bool) (s : State) : exec (.decompress c) s = .next (decompress Config.params s) := rfl

/-! ### The frame -/

/-- A command has written the bytes `p` at the start of `OUT` and left the engine idle, and has changed nothing that the
host or the encoder owns. -/
def DecompressLeaves (s t : State) (p : List Byte) : Prop :=
  t = { s with
        status := t.status, outLen := p.length, output := Memory.writeBytes s.output 0 p, hdr := t.hdr
        hdrDefined := t.hdrDefined, win := t.win, dec := t.dec, activity := .idle }

theorem decompressLeaves_raise {s u : State} (e : Exc)
    (h : u = { s with
      status := u.status, outLen := 0, hdr := u.hdr, hdrDefined := u.hdrDefined, dec := u.dec }) :
    DecompressLeaves s (raise e u) [] := by
  unfold DecompressLeaves
  rw [h]; rfl

theorem decompress_leaves (P : Params) (s : State) : ∃ p, DecompressLeaves s (decompress P s) p := by
  obtain ⟨-, h⟩ | ⟨-, -, -, h⟩ | ⟨-, -, -, h⟩ | ⟨-, -, -, h⟩ | ⟨-, -, -, -, h⟩ | ⟨h16, -, -, -, h⟩ :=
    decompress_cases P s
  · exact ⟨[], h ▸ decompressLeaves_raise _ rfl⟩
  · exact ⟨[], h ▸ decompressLeaves_raise _ rfl⟩
  · exact ⟨[], h ▸ decompressLeaves_raise _ rfl⟩
  · refine ⟨(payloadBytes (ready s)).take (inLe32 s 4).toNat, ?_⟩
    rw [h, hdrMela_eq, DecompressLeaves, ready]
    simp only [Nat.zero_add]
    rfl
  · exact ⟨[], h ▸ decompressLeaves_raise _ rfl⟩
  · obtain ⟨p, d, e, hrun, -⟩ := openStream_effect P (payloadLenOf s + 1) (ready s) (by rw [ready_pend h16]; omega)
    refine ⟨p, ?_⟩
    rw [h, hrun, DecompressLeaves, ready]
    simp only [Nat.zero_add]
    rfl

theorem DecompressLeaves.read_output {s t : State} {p : List Byte} (h : DecompressLeaves s t p) {a : Nat}
    (ha : t.outLen ≤ a) : Memory.read t.output a = Memory.read s.output a := by
  rw [h] at ha ⊢
  exact Memory.read_writeBytes_outside _ _ _ (.inr (by simpa using ha))

/-- Settles O20: whichever of the six outcomes it is, the frame is that of `decompress_leaves`. -/
theorem decompressFrame : Obligations.DecompressFrame := by
  unfold Obligations.DecompressFrame
  intro c c' s
  obtain ⟨hidle, hstate, -⟩ := command_ends (i := .decompress c) rfl (exec_decompress c s)
  obtain ⟨p, hp⟩ := decompress_leaves Config.params s
  refine ⟨_, exec_decompress c s, exec_decompress c' s, hstate, hidle, fun a => hp.read_output, ?_⟩
  rw [DecompressLeaves] at hp
  generalize decompress Config.params s = t at hp
  rw [hp]

/-! ### An error -/

/-- The state after `HPARSE` and step 2 that an error keeps (R227, R228). -/
def ErrorKeeps (s t : State) : Prop :=
  t.outLen = 0 ∧ t.output = s.output ∧ t.win = s.win ∧ t.status.endSeen = false ∧
    t.status.short = (decide (t.status.err = some .corruptData) && decide (s.inLen.toNat - 16 < compSizeOf s - 12)) ∧
    (s.inLen.toNat < 16 → t.hdr = s.hdr ∧ t.dec = s.dec) ∧
    (16 ≤ s.inLen.toNat → t.hdr = ⟨inLe32 s 0, inLe32 s 4, inLe32 s 8, inLe32 s 12⟩ ∧
      t.dec = { s.dec with ip := 16, pend := t.dec.pend })

theorem errorKeeps_short {s : State} (h : s.inLen.toNat < 16) :
    ErrorKeeps s (raise .truncatedInput { startCommand s with hdrDefined := false }) :=
  ⟨rfl, rfl, rfl, rfl, rfl, fun _ => ⟨rfl, rfl⟩, fun _ => by omega⟩

theorem errorKeeps_loaded {s : State} (h : 16 ≤ s.inLen.toNat) {e : Exc} (he : e ≠ .corruptData) :
    ErrorKeeps s (raise e (loaded s)) := by
  refine ⟨rfl, rfl, rfl, rfl, ?_, fun _ => by omega, fun _ => ⟨rfl, rfl⟩⟩
  have hshort : (loaded s).status.short = false := rfl
  simp [hshort, he]

theorem errorKeeps_ready {s : State} (h : 16 ≤ s.inLen.toNat) : ErrorKeeps s (raise .corruptData (ready s)) := by
  refine ⟨rfl, rfl, rfl, rfl, ?_, fun _ => by omega, fun _ => ⟨rfl, rfl⟩⟩
  have hshort : (ready s).status.short = decide (s.inLen.toNat - 16 < compSizeOf s - 12) := rfl
  simp [hshort]

/-- Settles O21: the outcomes that raise, and the two that do not. -/
theorem errorsLeaveNoOutput : Obligations.ErrorsLeaveNoOutput := by
  unfold Obligations.ErrorsLeaveNoOutput
  intro c s t ht herr
  obtain rfl := exec_decompress_next ht
  show ErrorKeeps s (decompress Config.params s)
  obtain ⟨h16, h⟩ | ⟨h16, -, -, h⟩ | ⟨h16, -, -, h⟩ | ⟨-, -, -, h⟩ | ⟨h16, -, -, -, h⟩ | ⟨-, -, -, -, h⟩ :=
    decompress_cases Config.params s
  · rw [h]; exact errorKeeps_short h16
  · rw [h]; exact errorKeeps_loaded h16 (by decide)
  · rw [h]; exact errorKeeps_loaded h16 (by decide)
  · rw [h] at herr; cases herr
  · rw [h]; exact errorKeeps_ready h16
  · rw [h] at herr; cases herr

/-! ### The two paths -/

/-- Settles O22, by the whole state that HDR.MELA leaves on the ready state. -/
theorem decompressStored : Obligations.DecompressStored := by
  unfold Obligations.DecompressStored
  intro c s h16 htag h12
  obtain ⟨p, hp⟩ := decompress_leaves Config.params s
  have hmela := decompress_mela (P := Config.params) h16 h12 htag
  refine ⟨_, exec_decompress c s, outBytes_decompress_mela h16 h12 htag, fun a => hp.read_output,
    status_decompress_mela h16 h12 htag, ?_, ?_, ?_⟩ <;> rw [hmela, hdrMela_eq] <;> rfl

/-- Settles O23: past the checksum test the command is the token stream on the ready state. -/
theorem decompressCompressed : Obligations.DecompressCompressed := by
  unfold Obligations.DecompressCompressed
  intro c s h16 htag h12 hsum
  have hlzfu := decompress_lzfu h16 h12 htag hsum
  have hheader : hdrLzfu Config.params (inLe32 s 12) (ready s) =
      runStream (payloadLenOf s + 1) (openStream Config.params (ready s)) := by
    rw [hdrLzfu_ok (by rw [ready_payload h16, hsum]), ready_plen h16]
  obtain ⟨p, d, e, hrun, -⟩ := openStream_effect Config.params (payloadLenOf s + 1) (ready s)
    (by rw [ready_pend h16]; omega)
  refine ⟨_, _, exec_hdrLzfu (s := ready s) (ready_inRange h16), exec_decompress c s, ?_, ?_⟩
  · rw [hlzfu, hheader]
  · rw [hlzfu, hheader, hrun]; rfl

/-! ### What it reads -/

/-- Settles O24: `decompress_congr` reads no more than the container. -/
theorem decompressReadsOnlyTheContainer : Obligations.DecompressReadsOnlyTheContainer := by
  unfold Obligations.DecompressReadsOnlyTheContainer
  intro c s s' t t' _ hlen hbytes ht ht'
  obtain rfl := exec_decompress_next ht
  obtain rfl := exec_decompress_next ht'
  exact decompress_congr Config.params hlen fun _ => hbytes

theorem outBytes_finish (s : State) : outBytes (finish s) = outBytes s := by
  rw [outBytes, outBytes, finish_output, finish_outLen]

/-- The same input but for the container's bytes 4 to 7, which hold `raw_size` (R63). -/
def SameButRawSize (s s' : State) : Prop :=
  s'.inLen = s.inLen ∧ ∀ i < s.inLen.toNat, i < 4 ∨ 8 ≤ i → inByte s' i = inByte s i

namespace SameButRawSize

variable {s s' : State} (h : SameButRawSize s s')
include h

/-- The header fields other than `raw_size` are the same. -/
theorem inLe32_eq (h16 : 16 ≤ s.inLen.toNat) {a : Nat} (ha : a = 0 ∨ 8 ≤ a ∧ a + 4 ≤ 16) :
    inLe32 s' a = inLe32 s a := by
  have hb : ∀ i < 16, i < 4 ∨ 8 ≤ i → inByte s' i = inByte s i := fun i hi => h.2 i (by omega)
  unfold inLe32
  rw [hb a (by omega) (by omega), hb (a + 1) (by omega) (by omega), hb (a + 2) (by omega) (by omega),
    hb (a + 3) (by omega) (by omega)]

theorem compSizeOf_eq (h16 : 16 ≤ s.inLen.toNat) : compSizeOf s' = compSizeOf s := by
  unfold compSizeOf; rw [h.inLe32_eq h16 (.inl rfl)]

theorem payloadLenOf_eq (h16 : 16 ≤ s.inLen.toNat) : payloadLenOf s' = payloadLenOf s := by
  unfold payloadLenOf; rw [h.compSizeOf_eq h16, h.1]

theorem payloadOf_eq (h16 : 16 ≤ s.inLen.toNat) : payloadOf s' = payloadOf s := by
  unfold payloadOf
  rw [h.payloadLenOf_eq h16]
  apply Memory.readBytes_congr
  intro i hi
  have hend : payloadLenOf s ≤ s.inLen.toNat - 16 := Nat.min_le_right _ _
  exact h.2 (16 + i) (by omega) (.inr (by omega))

theorem ready_status_eq (h16 : 16 ≤ s.inLen.toNat) : (ready s').status = (ready s).status := by
  simp only [ready, h.compSizeOf_eq h16, h.1]

/-- The token stream that is opened on either is the same: `raw_size` stands before it. -/
theorem sameStream (P : Params) (h16 : 16 ≤ s.inLen.toNat) :
    SameStream (openStream P (ready s)) (openStream P (ready s')) where
  win := rfl
  ip := rfl
  pend := by
    show BitVec.ofNat 32 (16 + payloadLenOf s') = BitVec.ofNat 32 (16 + payloadLenOf s)
    rw [h.payloadLenOf_eq h16]
  ctrl h8 := absurd rfl h8
  bitc := rfl
  bytes a hlo hhi := by
    have hlo' : 16 ≤ a := hlo
    have hhi' : a < (ready s).dec.pend.toNat := hhi
    have hend : payloadLenOf s ≤ s.inLen.toNat - 16 := Nat.min_le_right _ _
    rw [ready_pend h16] at hhi'
    exact h.2 a (by omega) (.inr (by omega))
  status := h.ready_status_eq h16
  out := (outBytes_eq_nil rfl).trans (outBytes_eq_nil rfl).symm

/-- R163: `raw_size` reaches neither `STATUS` nor the output of a compressed container. -/
theorem decompress_lzfu_eq (P : Params) (htag : inLe32 s 8 = tagLzfu) :
    (decompress P s').status = (decompress P s).status ∧ outBytes (decompress P s') = outBytes (decompress P s) := by
  by_cases hk : s.inLen.toNat < 16
  · rw [decompress_short hk, decompress_short (by rw [h.1]; exact hk)]
    exact ⟨rfl, rfl⟩
  have h16 : 16 ≤ s.inLen.toNat := by omega
  have h16' : 16 ≤ s'.inLen.toNat := by rwa [h.1]
  have htag' : inLe32 s' 8 = tagLzfu := by rw [h.inLe32_eq h16 (by omega), htag]
  have hsize := h.compSizeOf_eq h16
  by_cases hsmall : compSizeOf s < 12
  · rw [decompress_small h16 (.inl htag) hsmall, decompress_small h16' (.inl htag') (by rwa [hsize])]
    exact ⟨rfl, rfl⟩
  have h12 : 12 ≤ compSizeOf s := by omega
  have h12' : 12 ≤ compSizeOf s' := by rwa [hsize]
  have hsum : P.cksum (payloadOf s') = inLe32 s' 12 ↔ P.cksum (payloadOf s) = inLe32 s 12 := by
    rw [h.payloadOf_eq h16, h.inLe32_eq h16 (by omega)]
  by_cases hok : P.cksum (payloadOf s) = inLe32 s 12
  · rw [decompress_lzfu h16 h12 htag hok, decompress_lzfu h16' h12' htag' (hsum.2 hok), h.payloadLenOf_eq h16]
    obtain ⟨hstatus, hout, -⟩ := (h.sameStream P h16).run (payloadLenOf s + 1)
    rw [outBytes_finish, outBytes_finish, finish_status, finish_status, hstatus]
    exact ⟨rfl, hout⟩
  · rw [decompress_corrupt h16 h12 htag hok, decompress_corrupt h16' h12' htag' (mt hsum.1 hok)]
    rw [raise_status, raise_status, h.ready_status_eq h16]
    exact ⟨rfl, (outBytes_eq_nil rfl).trans (outBytes_eq_nil rfl).symm⟩

end SameButRawSize

/-- Settles O25: two containers that differ in bytes 4 to 7 alone open the same token stream. -/
theorem rawSizeUnreadOnCompressedPath : Obligations.RawSizeUnreadOnCompressedPath := by
  unfold Obligations.RawSizeUnreadOnCompressedPath
  intro c s s' t t' hlen htag hbytes ht ht'
  obtain rfl := exec_decompress_next ht
  obtain rfl := exec_decompress_next ht'
  exact SameButRawSize.decompress_lzfu_eq ⟨hlen, hbytes⟩ Config.params htag

end Sys2Proof.Machine
end

section
/-!
`COMPRESS` and `COMPRESS.S` whole: the container that each builds, its size, and its reading back (R142, R166, R180,
R181, R196); and that the result of each of the three commands is a function of its input (R252).
-/

namespace Sys2Proof.Machine

/-! ### The container -/

theorem exec_compressS {s : State} (hm : s.inLen.toNat ≤ maxIn) :
    exec .compressS s = .next (compressStored Config.params s) := if_pos hm

theorem exec_compress_refused {s : State} (hm : maxIn < s.inLen.toNat) : exec .compress s = .refused .inputTooLong :=
  if_neg (Nat.not_le.2 hm)

theorem exec_compressS_refused {s : State} (hm : maxIn < s.inLen.toNat) :
    exec .compressS s = .refused .inputTooLong := if_neg (Nat.not_le.2 hm)

/-- `OUT` is the header registers as `HBUILD` encodes them, and then the payload (R143). -/
theorem HoldsContainer.outBytes_eq_encodeHeader {P : Params} {s t : State} {tag : U32} (h : HoldsContainer P s tag t) :
    outBytes t = encodeHeader t.hdr.compSize t.hdr.rawSize t.hdr.compType t.hdr.crc ++ t.enc.payload := by
  rw [h.out, h.hdr]; rfl

/-- A command whose output `bs` was written from the start of `OUT` on has written nothing behind it. -/
theorem read_output_of_outBytes {s t : State} {bs : List Byte} (hout : outBytes t = bs)
    (hwrite : t.output = Memory.writeBytes s.output 0 bs) {a : Nat} (ha : t.outLen ≤ a) :
    Memory.read t.output a = Memory.read s.output a := by
  rw [← length_outBytes, hout] at ha
  rw [hwrite, Memory.read_writeBytes_outside _ _ _ (.inr (by omega))]

theorem compress_output (P : Params) {s : State} (hm : s.inLen.toNat ≤ maxIn) :
    (compress P s).output = Memory.writeBytes s.output 0 (packed P s tagLzfu (encoded P s).payload) := by
  rw [compress_eq P hm]

theorem compressStored_output (P : Params) {s : State} (hm : s.inLen.toNat ≤ maxIn) :
    (compressStored P s).output = Memory.writeBytes s.output 0 (packed P s tagMela (inBytes s)) := by
  rw [compressStored_eq P hm]

/-- Settles O28: the parts are those of `compress_eq`, with the container of `compress_holdsContainer`. -/
theorem compressBuildsTheContainer : Obligations.CompressBuildsTheContainer := by
  unfold Obligations.CompressBuildsTheContainer
  refine fun s => ⟨fun hm => ?_, exec_compress_refused⟩
  have hc := compress_holdsContainer Config.params hm
  obtain ⟨-, hcur, -⟩ := encoded_loop Config.params s
  refine ⟨_, exec_compress hm, ?_, hc.hdr, hc.outBytes_eq_encodeHeader,
    fun a => read_output_of_outBytes (outBytes_compress _ hm) (compress_output _ hm), ?_, ?_, ?_⟩ <;>
    rw [compress_eq Config.params hm]
  exact hcur

/-- Settles O29: the parts are those of `compressStored_eq`. -/
theorem compressStoredBuildsTheContainer : Obligations.CompressStoredBuildsTheContainer := by
  unfold Obligations.CompressStoredBuildsTheContainer
  refine fun s => ⟨fun hm => ?_, exec_compressS_refused⟩
  have hlen := length_inBytes s
  refine ⟨_, exec_compressS hm, ?_,
    fun a => read_output_of_outBytes (outBytes_compressStored _ hm) (compressStored_output _ hm), ?_, ?_⟩
  · rw [outBytes_compressStored Config.params hm, packed, hlen]
  · rw [compressStored_eq Config.params hm, packedHdr, hlen]
  · rw [compressStored_eq Config.params hm]

/-- `OUT_LEN` is the header and the payload. -/
theorem HoldsContainer.outLen_eq {P : Params} {s t : State} {tag : U32} (h : HoldsContainer P s tag t) :
    t.outLen = 16 + t.enc.payload.length := by
  rw [← length_outBytes, h.out, length_packed]

/-- Settles O32: the payload's bound is that of the token loop. -/
theorem compressedSizeIsBounded : Obligations.CompressedSizeIsBounded := by
  unfold Obligations.CompressedSizeIsBounded
  refine fun s t => ⟨fun ht => ?_, fun ht => ?_⟩
  · obtain ⟨hm, rfl⟩ := exec_compress_next ht
    obtain ⟨-, -, -, -, -, hbound⟩ := encoded_loop Config.params s
    refine ⟨(compress_holdsContainer Config.params hm).outLen_eq, ?_⟩
    rw [compress_eq Config.params hm]
    exact hbound
  · obtain ⟨hm, rfl⟩ := exec_compressS_next ht
    rw [(compressStored_holdsContainer Config.params hm).outLen_eq, compressStored_eq Config.params hm]
    exact congrArg (16 + ·) (length_inBytes s)

/-! ### The round trip -/

/-- What a command has put into `OUT` stands in `IN` of another state. -/
theorem inBytes_eq_outBytes {s' t : State} (hlen : s'.inLen.toNat = t.outLen)
    (h : ∀ i < t.outLen, inByte s' i = Memory.read t.output i) : inBytes s' = outBytes t := by
  rw [inBytes, outBytes, hlen]
  refine Memory.readBytes_congr fun i hi => ?_
  rw [Nat.zero_add]; exact h i hi

/-- Settles O33: the decoder follows the encoder's token loop (`encodeLoop_decodes`), and its window with it. -/
theorem roundTripCompressed : Obligations.RoundTripCompressed := by
  unfold Obligations.RoundTripCompressed
  intro c s t s' ht hlen hbytes
  obtain ⟨hm, rfl⟩ := exec_compress_next ht
  have hin : inBytes s' = packed Config.params s tagLzfu (encoded Config.params s).payload := by
    rw [inBytes_eq_outBytes hlen hbytes, outBytes_compress Config.params hm]
  obtain ⟨hstatus, hout, hwin⟩ := decompress_packed Config.params hm hin
  exact ⟨_, exec_decompress c s', hstatus, hout, by rw [hwin, compress_eq Config.params hm]⟩

/-- Settles O34: the stored path copies the payload, which is the input. -/
theorem roundTripStored : Obligations.RoundTripStored := by
  unfold Obligations.RoundTripStored
  intro c s t s' ht hlen hbytes
  obtain ⟨hm, rfl⟩ := exec_compressS_next ht
  have hin : inBytes s' = packed Config.params s tagMela (inBytes s) := by
    rw [inBytes_eq_outBytes hlen hbytes, outBytes_compressStored Config.params hm]
  obtain ⟨hstatus, hout⟩ := decompress_packed_stored Config.params hm hin
  exact ⟨_, exec_decompress c s', hstatus, hout⟩

/-! ### The result is a function of the input -/

/-- The instructions with a slot in `CMD` are the three commands (R97). -/
theorem command_cases {i : Instr} (h : slotOf i = some .command) :
    (∃ c, i = .decompress c) ∨ i = .compress ∨ i = .compressS := by
  cases i <;> cases h
  case decompress c => exact .inl ⟨c, rfl⟩
  case compress => exact .inr (.inl rfl)
  case compressS => exact .inr (.inr rfl)

theorem payloadEnd_le {s : State} (h : 16 ≤ s.inLen.toNat) : 16 + payloadLenOf s ≤ s.inLen.toNat := by
  have hend : payloadLenOf s ≤ s.inLen.toNat - 16 := Nat.min_le_right _ _
  omega

/-- Settles O27: one case for each command, by what the token loops of the decoder and the encoder read. -/
theorem noStateCrossesCommands : Obligations.NoStateCrossesCommands := by
  unfold Obligations.NoStateCrossesCommands
  intro i s s' t t' hi hin ht ht'
  obtain ⟨c, rfl⟩ | rfl | rfl := command_cases hi
  · obtain rfl := exec_decompress_next ht
    obtain rfl := exec_decompress_next ht'
    obtain ⟨hlen, hbytes⟩ := hin
    refine decompress_congr Config.params hlen fun h16 i hi => hbytes i ?_
    have hend := payloadEnd_le h16
    omega
  · obtain ⟨hm, rfl⟩ := exec_compress_next ht
    obtain ⟨-, rfl⟩ := exec_compress_next ht'
    exact compress_congr Config.params hm hin
  · obtain ⟨hm, rfl⟩ := exec_compressS_next ht
    obtain ⟨-, rfl⟩ := exec_compressS_next ht'
    exact compressStored_congr Config.params hm hin

end Sys2Proof.Machine
end

section
/-!
The matcher and the token buffer: what `MATCH` finds, its lock-step with a decoder, and the operations that buffer and
flush tokens (R186 to R195).
-/

namespace Sys2Proof.Machine

/-! ### What `MATCH` finds -/

/-- The only way past a guard that faults. -/
theorem next_of_faultGuard {c : Prop} [Decidable c] {t u : State} {r : Fault}
    (h : (if c then .next u else .fault r : Host.Outcome State Fault Refusal) = .next t) : c ∧ t = u := by
  split at h
  case isTrue hc => exact ⟨hc, (Host.Outcome.next.inj h).symm⟩
  case isFalse => cases h

theorem exec_matchOp_next {s t : State} (h : exec .matchOp s = .next t) :
    s.enc.cur.toNat < s.inLen.toNat ∧ t = doMatch s := by
  obtain ⟨hcur, ht⟩ := next_of_faultGuard h
  exact ⟨of_decide_eq_true hcur, ht⟩

theorem exec_matchOp_fault {s : State} (h : s.inLen.toNat ≤ s.enc.cur.toNat) :
    exec .matchOp s = .fault .inputOutOfRange := by
  have hout : ¬ curInRange s = true := by simpa [curInRange] using h
  exact if_neg hout

/-- Settles O35: these are the first facts of R187 about the end of the search. -/
theorem matchAppendsItsLength : Obligations.MatchAppendsItsLength := by
  unfold Obligations.MatchAppendsItsLength
  refine fun s => ⟨fun hcur => ?_, exec_matchOp_fault⟩
  obtain ⟨hmax, hleft, hwin, hoff, hdi, -⟩ := doMatch_facts s
  exact ⟨_, exec_matchOp hcur, hmax, hleft, hwin, hoff, rfl, hdi, rfl⟩

/-- Settles O37: the scan keeps it for the best match so far. -/
theorem matchIsReproducible : Obligations.MatchIsReproducible := by
  unfold Obligations.MatchIsReproducible
  intro s t ht
  obtain ⟨-, rfl⟩ := exec_matchOp_next ht
  obtain ⟨-, -, -, -, -, hcopy, -⟩ := doMatch_facts s
  exact hcopy

/-- A match begins with a byte of the window below the old `WO`. -/
theorem doMatch_first {s : State} (h : 1 ≤ (doMatch s).enc.l.toNat) :
    (doMatch s).enc.moff.toNat < s.win.wo.toNat ∧
      s.win.read (doMatch s).enc.moff.toNat = inByte s s.enc.cur.toNat := by
  obtain ⟨-, -, -, hoff, -, hcopy, -⟩ := doMatch_facts s
  exact ⟨hoff h, hcopy 0 h⟩

/-- Settles O38: a match of any length has its first byte below `WO`, and without one the scan has passed every position
there. -/
theorem matchFindsTheFirstByte : Obligations.MatchFindsTheFirstByte := by
  unfold Obligations.MatchFindsTheFirstByte
  intro s t ht
  obtain ⟨hcur, rfl⟩ := exec_matchOp_next ht
  obtain ⟨-, -, -, -, -, -, hnone, hone⟩ := doMatch_facts s
  have zero (h : (doMatch s).enc.l = 0) : (doMatch s).enc.l.toNat = 0 := by rw [h]; rfl
  refine ⟨⟨fun h => (hnone (zero h)).2 hcur, fun habsent => ?_⟩, fun h => ?_, fun h => ?_⟩
  · by_contra hl
    have hpos : 1 ≤ (doMatch s).enc.l.toNat := Nat.pos_of_ne_zero fun h0 => hl (BitVec.eq_of_toNat_eq h0)
    obtain ⟨hbelow, hread⟩ := doMatch_first hpos
    exact habsent _ hbelow hread
  · exact BitVec.eq_of_toNat_eq (hnone (zero h)).1
  · have hl : (doMatch s).enc.l.toNat = 1 := by rw [h]; rfl
    exact ⟨(doMatch_first hl.ge).2, hone hl⟩

/-! ### The lock-step of encoder and decoder -/

/-- The offset of a match fits its field (R100, R187). -/
theorem setWidth_moff {s : State} (h : 1 ≤ (doMatch s).enc.l.toNat) :
    ((doMatch s).enc.moff.setWidth 12).toNat = (doMatch s).enc.moff.toNat := by
  obtain ⟨hbelow, -⟩ := doMatch_first h
  have hwo := s.win.wo.isLt
  rw [BitVec.toNat_setWidth]; omega

/-- The length of a match that is a token is its length code and 2 (R100). -/
theorem toNat_lengthCode {l : BitVec 5} (hmin : 2 ≤ l.toNat) (hmax : l.toNat ≤ 17) :
    ((l - 2).setWidth 4).toNat = l.toNat - 2 := by
  rw [BitVec.toNat_setWidth, BitVec.toNat_sub, show (2 : BitVec 5).toNat = 2 from rfl]
  omega

/-- A decoder with the encoder's window copies the matched input. -/
theorem copyList_doMatch {s : State} (h : 2 ≤ (doMatch s).enc.l.toNat) :
    copyList s.win ((doMatch s).enc.moff.setWidth 12).toNat ((((doMatch s).enc.l - 2).setWidth 4).toNat + 2) =
      Memory.readBytes s.input s.enc.cur.toNat (doMatch s).enc.l.toNat := by
  obtain ⟨hmax, -, -, -, -, hcopy, -⟩ := doMatch_facts s
  have hlen : (((doMatch s).enc.l - 2).setWidth 4).toNat + 2 = (doMatch s).enc.l.toNat := by
    rw [toNat_lengthCode h hmax]; omega
  rw [setWidth_moff (by omega), hlen, ← inputRun_matchInput]
  refine copyList_of_reproduced fun k hk => ?_
  rw [inputRun_matchInput]; exact hcopy k hk

/-- The offset of a match is not `WO`, so its token is not taken for `END` (R101). -/
theorem setWidth_moff_ne_wo {s : State} (h : 1 ≤ (doMatch s).enc.l.toNat) :
    (doMatch s).enc.moff.setWidth 12 ≠ s.win.wo := by
  intro heq
  have hoff := setWidth_moff h
  obtain ⟨hbelow, -⟩ := doMatch_first h
  rw [heq] at hoff
  omega

/-- Without a match to refer to, the window after `MATCH` and `EMITLIT` has gained the literal's byte, from one of the
two (C3). -/
theorem emitLit_doMatch_win {s : State} (h : (doMatch s).enc.l.toNat < 2) :
    (emitLit (doMatch s)).win = s.win.append (inByte s s.enc.cur.toNat) := by
  obtain ⟨-, -, hwin, -⟩ := doMatch_facts s
  unfold emitLit
  by_cases h0 : (doMatch s).enc.l = 0
  · simp only [h0, if_true]
    rw [dictAppend_win, hwin, h0]; rfl
  · simp only [h0, if_false]
    have hne : (doMatch s).enc.l.toNat ≠ 0 := fun he => h0 (BitVec.eq_of_toNat_eq he)
    rw [hwin, show (doMatch s).enc.l.toNat = 1 by omega]; rfl

/-- Settles O39: a reference by the reproduced copy, a literal by which of the two operations appends it. -/
theorem encoderAndDecoderInLockStep : Obligations.EncoderAndDecoderInLockStep := by
  unfold Obligations.EncoderAndDecoderInLockStep
  intro s t d ht hwin
  obtain ⟨hcur, rfl⟩ := exec_matchOp_next ht
  constructor
  · intro hl
    obtain ⟨-, -, hmatchWin, -⟩ := doMatch_facts s
    have hne := setWidth_moff_ne_wo (s := s) (by omega)
    have hcopy := copyList_doMatch hl
    refine ⟨decodeToken_of_ne _ (by rwa [hwin]), _, rfl, ?_, ?_⟩
    · rw [ref_produce, hwin, hcopy, hmatchWin]
      exact congrArg (Window.appendAll · _) hwin
    · rw [ref_produce, outBytes_produce, hwin, hcopy]
  · intro hl hroom
    refine ⟨lit (inByte s s.enc.cur.toNat) d, emitLit (doMatch s), exec_emitlit hroom hcur, rfl, ?_, outBytes_lit _ d⟩
    rw [lit_win, hwin, emitLit_doMatch_win hl]

/-! ### Buffering tokens -/

theorem groupHasRoom_eq_false {s : State} (h : 8 ≤ s.enc.ebit.toNat) : groupHasRoom s = false :=
  decide_eq_false (Nat.not_lt.2 h)

theorem groupHasRoom_eq_true {s : State} (h : s.enc.ebit.toNat < 8) : groupHasRoom s = true := decide_eq_true h

theorem exec_emitref_full {s : State} (h : 8 ≤ s.enc.ebit.toNat) : exec .emitref s = .fault .groupFull :=
  if_pos (by simp [groupHasRoom_eq_false h])

theorem exec_emitlit_full {s : State} (h : 8 ≤ s.enc.ebit.toNat) : exec .emitlit s = .fault .groupFull :=
  if_pos (by simp [groupHasRoom_eq_false h])

theorem exec_emitend_full {s : State} (h : 8 ≤ s.enc.ebit.toNat) : exec .emitend s = .fault .groupFull :=
  if_neg (by simp [groupHasRoom_eq_false h])

theorem exec_emitref_free {s : State} (hroom : s.enc.ebit.toNat < 8)
    (hl : s.enc.l.toNat < 2 ∨ 17 < s.enc.l.toNat) : exec .emitref s = .next (emitRefFree s) := by
  show execEmitref s = _
  have hlen : ¬ (minMatch ≤ s.enc.l.toNat ∧ s.enc.l.toNat ≤ maxMatch) := by
    simp only [minMatch, maxMatch]; omega
  rw [execEmitref, if_neg (not_not.2 (groupHasRoom_eq_true hroom)), if_neg hlen]

theorem exec_emitlit_pastInput {s : State} (hroom : s.enc.ebit.toNat < 8) (hcur : s.inLen.toNat ≤ s.enc.cur.toNat) :
    exec .emitlit s = .fault .inputOutOfRange := by
  show execEmitlit s = _
  have hout : ¬ curInRange s = true := by simpa [curInRange] using hcur
  rw [execEmitlit, if_neg (not_not.2 (groupHasRoom_eq_true hroom)), if_neg hout]

/-- A token's value by its fields (R96, R100). -/
theorem toNat_mkToken (off : Pos) (lc : LenCode) : (mkToken off lc).toNat = off.toNat * 16 + lc.toNat := by
  have hlc := lc.isLt
  rw [mkToken, BitVec.toNat_append, Nat.shiftLeft_eq, Nat.mul_comm, ← Nat.two_pow_add_eq_or_of_lt hlc, Nat.mul_comm]

/-- The bits of the offset stand above those of the length code, and nothing that is or-ed to them clears one. -/
theorem getLsbD_mkToken_or (off : Pos) (lc : LenCode) (x : Token) {j : Nat} (h : off.getLsbD j = true) :
    (mkToken off lc ||| x).getLsbD (j + 4) = true := by
  rw [BitVec.getLsbD_or, getLsbD_mkToken, if_neg (by omega), Nat.add_sub_cancel, h, Bool.true_or]

/-- The control bits after a reference or an end marker: bit `EBIT` set, the others as before. -/
theorem pushToken_sets_ectrl (bytes : List Byte) (e : EncRegs) (j : Nat) (hj : j < 8) :
    (pushToken bytes true e).ectrl.getLsbD j = (e.ectrl.getLsbD j || decide (j = e.ebit.toNat)) := by
  rw [pushToken_ectrl _ _ _ _ hj, Bool.true_and]

theorem pushReference_ectrl (tok : Token) (s : State) (j : Nat) (hj : j < 8) :
    (pushReference tok s).enc.ectrl.getLsbD j = (s.enc.ectrl.getLsbD j || decide (j = s.enc.ebit.toNat)) :=
  pushToken_sets_ectrl (bytesBe16 tok) s.enc j hj

theorem emitEnd_ectrl (s : State) (j : Nat) (hj : j < 8) :
    (emitEnd s).enc.ectrl.getLsbD j = (s.enc.ectrl.getLsbD j || decide (j = s.enc.ebit.toNat)) :=
  pushToken_sets_ectrl (bytesBe16 (mkToken s.win.wo 0)) s.enc j hj

/-- Settles O40: the same registers change for every `L`; the token is of `emitRef` or, where `L` has no length code,
of `emitRefFree`. -/
theorem emitReferenceToken : Obligations.EmitReferenceToken := by
  unfold Obligations.EmitReferenceToken
  refine fun s => ⟨fun hroom => ?_, exec_emitref_full⟩
  by_cases hl : 2 ≤ s.enc.l.toNat ∧ s.enc.l.toNat ≤ 17
  · obtain ⟨hmin, hmax⟩ := hl
    refine ⟨emitRef s, _, _, exec_emitref hroom hmin hmax, rfl, fun _ _ => ⟨rfl, ?_⟩, fun hother => by omega,
      pushReference_ectrl _ s, rfl⟩
    rw [be16_bytes, toNat_mkToken, toNat_lengthCode hmin hmax, BitVec.toNat_setWidth]
  · refine ⟨emitRefFree s, _, _, exec_emitref_free hroom (by omega), rfl, fun hmin hmax => absurd ⟨hmin, hmax⟩ hl,
      fun _ => ⟨rfl, fun j hj hbit => ?_⟩, pushReference_ectrl _ s, rfl⟩
    rw [be16_bytes]
    exact getLsbD_mkToken_or _ _ _ (by simpa [hj] using hbit)

/-- What `EMITLIT` leaves in the encoder's registers, whether it appends its byte or not. -/
theorem emitLit_enc (s : State) :
    (emitLit s).enc = { s.enc with
      tokbuf := s.enc.tokbuf ++ [inByte s s.enc.cur.toNat], toklen := s.enc.toklen + 1
      ebit := s.enc.ebit + 1, cur := s.enc.cur + 1 } := by
  unfold emitLit; split_ifs <;> rfl

theorem emitLit_frame (s : State) : emitLit s = { s with win := (emitLit s).win, enc := (emitLit s).enc } := by
  unfold emitLit; split_ifs <;> rfl

theorem emitLit_win (s : State) :
    (emitLit s).win = if s.enc.l = 0 then s.win.append (inByte s s.enc.cur.toNat) else s.win := by
  unfold emitLit; split_ifs <;> rfl

/-- Settles O41: whether the window gains the byte turns on `L` = 0. -/
theorem emitLiteralToken : Obligations.EmitLiteralToken := by
  unfold Obligations.EmitLiteralToken
  refine fun s => ⟨fun hroom hcur => ?_, exec_emitlit_full, exec_emitlit_pastInput⟩
  refine ⟨emitLit s, exec_emitlit hroom hcur, emitLit_enc s, fun hl => ?_, fun hl => ?_, emitLit_frame s⟩
  · rw [emitLit_win, if_neg hl]
  · rw [emitLit_win, if_pos hl]
    exact ⟨rfl, Window.read_append s.win _⟩

/-- Settles O43: the end marker is a token of offset `WO` and length code 0. -/
theorem emitEndMarker : Obligations.EmitEndMarker := by
  unfold Obligations.EmitEndMarker
  refine fun s => ⟨fun hroom => ?_, exec_emitend_full⟩
  refine ⟨emitEnd s, _, _, exec_emitend hroom, rfl, ?_, emitEnd_ectrl s, rfl⟩
  rw [be16_bytes, toNat_mkToken]; rfl

/-- Settles O42: the control byte and the buffered tokens are appended in that order. -/
theorem flushWritesTheGroup : Obligations.FlushWritesTheGroup := by
  unfold Obligations.FlushWritesTheGroup
  intro s
  rw [List.append_assoc]; rfl

end Sys2Proof.Machine
end

section
/-!
The header codec, the dictionary read and the checksum guard executed by themselves, and the reference values of the
two open parameters (R120 to R124, R132, R134, R140, R142).
-/

namespace Sys2Proof.Machine

/-! ### `DREAD` -/

/-- Settles O45: the read reduces its offset. -/
theorem dictReadReducesItsOffset : Obligations.DictReadReducesItsOffset := by
  unfold Obligations.DictReadReducesItsOffset
  intro o s
  have hmod : exec (.dread (o % 4096)) s = exec (.dread o) s := by
    simp only [exec, execDread, Window.read_mod]
  have hadd : exec (.dread (o + 4096)) s = exec (.dread o) s := by
    simp only [exec, execDread, s.win.read_congr (Nat.add_mod_right o 4096)]
  exact ⟨_, rfl, hmod, hadd, rfl, rfl⟩

/-! ### `HPARSE` and `HBUILD` -/

/-- A field of the header holds the four bytes it was read from (R63). -/
theorem bytesLe32_inLe32 (s : State) (a : Nat) : bytesLe32 (inLe32 s a) = Memory.readBytes s.input a 4 :=
  bytesLe32_le32 _ _ _ _

/-- Settles O47: the four fields are the sixteen bytes in order. -/
theorem headerParse : Obligations.HeaderParse := by
  unfold Obligations.HeaderParse
  refine fun s => ⟨fun hshort => ?_, fun h16 => ⟨hparse s, rfl, ?_⟩⟩
  · show Host.Outcome.next (hparse s) = _
    rw [hparse_short hshort]; rfl
  · rw [hparse_ok h16]
    refine ⟨?_, rfl⟩
    simp only [bytesLe32_inLe32]
    rfl

theorem compSizeFits_false {s : State} (h : 2 ^ 32 ≤ s.enc.payload.length + 12) : compSizeFits s = false :=
  decide_eq_false (Nat.not_lt.2 h)

theorem toNat_builtCompSize {s : State} (h : s.enc.payload.length + 12 < 2 ^ 32) :
    (builtCompSize s).toNat = s.enc.payload.length + 12 := by
  rw [builtCompSize_fits h, BitVec.toNat_ofNat, Nat.mod_eq_of_lt h]

/-! The fields of `hbuild_eq`. -/

theorem hbuild_hdr (tag : U32) (s : State) : (hbuild tag s).hdr = builtHdr tag s := by rw [hbuild_eq]
theorem hbuild_output (tag : U32) (s : State) :
    (hbuild tag s).output = Memory.writeBytes s.output s.outLen (builtBytes tag s) := by rw [hbuild_eq]

theorem hbuild_outLen (tag : U32) (s : State) : (hbuild tag s).outLen = s.outLen + (builtBytes tag s).length := by
  rw [hbuild_eq]

theorem hbuild_freeIndex (tag : U32) (s : State) :
    (hbuild tag s).freeIndex = if compSizeFits s then s.freeIndex else s.freeIndex + 1 := by rw [hbuild_eq]

theorem hbuild_frame (tag : U32) (s : State) :
    hbuild tag s =
      { s with
        hdr := (hbuild tag s).hdr, hdrDefined := true, output := (hbuild tag s).output
        outLen := (hbuild tag s).outLen, freeIndex := (hbuild tag s).freeIndex } := by
  rw [hbuild_hdr, hbuild_output, hbuild_outLen, hbuild_freeIndex]
  exact hbuild_eq tag s

/-- Settles O48: only `COMP_SIZE` and the counter of free values turn on the payload's length. -/
theorem headerBuild : Obligations.HeaderBuild := by
  unfold Obligations.HeaderBuild
  intro tag s
  refine ⟨hbuild tag s, rfl, fun hfits => ⟨?_, ?_⟩, fun hlong => ?_, ?_, ?_, ?_, fun a ha => ?_, hbuild_frame tag s⟩
  · rw [hbuild_hdr]; exact toNat_builtCompSize hfits
  · rw [hbuild_freeIndex, if_pos (compSizeFits_iff.2 hfits)]
  · rw [hbuild_freeIndex, compSizeFits_false hlong]; rfl
  · rw [hbuild_hdr]; rfl
  · rw [outBytes_of (hbuild_output tag s) (hbuild_outLen tag s), hbuild_hdr]
    simp only [builtBytes, encodeHeader, List.append_assoc]
    rfl
  · rw [hbuild_outLen, length_builtBytes, Nat.add_assoc]
  · rw [hbuild_outLen] at ha
    rw [hbuild_output, Memory.read_writeBytes_outside _ _ _ ha]

/-! ### `CKSUM`, `CKCHK`, `CKGEN` -/

theorem exec_ckchk {s : State} (h : s.dec.pend.toNat ≤ s.inLen.toNat) :
    exec .ckchk s = .next (if Config.cksum (payloadBytes s) = s.hdr.crc then s else raise .corruptData s) := by
  have hexec : exec .ckchk s = .next (if ckMismatch Config.params s.hdr.crc s then raise .corruptData s else s) :=
    if_pos (payloadInRange_of_le h)
  have hsum : Config.params.cksum = Config.cksum := rfl
  rw [hexec, ckMismatch, hsum]
  by_cases hcrc : Config.cksum (payloadBytes s) = s.hdr.crc
  · rw [if_pos hcrc, if_neg (by simp [hcrc])]
  · rw [if_neg hcrc, if_pos (by simp [hcrc])]

/-- Settles O49: only `CKCHK` has a test, and only it reads the input. -/
theorem checksumGuard : Obligations.ChecksumGuard := by
  unfold Obligations.ChecksumGuard
  exact fun bytes s => ⟨rfl, exec_ckchk, fun h => if_neg (payloadInRange_of_lt h), rfl⟩

/-! ### A flipped bit of the payload -/

/-- Reading over a byte that was written. -/
theorem readBytes_write (m : Memory) {a b : Nat} (n : Nat) (v : Byte) (hab : a ≤ b) :
    Memory.readBytes (Memory.write m b v) a n = (Memory.readBytes m a n).set (b - a) v := by
  apply List.ext_getElem
  · simp
  · intro i h1 h2
    simp only [Memory.getElem_readBytes, Memory.read_write, List.getElem_set]
    exact if_congr (by omega) rfl rfl

/-- A state with one bit of one byte of `IN` flipped. -/
def flipBit (s : State) (a j : Nat) : State :=
  { s with input := Memory.write s.input a (inByte s a ^^^ (1#8 <<< j)) }

section
variable {s : State} {a j : Nat} (ha : 16 ≤ a)
include ha

/-- The header stands before the payload. -/
theorem inLe32_flipBit {i : Nat} (hi : i + 4 ≤ 16) : inLe32 (flipBit s a j) i = inLe32 s i := by
  have hb : ∀ k < 16, inByte (flipBit s a j) k = inByte s k :=
    fun k hk => Memory.read_write_ne _ _ (by omega)
  unfold inLe32
  rw [hb i (by omega), hb (i + 1) (by omega), hb (i + 2) (by omega), hb (i + 3) (by omega)]

theorem compSizeOf_flipBit : compSizeOf (flipBit s a j) = compSizeOf s := by
  unfold compSizeOf; rw [inLe32_flipBit ha (by omega)]

theorem payloadLenOf_flipBit : payloadLenOf (flipBit s a j) = payloadLenOf s := by
  unfold payloadLenOf; rw [compSizeOf_flipBit ha]; rfl

theorem payloadOf_flipBit (hlen : a - 16 < (payloadOf s).length) :
    payloadOf (flipBit s a j) = (payloadOf s).set (a - 16) ((payloadOf s)[a - 16] ^^^ (1#8 <<< j)) := by
  have hbyte : (payloadOf s)[a - 16] = inByte s a := by
    simp only [payloadOf, Memory.getElem_readBytes, Nat.add_sub_cancel' ha]
    rfl
  rw [hbyte, payloadOf, payloadLenOf_flipBit ha]
  exact readBytes_write s.input _ _ ha

end

/-- Settles O50: the header is the same and the payload differs in one bit, so its checksum is another. -/
theorem flippedPayloadBitIsCaught : Obligations.FlippedPayloadBitIsCaught := by
  unfold Obligations.FlippedPayloadBitIsCaught
  intro P s a j hdetects h16 htag h12 hsum ha hend hj
  have hlen : a - 16 < (payloadOf s).length := by rw [payloadOf, Memory.length_readBytes]; omega
  have hcorrupt : P.cksum (payloadOf (flipBit s a j)) ≠ inLe32 (flipBit s a j) 12 := by
    rw [payloadOf_flipBit ha hlen, inLe32_flipBit ha (by omega), ← hsum]
    exact hdetects _ _ _ hlen hj
  constructor
  · rw [decompress_lzfu h16 h12 htag hsum]; rfl
  · show (decompress P (flipBit s a j)).status.err = _
    have htag' : inLe32 (flipBit s a j) 8 = tagLzfu := by rwa [inLe32_flipBit ha (by omega)]
    have h12' : 12 ≤ compSizeOf (flipBit s a j) := by rwa [compSizeOf_flipBit ha]
    rw [decompress_corrupt (s := flipBit s a j) h16 h12' htag' hcorrupt]
    rfl

/-! ### The reference values -/

/-- Settles O51: each value is computed. -/
theorem referenceCheckValues : Obligations.ReferenceCheckValues := by
  unfold Obligations.ReferenceCheckValues
  decide +kernel

/-- One byte of the reference checksum tells two bytes apart. -/
theorem crcByte_inj_right {c : U32} {x y : Byte} (h : crcByte c x = crcByte c y) : x = y := by
  rw [crcByte_eq, crcByte_eq] at h
  have hwide : x.setWidth 32 = y.setWidth 32 := (BitVec.xor_right_inj c).1 (sh8_inj _ _ h)
  have hnarrow := congrArg (BitVec.setWidth 8) hwide
  simpa using hnarrow

theorem xor_bit_ne (x : Byte) {j : Nat} (hj : j < 8) : x ^^^ (1#8 <<< j) ≠ x := by
  intro h
  have hbit := congrArg (BitVec.getLsbD · j) h
  simp [hj] at hbit

/-- Settles O52: up to the byte that differs the register is the same, that byte makes it another, and each byte after it
is injective in the register. -/
theorem referenceChecksumDetectsSingleBit : Obligations.ReferenceChecksumDetectsSingleBit := by
  unfold Obligations.ReferenceChecksumDetectsSingleBit DetectsSingleBit
  intro p i j hi hj h
  have hp : p = p.take i ++ p[i] :: p.drop (i + 1) := by simp
  have hset : p.set i (p[i] ^^^ (1#8 <<< j)) = p.take i ++ (p[i] ^^^ (1#8 <<< j)) :: p.drop (i + 1) :=
    List.set_eq_take_append_cons_drop.trans (if_pos hi)
  unfold cksumRef at h
  rw [hset, List.foldl_append, List.foldl_cons] at h
  conv at h => rhs; rw [hp, List.foldl_append, List.foldl_cons]
  exact xor_bit_ne _ hj (crcByte_inj_right (foldl_inj _ _ _ h))

end Sys2Proof.Machine
end

section
/-!
`STATUS` and power-on, and what the host does between commands (R32 to R40, R220, R254 to R256).
-/

namespace Sys2Proof.Machine

/-! ### The `STATUS` word -/

/-- The word is its fields side by side (R34). -/
theorem fields_of_word : ∀ (state err : BitVec 2) (endSeen short : Bool),
    let word : Byte := 0#2 ++ BitVec.ofBool short ++ BitVec.ofBool endSeen ++ err ++ state
    word.extractLsb' 0 2 = state ∧ word.extractLsb' 2 2 = err ∧ word.getLsbD 4 = endSeen ∧ word.getLsbD 5 = short ∧
      word.extractLsb' 6 2 = 0 := by
  decide

/-- Settles O53: the fields of the word, and the number of each `STATE` and `ERR`. -/
theorem statusWordLayout : Obligations.StatusWordLayout := by
  unfold Obligations.StatusWordLayout
  intro st
  obtain ⟨hstate, herr, hend, hshort, hhigh⟩ := fields_of_word st.state.code st.errCode st.endSeen st.short
  refine ⟨?_, ?_, hend, hshort, hhigh⟩
  · rw [Status.word, hstate]
    cases st.state <;> rfl
  · rw [Status.word, herr, Status.errCode]
    cases st.err with
    | none => rfl
    | some e => cases e <;> rfl

/-- Settles O54: the reset state is idle, with every field of `STATUS` at 0. -/
theorem powerOnState : Obligations.PowerOnState := by
  unfold Obligations.PowerOnState
  exact ⟨rfl, rfl, rfl⟩

/-! ### The host's write of `CMD` -/

theorem hostWriteCmd_reserved {v : Byte} {s : State} (h : hostTurn s = true) (hres : v &&& 0xFC ≠ 0) :
    hostWriteCmd v s = .refused .reservedCommand := by
  simp only [hostWriteCmd, hostMove_turn h, decodeCmd_reserved v hres]

theorem hostWriteCmd_ok {v : Byte} {s : State} {i : Instr} (h : hostTurn s = true) (hcmd : decodeCmd v = .ok i) :
    hostWriteCmd v s = .next (placeCommand v s) := by
  simp only [hostWriteCmd, hostMove_turn h, hcmd]

/-- The step after the write runs the command as if the write had changed nothing but `CMD`: the command's first line is
the same (R38). -/
theorem step_placeCommand {v : Byte} {s : State} {i : Instr} (h : hostTurn s = true) (hcmd : decodeCmd v = .ok i) :
    step (placeCommand v s) = exec i { s with cmd := v } := by
  obtain ⟨hslot, -⟩ := decodeCmd_encode hcmd
  obtain ⟨hidle, -⟩ := hostTurn_iff.1 h
  rw [step_command rfl hcmd]
  refine exec_of_startCommand hslot ?_
  simp only [startCommand, placeCommand, hidle]

theorem hostReadStatus_placeCommand (v : Byte) (s : State) : hostReadStatus (placeCommand v s) = 0x01 := by
  rw [hostReadStatus, placeCommand_status]; rfl

/-- Settles O55: by the reserved bits of the byte. -/
theorem hostWriteStartsTheCommand : Obligations.HostWriteStartsTheCommand := by
  unfold Obligations.HostWriteStartsTheCommand
  refine fun v s => ⟨hostWriteCmd_reserved, fun hturn hres => ?_, hostMove_running⟩
  have hcmd := decodeCmd_fields v hres
  exact ⟨placeCommand v s, _, hostWriteCmd_ok hturn hcmd, hcmd, hostReadStatus_placeCommand v s, rfl, rfl,
    step_placeCommand hturn hcmd⟩

/-! ### The host's writes of `IN` and `IN_LEN` -/

theorem hostLoad_ok {bytes : List Byte} {s : State} (h : hostTurn s = true) (hlen : bytes.length < 2 ^ 32) :
    hostLoad bytes s =
      .next { s with input := Memory.writeBytes s.input 0 bytes, inLen := BitVec.ofNat 32 bytes.length } := by
  rw [hostLoad, hostMove_turn h, if_pos hlen]

theorem hostLoad_refused {bytes : List Byte} {s : State} (h : hostTurn s = true) (hlen : 2 ^ 32 ≤ bytes.length) :
    hostLoad bytes s = .refused .inputTooLong := by
  rw [hostLoad, hostMove_turn h, if_neg (Nat.not_lt.2 hlen)]

theorem toNat_inLen_of_length {bytes : List Byte} (hlen : bytes.length < 2 ^ 32) :
    (BitVec.ofNat 32 bytes.length).toNat = bytes.length :=
  (BitVec.toNat_ofNat _ _).trans (Nat.mod_eq_of_lt hlen)

/-- Settles O56: a write is read back, and a load is its writes in order. -/
theorem hostLoadsTheInput : Obligations.HostLoadsTheInput := by
  unfold Obligations.HostLoadsTheInput
  refine fun s => ⟨fun hturn => ⟨fun a b => ?_, fun n => hostMove_turn hturn, fun bytes =>
    ⟨fun hlen => ?_, hostLoad_refused hturn⟩⟩,
    fun hrun a b n bytes => ⟨hostMove_running hrun, hostMove_running hrun, hostMove_running hrun⟩⟩
  · exact ⟨_, hostMove_turn hturn, Memory.read_write_same s.input a b, fun i => Memory.read_write_ne s.input b, rfl⟩
  · have hn := toNat_inLen_of_length hlen
    refine ⟨_, hostLoad_ok hturn hlen, ?_, hn, fun i hi => ?_, rfl⟩
    · rw [inBytes, hn]
      exact Memory.readBytes_writeBytes s.input 0 bytes
    · exact Memory.read_writeBytes_outside s.input 0 bytes (.inr (by omega))

/-! ### The host's reads -/

theorem hostTurn_of_command {i : Instr} {s t : State} (hi : slotOf i = some .command) (ht : exec i s = .next t) :
    hostTurn t = true ∧ t.status.state ≠ .idle := by
  obtain ⟨hidle, hstate, -⟩ := command_ends hi ht
  rw [hostTurn_iff]
  obtain h | h := hstate <;> rw [h] <;> exact ⟨⟨hidle, by decide⟩, by decide⟩

/-- The header registers describe a container after any command but a `DECOMPRESS` of fewer than 16 bytes (U6). -/
theorem hdrDefined_of_command {i : Instr} {s t : State} (hi : slotOf i = some .command) (ht : exec i s = .next t)
    (h : (∀ c, i ≠ .decompress c) ∨ 16 ≤ s.inLen.toNat) : t.hdrDefined = true := by
  obtain ⟨-, -, hdef⟩ := command_ends hi ht
  rw [← Bool.not_eq_false, hdef]
  rintro ⟨⟨c, hc⟩, hshort⟩
  exact h.elim (fun hno => hno c hc) (by omega)

/-- Settles O57: the three reads share one guard. -/
theorem hostReadsWhatIsDefined : Obligations.HostReadsWhatIsDefined := by
  unfold Obligations.HostReadsWhatIsDefined
  refine ⟨fun s i h => ?_, fun s i h hidle => ?_, fun s i h hi => ?_, fun i s t hi ht => ?_⟩
  · exact ⟨hostRead_running h, hostRead_running h, hostRead_running h⟩
  · exact ⟨hostRead_none h (.inl hidle), hostRead_none h (.inl hidle), hostRead_none h (.inl hidle)⟩
  · exact hostRead_none h (.inr (decide_eq_false (Nat.not_lt.2 hi)))
  · obtain ⟨hturn, hstate⟩ := hostTurn_of_command hi ht
    refine ⟨hturn, hostRead_ok hturn hstate, fun a ha => ?_, fun hdec hshort => ?_, fun h => ?_⟩
    · rw [hostReadOut, decide_eq_true ha, hostRead_ok hturn hstate]
    · obtain ⟨-, -, hdef⟩ := command_ends hi ht
      exact hostRead_none hturn (.inr (hdef.2 ⟨hdec, hshort⟩))
    · rw [hostReadHeader, hdrDefined_of_command hi ht h, hostRead_ok hturn hstate]

end Sys2Proof.Machine
end

section
/-!
The state invariant: it holds after power-on, and the host's moves and the engine's steps keep it (R34, R35, R256).
-/

namespace Sys2Proof.Machine

/-- Settles O59: each clause is about the fixed reset values. -/
theorem resetMeetsTheInvariant : Obligations.ResetMeetsTheInvariant := by
  unfold Obligations.ResetMeetsTheInvariant
  constructor
  case dictBounded => exact fun c hc => nomatch hc
  all_goals decide

/-! ### The host's moves -/

theorem hostMove_next {r : Host.Outcome State Fault Refusal} {s t : State} (h : hostMove r s = .next t) :
    hostTurn s = true ∧ r = .next t := by
  by_cases hturn : hostTurn s = true
  · exact ⟨hturn, by rwa [hostMove_turn hturn] at h⟩
  · rw [hostMove_running (by simpa using hturn)] at h; cases h

/-- Between commands the input buffer and its length are the host's (R256). -/
theorem inv_setInput {s : State} (h : State.Inv s) (hturn : hostTurn s = true) {m : Memory}
    (hm : Memory.wf m = true) (n : U32) : State.Inv { s with input := m, inLen := n } := by
  obtain ⟨hidle, -⟩ := hostTurn_iff.1 hturn
  exact { h with
    inputWf := hm
    streamRange := fun hs => by rw [show s.activity = .stream from hs] at hidle; cases hidle }

/-- A byte that the decoder takes has its reserved bits 0 (R32). -/
theorem reserved_of_decodeCmd {v : Byte} {i : Instr} (h : decodeCmd v = .ok i) : v.extractLsb' 2 6 = 0 := by
  by_contra hne
  rw [decodeCmd, if_pos hne] at h
  cases h

/-- A written command has an empty output, no error and no flag, and is running (R34, R35, R256). -/
theorem inv_placeCommand {s : State} {v : Byte} (h : State.Inv s) (hv : v.extractLsb' 2 6 = 0) :
    State.Inv (placeCommand v s) where
  inputWf := h.inputWf
  outputWf := h.outputWf
  dictWf := h.dictWf
  dictBounded := h.dictBounded
  errIffError := by simp
  errorNoOutput := by simp
  busyIffRunning := by simp
  headerFresh := by simp
  streamRange := by simp
  cmdReserved := hv
  bitcRange := h.bitcRange
  ebitRange := h.ebitRange
  toklenIsLength := h.toklenIsLength
  tokbufFits := h.tokbufFits

/-- Settles O58: a move happens between commands, and writes the input or starts a command. -/
theorem hostMovesKeepTheInvariant : Obligations.HostMovesKeepTheInvariant := by
  unfold Obligations.HostMovesKeepTheInvariant
  refine fun s t h => ⟨fun a b ht => ?_, fun n ht => ?_, fun bytes ht => ?_, fun v ht => ?_⟩ <;>
    obtain ⟨hturn, ht⟩ := hostMove_next ht
  · cases ht
    exact inv_setInput h hturn (Memory.wf_write _ _ _ h.inputWf) _
  · cases ht
    exact inv_setInput h hturn h.inputWf n
  · obtain ⟨-, rfl⟩ := next_of_guard ht
    exact inv_setInput h hturn (Memory.wf_writeBytes _ _ _ h.inputWf) _
  · cases hcmd : decodeCmd v with
    | error _ => rw [hcmd] at ht; cases ht
    | ok i =>
      rw [hcmd] at ht; cases ht
      exact inv_placeCommand h (reserved_of_decodeCmd hcmd)

/-! ### The engine's steps -/

/-- A command that has ended `DONE` owes the invariant its memories and registers alone. -/
theorem inv_of_done {u : State} {endSeen short : Bool} (hstatus : u.status = ⟨.done, none, endSeen, short⟩)
    (hidle : u.activity = .idle) (hinput : Memory.wf u.input = true) (houtput : Memory.wf u.output = true)
    (hwin : u.win.Good) (hcmd : u.cmd.extractLsb' 2 6 = 0) (hbitc : u.dec.bitc.toNat ≤ groupSize)
    (hebit : u.enc.ebit.toNat ≤ groupSize) (htoklen : u.enc.toklen.toNat = u.enc.tokbuf.length)
    (htokbuf : u.enc.tokbuf.length ≤ 2 * u.enc.ebit.toNat) : State.Inv u where
  inputWf := hinput
  outputWf := houtput
  dictWf := hwin.1
  dictBounded := hwin.2
  errIffError := by simp [hstatus]
  errorNoOutput := by simp [hstatus]
  busyIffRunning := by simp [hstatus, hidle]
  headerFresh := by simp [hidle]
  streamRange := by simp [hidle]
  cmdReserved := hcmd
  bitcRange := hbitc
  ebitRange := hebit
  toklenIsLength := htoklen
  tokbufFits := htokbuf

theorem inv_compress (P : Params) {s : State} (h : State.Inv s) (a : Activity)
    (hm : ({ s with activity := a } : State).inLen.toNat ≤ maxIn) :
    State.Inv (compress P { s with activity := a }) := by
  obtain ⟨-, -, hebit, htokbuf, htoklen, -⟩ := encoded_loop P { s with activity := a }
  have houtput : Memory.wf (compress P { s with activity := a }).output = true := by
    rw [compress_output P hm]; exact Memory.wf_writeBytes _ _ _ h.outputWf
  rw [compress_eq P hm] at houtput ⊢
  refine inv_of_done rfl rfl h.inputWf houtput (init_good P _) h.cmdReserved
    h.bitcRange ?_ ?_ ?_
  · simp only [hebit]; decide
  · simp only [htoklen, htokbuf]; rfl
  · simp only [htokbuf, List.length_nil, Nat.zero_le]

theorem inv_compressStored (P : Params) {s : State} (h : State.Inv s) (a : Activity)
    (hm : ({ s with activity := a } : State).inLen.toNat ≤ maxIn) :
    State.Inv (compressStored P { s with activity := a }) := by
  have houtput : Memory.wf (compressStored P { s with activity := a }).output = true := by
    rw [compressStored_output P hm]; exact Memory.wf_writeBytes _ _ _ h.outputWf
  rw [compressStored_eq P hm] at houtput ⊢
  exact inv_of_done rfl rfl h.inputWf houtput ⟨h.dictWf, h.dictBounded⟩ h.cmdReserved
    h.bitcRange h.ebitRange h.toklenIsLength h.tokbufFits

/-- The six outcomes of `DECOMPRESS`, run by a step that has taken the waiting command. -/
theorem inv_decompress (P : Params) {s : State} (h : State.Inv s) (a : Activity) :
    State.Inv (decompress P { s with activity := a }) := by
  obtain ⟨-, k⟩ | ⟨-, -, -, k⟩ | ⟨-, -, -, k⟩ | ⟨-, -, -, k⟩ | ⟨-, -, -, -, k⟩ | ⟨h16, -, -, -, k⟩ :=
    decompress_cases P { s with activity := a }
  · rw [k]; exact inv_raise h _ rfl rfl rfl rfl rfl rfl rfl rfl
  · rw [k]; exact inv_raise h _ rfl rfl rfl rfl rfl rfl rfl rfl
  · rw [k]; exact inv_raise h _ rfl rfl rfl rfl rfl rfl rfl rfl
  · rw [k, hdrMela_eq]
    exact inv_finish h rfl rfl (Memory.wf_writeBytes _ _ _ h.outputWf) ⟨h.dictWf, h.dictBounded⟩ rfl h.bitcRange rfl
  · rw [k]; exact inv_raise h _ rfl rfl rfl rfl rfl rfl rfl rfl
  · obtain ⟨p, d, e, hrun, -, -, -, -, hbitc⟩ := openStream_effect P
      (payloadLenOf { s with activity := a } + 1) (ready { s with activity := a }) (by rw [ready_pend h16]; omega)
    rw [k, hrun]
    exact inv_finish h rfl rfl (Memory.wf_writeBytes _ _ _ h.outputWf) (init_good P p) rfl hbitc rfl

/-- A waiting command run by a step. -/
theorem inv_command {s t : State} {i : Instr} (h : State.Inv s) (hi : slotOf i = some .command)
    (ht : exec i { s with activity := .idle } = .next t) : State.Inv t := by
  obtain ⟨c, rfl⟩ | rfl | rfl := command_cases hi
  · obtain rfl := exec_decompress_next ht
    exact inv_decompress _ h _
  · obtain ⟨hm, rfl⟩ := exec_compress_next ht
    exact inv_compress _ h _ hm
  · obtain ⟨hm, rfl⟩ := exec_compressS_next ht
    exact inv_compressStored _ h _ hm

/-- The element that ends the stream keeps the invariant. -/
theorem inv_stop {s t : State} (h : State.Inv s) (ha : s.activity = .stream) (hp : streamPass s = .stop t) :
    State.Inv (finish t) := by
  have herr := err_none h (h.busyIffRunning.2 (by rw [ha]; decide))
  obtain ⟨-, rfl⟩ | ⟨off, lc, -, rfl, -⟩ := streamPass_stop hp <;>
    exact inv_finish h rfl rfl h.outputWf ⟨h.dictWf, h.dictBounded⟩ herr h.bitcRange rfl

/-- Settles O60: one case for each activity. -/
theorem stepKeepsTheInvariant : Obligations.StepKeepsTheInvariant := by
  unfold Obligations.StepKeepsTheInvariant
  intro s t h ht
  cases ha : s.activity with
  | idle =>
    rw [step_idle ha] at ht; cases ht
    exact h
  | command =>
    cases hcmd : decodeCmd s.cmd with
    | error _ => rw [step_command_reserved ha hcmd] at ht; cases ht
    | ok i =>
      rw [step_command ha hcmd] at ht
      exact inv_command h (decodeCmd_encode hcmd).1 ht
  | header =>
    have hb : s.status.state = .busy := h.busyIffRunning.2 (by rw [ha]; decide)
    obtain ⟨hout, hend⟩ := h.headerFresh ha
    rw [step_header ha] at ht; cases ht
    exact inv_runHeader _ h hb (err_none h hb) hout hend
  | stream =>
    obtain ⟨-, hp⟩ := h.streamRange ha
    cases hpass : streamPass s with
    | more u =>
      rw [step_stream_more ha hp hpass] at ht; cases ht
      exact inv_more h ha hpass
    | stop u =>
      rw [step_stream_stop ha hp hpass] at ht; cases ht
      exact inv_stop h ha hpass

end Sys2Proof.Machine
end
